-- ==== Sys2Proof/Word.lean ====
section
/-! DEFINITION. The word types of GVC and nothing else: the spec's u8, u32 and the 48-bit operation word. -/

namespace Sys2Proof

/-- A stream byte, a header-width entry and the WIDTH field: 8 bits (R5: BYTE, HBITS). -/
abbrev Byte := BitVec 8

/-- A value and the VALUE field: 32 bits (R5: VBITS). -/
abbrev Word := BitVec 32

/-- An operation word OPW: 48 bits (R5: OPWBITS, R70). -/
abbrev OpWord := BitVec 48

end Sys2Proof
end

