-- ==== Sys2Proof/Syntax.lean ====
section
/-! DEFINITION. The thirteen operations of spec/opcode_table.json (R71), one constructor per row. -/

namespace Sys2Proof

/-- The two stream contexts of the bit writer, selected by STR: 0 = H, 1 = V (R28, R70). -/
inductive Ctx where
  /-- The header stream, which becomes the output. -/
  | H
  /-- The value-only stream. -/
  | V
deriving DecidableEq, Repr

/-- GVC's operations. The first six are host commands, the other seven are micro-operations of SEQ (R13).
`splice` and `pop` take naturals: the word carries them only when they fit its field (R71, R131). -/
inductive Instr where
  /-- CLR m: empty the lists the mask selects, clear the status (R190). -/
  | clr (m : BitVec 4)
  /-- PUSHHW h: append a header width (R191). -/
  | pushhw (h : Byte)
  /-- PUSHVAL v: append a value (R192). -/
  | pushval (v : Word)
  /-- PUSHB b: append a byte to DATA (R193). -/
  | pushb (b : Byte)
  /-- ENCODE (R150, R151). -/
  | encode
  /-- DECODE (R170, R171). -/
  | decode
  /-- BW v: bit width into the latch W (R100). -/
  | bw (v : Word)
  /-- WINIT s: make a stream context empty (R110). -/
  | winit (c : Ctx)
  /-- APPEND s, value, width[, LB]: append a bit field (R111). -/
  | append (c : Ctx) (value : Word) (width : Byte) (lb : Bool)
  /-- FINISH s: flush the partial byte (R113). -/
  | finish (c : Ctx)
  /-- SPLICE n: carry n bits of V into H (R152). -/
  | splice (n : Nat)
  /-- RINIT: position the reader at the start of DATA (R130). -/
  | rinit
  /-- POP width[, LB]: extract a bit field (R131). -/
  | pop (width : Nat) (lb : Bool)
deriving DecidableEq, Repr

end Sys2Proof
end

