-- ==== Sys2Proof/WellFormed.lean ====
section
/-! DEFINITION. Which instructions an operation word can carry: the two operands the spec makes naturals must fit their
field (R71 for SPLICE's n in VALUE, R131 for POP's width in WIDTH). Every other operand is a bit field of the word's
own width, so there is nothing to check. -/

namespace Sys2Proof

/-- The instruction is one that an operation word names. -/
def Instr.wellFormed (i : Instr) : Bool :=
  match i with
  | .clr _ => true
  | .pushhw _ => true
  | .pushval _ => true
  | .pushb _ => true
  | .encode => true
  | .decode => true
  | .bw _ => true
  | .winit _ => true
  | .append _ _ _ _ => true
  | .finish _ => true
  | .splice n => decide (n < 2 ^ 32)
  | .rinit => true
  | .pop width _ => decide (width < 2 ^ 8)

end Sys2Proof
end

