-- ==== Sys2Proof/Decode.lean ====
section
/-! DEFINITION. The operation word: its fields (R70, R75), the patterns of the thirteen operations (R72), the strict
decoder (R73) and the encoder. A word is a number; it has no byte order (R54, notes/assumptions/9.md). -/

namespace Sys2Proof

/-! ## Fields (R70, R75) -/

/-- OPC = OPW[47:44]. -/
def opcField (w : OpWord) : BitVec 4 := w.extractLsb' 44 4
/-- LB = OPW[43]. -/
def lbField (w : OpWord) : Bool := w.getLsbD 43
/-- s = OPW[42]: 0 selects H, 1 selects V. -/
def strField (w : OpWord) : Ctx := if w.getLsbD 42 then .V else .H
/-- WIDTH = OPW[39:32]. -/
def widthField (w : OpWord) : Byte := w.extractLsb' 32 8
/-- M = OPW[35:32], the list mask of CLR. -/
def maskField (w : OpWord) : BitVec 4 := w.extractLsb' 32 4
/-- VALUE = OPW[31:0]. -/
def valueField (w : OpWord) : Word := w.extractLsb' 0 32
/-- b = OPW[7:0], the byte of PUSHB. -/
def byteField (w : OpWord) : Byte := w.extractLsb' 0 8

/-! ## The opcode map (R71, R72) -/

/-- The rows of the opcode table. -/
inductive Op where
  | clr | pushhw | pushval | pushb | encode | decode
  | bw | winit | append | finish | splice | rinit | pop
deriving DecidableEq, Repr

/-- The operation of an OPC value; none for the reserved codes 0x0, 0x7 and 0xF (R71). -/
def opOfOpc (opc : BitVec 4) : Option Op :=
  match opc.toNat with
  | 0x1 => some .clr
  | 0x2 => some .pushhw
  | 0x3 => some .pushval
  | 0x4 => some .pushb
  | 0x5 => some .encode
  | 0x6 => some .decode
  | 0x8 => some .bw
  | 0x9 => some .winit
  | 0xA => some .append
  | 0xB => some .finish
  | 0xC => some .splice
  | 0xD => some .rinit
  | 0xE => some .pop
  | _ => none

/-- The `match` column of R72. -/
def Op.pattern (o : Op) : OpWord :=
  match o with
  | .clr => 0x100000000000#48
  | .pushhw => 0x200000000000#48
  | .pushval => 0x300000000000#48
  | .pushb => 0x400000000000#48
  | .encode => 0x500000000000#48
  | .decode => 0x600000000000#48
  | .bw => 0x800000000000#48
  | .winit => 0x900000000000#48
  | .append => 0xA00000000000#48
  | .finish => 0xB00000000000#48
  | .splice => 0xC00000000000#48
  | .rinit => 0xD00000000000#48
  | .pop => 0xE00000000000#48

/-- The `mask` column of R72. -/
def Op.mask (o : Op) : OpWord :=
  match o with
  | .clr => 0xFFF0FFFFFFFF#48
  | .pushhw => 0xFF00FFFFFFFF#48
  | .pushval => 0xFFFF00000000#48
  | .pushb => 0xFFFFFFFFFF00#48
  | .encode => 0xFFFFFFFFFFFF#48
  | .decode => 0xFFFFFFFFFFFF#48
  | .bw => 0xFFFF00000000#48
  | .winit => 0xFBFFFFFFFFFF#48
  | .append => 0xF30000000000#48
  | .finish => 0xFBFFFFFFFFFF#48
  | .splice => 0xFFFF00000000#48
  | .rinit => 0xFFFFFFFFFFFF#48
  | .pop => 0xF700FFFFFFFF#48

/-- An OPW w names the operation when `w AND mask == match` (R72). -/
def Op.names (o : Op) (w : OpWord) : Bool := w &&& o.mask == o.pattern

/-- The host commands; the other seven are issued by SEQ only (R13, R71, R74). -/
def Op.isHost (o : Op) : Bool :=
  match o with
  | .clr | .pushhw | .pushval | .pushb | .encode | .decode => true
  | .bw | .winit | .append | .finish | .splice | .rinit | .pop => false

/-- The instruction of an operation with the operands of a word (R71, R75). -/
def Op.instr (o : Op) (w : OpWord) : Instr :=
  match o with
  | .clr => .clr (maskField w)
  | .pushhw => .pushhw (widthField w)
  | .pushval => .pushval (valueField w)
  | .pushb => .pushb (byteField w)
  | .encode => .encode
  | .decode => .decode
  | .bw => .bw (valueField w)
  | .winit => .winit (strField w)
  | .append => .append (strField w) (valueField w) (widthField w) (lbField w)
  | .finish => .finish (strField w)
  | .splice => .splice (valueField w).toNat
  | .rinit => .rinit
  | .pop => .pop (widthField w).toNat (lbField w)

/-- The operation an instruction is an instance of. -/
def Instr.op (i : Instr) : Op :=
  match i with
  | .clr _ => .clr
  | .pushhw _ => .pushhw
  | .pushval _ => .pushval
  | .pushb _ => .pushb
  | .encode => .encode
  | .decode => .decode
  | .bw _ => .bw
  | .winit _ => .winit
  | .append _ _ _ _ => .append
  | .finish _ => .finish
  | .splice _ => .splice
  | .rinit => .rinit
  | .pop _ _ => .pop

/-! ## Decoding (R73) -/

/-- Why a word names no operation. -/
inductive Illegal where
  /-- OPC is 0x0, 0x7 or 0xF (R73 (a)). -/
  | reservedOpcode (opc : BitVec 4)
  /-- The OPC is allocated but a must-be-zero field is not zero (R73 (c)). -/
  | fieldNotZero (op : Op)
deriving DecidableEq, Repr

/-- Strict decoding, total on every word. Whether the port the word came through accepts the operation (R73 (b)) is
decided where the word is issued (Machine/Issue.lean). -/
def decode (w : OpWord) : Except Illegal Instr :=
  match opOfOpc (opcField w) with
  | none => .error (.reservedOpcode (opcField w))
  | some o => if o.names w then .ok (o.instr w) else .error (.fieldNotZero o)

/-! ## Encoding (R70, R71) -/

/-- The OPC column of R71. -/
def Op.opc (o : Op) : BitVec 4 :=
  match o with
  | .clr => 0x1#4
  | .pushhw => 0x2#4
  | .pushval => 0x3#4
  | .pushb => 0x4#4
  | .encode => 0x5#4
  | .decode => 0x6#4
  | .bw => 0x8#4
  | .winit => 0x9#4
  | .append => 0xA#4
  | .finish => 0xB#4
  | .splice => 0xC#4
  | .rinit => 0xD#4
  | .pop => 0xE#4

/-- The STR bit of a context (R70). -/
def Ctx.str (c : Ctx) : BitVec 1 :=
  match c with
  | .H => 0#1
  | .V => 1#1

/-- The word with the given fields, RSV zero: OPC, LB, STR, RSV, WIDTH, VALUE from the top (R70). -/
def assemble (opc : BitVec 4) (lb : Bool) (str : BitVec 1) (width : Byte) (value : Word) : OpWord :=
  opc ++ BitVec.ofBool lb ++ str ++ 0#2 ++ width ++ value

/-- The operation word of an instruction; unused fields are 0 (R70, R71). -/
def encode (i : Instr) : OpWord :=
  match i with
  | .clr m => assemble Op.clr.opc false 0#1 (m.zeroExtend 8) 0#32
  | .pushhw h => assemble Op.pushhw.opc false 0#1 h 0#32
  | .pushval v => assemble Op.pushval.opc false 0#1 0#8 v
  | .pushb b => assemble Op.pushb.opc false 0#1 0#8 (b.zeroExtend 32)
  | .encode => assemble Op.encode.opc false 0#1 0#8 0#32
  | .decode => assemble Op.decode.opc false 0#1 0#8 0#32
  | .bw v => assemble Op.bw.opc false 0#1 0#8 v
  | .winit c => assemble Op.winit.opc false c.str 0#8 0#32
  | .append c value width lb => assemble Op.append.opc lb c.str width value
  | .finish c => assemble Op.finish.opc false c.str 0#8 0#32
  | .splice n => assemble Op.splice.opc false 0#1 0#8 (BitVec.ofNat 32 n)
  | .rinit => assemble Op.rinit.opc false 0#1 0#8 0#32
  | .pop width lb => assemble Op.pop.opc lb 0#1 (BitVec.ofNat 8 width) 0#32

/-! ## The two pseudo-instructions (R84) -/

/-- CALL_ENCODE: the host commands that load the lists and encode them. -/
def callEncode (hw : List Byte) (vals : List Word) : List Instr :=
  .clr 0xF#4 :: hw.map .pushhw ++ vals.map .pushval ++ [.encode]

/-- CALL_DECODE: the host commands that load the widths and the stream and decode it. -/
def callDecode (hw : List Byte) (data : List Byte) : List Instr :=
  .clr 0xF#4 :: hw.map .pushhw ++ data.map .pushb ++ [.decode]

/-! ## The host's question -/

/-- The instruction the decoder reads from a table row's word. Every operation is one word of 48 bits (R70), and the
table's bit numbers are the word's own. -/
def decodeTableWord (nbits w : Nat) : Option Instr :=
  if nbits ≤ 48 then
    match decode (BitVec.ofNat 48 (w % 2 ^ nbits)) with
    | .ok i => some i
    | .error _ => none
  else none

end Sys2Proof
end

