-- ==== Sys2Proof/Config.lean ====
section
/-! DEFINITION. What the spec leaves open: the list capacities, which the model takes as data (R5), and the free values of the
working state once a call is over (U6). NINST and TRANSPORT are not modelled (notes/assumptions/13.md). -/

namespace Sys2Proof

/-- The capacities of R5. `none` is "unbounded", which R5 allows. They are parameters: no command changes them. -/
structure Config where
  /-- MAXF: capacity of HW and of VAL, in entries. -/
  maxF : Option Nat
  /-- MAXB: capacity of DATA, in bytes. -/
  maxB : Option Nat
deriving DecidableEq, Repr

/-- The capacities `State.reset` takes: unbounded (DESIGN CHOICE, notes/assumptions/1.md). -/
def Config.unbounded : Config := { maxF := none, maxB := none }

/-- R5: MAXB must satisfy MAXB >= ceil(63 * MAXF / 8); an unbounded MAXF leaves no finite MAXB that does. -/
def Config.wf (c : Config) : Bool :=
  match c.maxF, c.maxB with
  | _, none => true
  | none, some _ => false
  | some f, some b => decide ((63 * f + 7) / 8 ≤ b)

/-- VCAP, the capacity of the internal value stream V in bytes: ceil(31 * MAXF / 8), every field adding at most 31 bits to
V (R5); unbounded with MAXF. -/
def Config.vCap (c : Config) : Option Nat := c.maxF.map fun f => (31 * f + 7) / 8

/-- A free number kept within a capacity. -/
def Config.within (cap : Option Nat) (n : Nat) : Nat :=
  match cap with
  | none => n
  | some m => n % (m + 1)

/-- A free list kept within a capacity. -/
def Config.prefixWithin {α : Type} (cap : Option Nat) (l : List α) : List α :=
  match cap with
  | none => l
  | some m => l.take m

/-- What the working state holds once a call is over: nothing the spec says a value of (R219, U6). -/
structure Leftover where
  /-- The bits written into H. -/
  hBits : List Bool
  /-- The bits written into V. -/
  vBits : List Bool
  /-- T. -/
  total : Nat
  /-- RD.POS. -/
  position : Nat
  /-- POP's result. -/
  popped : Word
  /-- L. -/
  lengths : List Word
  /-- R. -/
  results : List Word
  /-- W. -/
  width : Nat
  /-- IDX. -/
  index : Nat
deriving DecidableEq, Repr, Inhabited

/-- The free values: any value, a new one for each call (U6, notes/assumptions/4.md). -/
opaque Config.leftover : Nat → Leftover

/-- A length that a capacity admits; every length is admitted by an unbounded one. -/
def Config.admits (cap : Option Nat) (n : Nat) : Bool :=
  match cap with
  | none => true
  | some m => decide (n ≤ m)

end Sys2Proof
end

