-- ==== Sys2Proof/Machine/State.lean ====
section
/-! DEFINITION. The architectural state of GVC (10_state.md), the reasons a step can stop, and reset (R36, R240). -/

namespace Sys2Proof.Machine

open Sys2Proof

/-! ## Parts of the state -/

/-- DATA, GVC's only memory the host can see (R50): its bytes as cells (index, byte). An unlisted index holds no value:
an entry at or beyond the length does not exist (R24), so reading it has no result. -/
abbrev Memory := List Host.Cell

/-- A stream context of the bit writer (R28, R29). -/
structure Writer where
  /-- s.OUT: the bytes completed so far. -/
  out : List Byte
  /-- s.P: the partial byte. -/
  p : Byte
  /-- s.K: the number of bits of `p` already occupied, 0..7. -/
  k : Nat
  /-- The model's own mark that FINISH has been issued on this context: R113 leaves an APPEND after it undefined, and a
  second FINISH breaks R248 (a) (notes/assumptions/6.md). -/
  finished : Bool
deriving DecidableEq, Repr

/-- STATE, STATUS[1:0] (R26): the outcome of the most recent host command. Value 3 is never produced. -/
inductive CmdState where
  /-- 0: no command since reset or since CLR with the ST bit. -/
  | idle
  /-- 1. -/
  | ok
  /-- 2. -/
  | fault
deriving DecidableEq, Repr

/-- The fault kinds of R210, in the order of their codes 1 to 7. -/
inductive FaultKind where
  | fieldCountMismatch
  | valueTooWide
  | insufficientData
  | emptyInput
  | widthOutOfRange
  | illegalCommand
  | capacityExceeded
deriving DecidableEq, Repr

/-- The STATUS register by its fields (R26); Flags.lean gives the 32-bit word the host reads. -/
structure Status where
  /-- STATE, STATUS[1:0]. -/
  state : CmdState
  /-- FSEEN, STATUS[2]: sticky. -/
  fseen : Bool
  /-- LASTOP, STATUS[7:4]: OPC of the most recent host command. -/
  lastop : BitVec 4
  /-- FCODE, STATUS[10:8]: the fault of the most recent host command, `none` for 0. -/
  fcode : Option FaultKind
deriving DecidableEq, Repr

/-- The sequencer phases (R33). -/
inductive Phase where
  | idle
  | encField
  | encFlushV
  | encSplice
  | encFlushH
  | decHdr
  | decVal
deriving DecidableEq, Repr

/-- The sequencer position SEQ = (PHASE, IDX), in place of a program counter (R33). -/
structure Seq where
  phase : Phase
  idx : Nat
deriving DecidableEq, Repr

/-- The spaces of the host read port (R197): 0 registers, 1 HW, 2 VAL, 3 DATA. -/
inductive Space where
  | registers
  | hw
  | vals
  | data
deriving DecidableEq, Repr

/-- What one step takes in (R35: the operation word and the read select are inputs of a step). The list of them in State
is the model's own (notes/assumptions/2.md). -/
inductive Input where
  /-- The host presents an operation word to HIF (R12). -/
  | host (w : OpWord)
  /-- SEQ issues a micro-operation word to the units (R74). -/
  | seq (w : OpWord)
  /-- The host reads entry `index` of a space (R197). -/
  | read (space : Space) (index : Nat)
deriving DecidableEq, Repr

/-! ## Faults of the hardware (not of the model): what `raise F(info)` carries -/

/-- `raise F(info)`: a fault kind of R210 with the information its record needs. -/
inductive Raise where
  /-- R211. -/
  | fieldCountMismatch
  /-- R212: the offending value and the header width. -/
  | valueTooWide (value : Word) (width : Byte)
  /-- R213: how many bits were missing. -/
  | insufficientData (bits : Nat)
  /-- R214. -/
  | emptyInput
  /-- R215: the offending width operand. -/
  | widthOutOfRange (width : Nat)
  /-- R216. -/
  | illegalCommand
  /-- R217. -/
  | capacityExceeded
deriving DecidableEq, Repr

/-- What the host word being executed is, as far as the end of a command needs to know (R198, R219). -/
inductive Command where
  | clr
  | pushhw
  | pushval
  | pushb
  | encode
  | decode
  /-- An illegal word with this OPC field (R194). -/
  | illegal (opc : BitVec 4)
deriving DecidableEq, Repr

/-! ## The state -/

/-- The state of one GVC instance. -/
structure State where
  /-- The open parameters MAXF and MAXB (R5); constant. -/
  cfg : Config
  /-- HW, the header-width list; NHW is its length (R21). -/
  hw : List Byte
  /-- VAL, the value list; NVAL is its length (R22). -/
  vals : List Word
  /-- DATA, the byte list; DLEN is its length (R23, R50). -/
  data : Memory
  /-- Register 0, STATUS (R26). -/
  status : Status
  /-- Register 1, FVAL (R26). -/
  fval : Word
  /-- Register 2, FWID (R26). -/
  fwid : Byte
  /-- Register 3, FBITS (R26). -/
  fbits : BitVec 6
  /-- Register 4, FIDX (R26). -/
  fidx : Nat
  /-- Register 5, RPOS (R26). -/
  rpos : Nat
  /-- Stream context H (R28). -/
  hctx : Writer
  /-- Stream context V (R28). -/
  vctx : Writer
  /-- T, the running total of value bits (R30). -/
  t : Nat
  /-- RD.POS, the reader's stream position (R31). -/
  rdpos : Nat
  /-- The latch by which BRD delivers POP's result to SEQ (R131; the model's name, notes/assumptions/7.md). -/
  popped : Word
  /-- L, the bit-length table, by the entries written in this call (R32). -/
  l : List Word
  /-- R, the list of results DECODE builds (R171). -/
  r : List Word
  /-- W, the bit-width latch, 0..32 (R34). -/
  w : Nat
  /-- SEQ (R33). -/
  seq : Seq
  /-- The model's own: the inputs still to come, in their total order (R63). -/
  inputs : List Input
  /-- The model's own: the values the host read port has returned, oldest first (R197). -/
  answers : List Nat
  /-- The model's own: how many free values have been read (notes/assumptions/4.md). -/
  fresh : Nat
deriving DecidableEq, Repr

/-- Why the machine stops with a fault of the model. GVC's own faults are no such stop: they are recorded in the status
registers and the machine goes on (R219). -/
inductive Fault where
  /-- A micro-operation raised while SEQ is IDLE: R219 defines `raise` during a host command only, and SEQ issues the
  raising micro-operations (APPEND, POP) inside a call only. Raised by execAppend and execPop. Safe. -/
  | raisedOutsideCall (r : Raise)
  /-- A read of a DATA byte that does not exist (R24). Raised by POP, in states whose DATA is not in canonical form
  only: no run reaches one. Safe. -/
  | noSuchByte (position : Nat)
deriving DecidableEq, Repr

/-- Why the model gives a case no meaning. -/
inductive Refusal where
  /-- Raised by exec's arms for an instruction without a meaning yet. Safe. -/
  | notModelled (mnemonic : String)
  /-- APPEND with LB = 1 and width = 0 (R112 (b), U1: a model shall refuse it). Raised by execAppend. Safe. -/
  | appendLeadingBitOfWidthZero
  /-- APPEND on a context after its FINISH (R113, U2: a model shall refuse it). Raised by execAppend and execSplice. Safe. -/
  | appendAfterFinish
  /-- FINISH on a context after its FINISH (R248 (a), U2, D19: a model refuses it). Raised by execFinish. Safe. -/
  | finishAfterFinish
  /-- SPLICE n with n above the bits of V.OUT (R152, U11). Raised by execSplice. Safe. -/
  | spliceBeyondStream
  /-- A host read of a register above 8 or of a list entry at or above the length (R24, R197, U5: a model shall refuse
  it). Raised by the read port. Safe. -/
  | readOfNoEntry
  /-- A word issued by SEQ that is no micro-operation: SEQ never issues one (R74). Raised by the SEQ port. Safe. -/
  | seqWordNotMicro
deriving DecidableEq, Repr

/-! ## Reset (R36, R240) -/

/-- WINIT's empty context (R110), also the value the model gives H and V at reset. -/
def Writer.empty : Writer := { out := [], p := 0#8, k := 0, finished := false }

/-- STATUS = 0. -/
def Status.zero : Status := { state := .idle, fseen := false, lastop := 0#4, fcode := none }

/-- SEQ = (IDLE, 0). -/
def Seq.idle : Seq := { phase := .idle, idx := 0 }

/-- The machine right after reset. The working state (`hctx` to `w`) is unspecified after reset; the zeros here are the
model's (DESIGN CHOICE, notes/assumptions/3.md), and so are the model's own fields' values. -/
def State.reset : State where
  cfg := Config.unbounded
  hw := []
  vals := []
  data := []
  status := Status.zero
  fval := 0#32
  fwid := 0#8
  fbits := 0#6
  fidx := 0
  rpos := 0
  hctx := Writer.empty
  vctx := Writer.empty
  t := 0
  rdpos := 0
  popped := 0#32
  l := []
  r := []
  w := 0
  seq := Seq.idle
  inputs := []
  answers := []
  fresh := 0

end Sys2Proof.Machine
end

