-- ==== Sys2Proof/Machine/Operands.lean ====
section
/-! DEFINITION. Operand forms: the bits of a value and of a stream (R7, R8), the bit width (R100), effective widths
(R111, R131), CLR's mask (R190), the lists as the encoder and decoder index them. -/

namespace Sys2Proof.Machine

open Sys2Proof

/-- W_MAX, the largest width APPEND and POP accept (R5). -/
def wMax : Nat := 32

/-- The highest set bit of `v` below position `n`, plus one; 0 if there is none. -/
def bwBelow (v : Word) : Nat → Nat
  | 0 => 0
  | n + 1 => if v.getLsbD n then n + 1 else bwBelow v n

/-- bw(v): 0 for 0, else one plus the position of the highest set bit (R100). -/
def bw (v : Word) : Nat := bwBelow v 32

/-- v[n-1:0] as a bit string, most-significant bit first (R7, R111). -/
def bitsOf (v : Nat) : Nat → List Bool
  | 0 => []
  | n + 1 => v.testBit n :: bitsOf v n

/-- The number a bit string holds, its first bit the most significant (R8). -/
def numberOf (bits : List Bool) : Nat := bits.foldl (fun r b => 2 * r + b.toNat) 0

/-- The effective width of APPEND and POP: `width - 1` with LB (R111, R131). -/
def effWidth (width : Nat) (lb : Bool) : Nat := if lb then width - 1 else width

/-- bit(B, p) of a byte, by the position within the byte: position 0 is bit 7 (R8, R52). -/
def byteBit (b : Byte) (p : Nat) : Bool := b.getLsbD (7 - p)

/-- The eight bits of a byte in stream order (R8, R52). -/
def byteBits (b : Byte) : List Bool := bitsOf b.toNat 8

/-- All bits of a byte list in stream order (R8, R53). -/
def streamBits (bytes : List Byte) : List Bool := bytes.flatMap byteBits

/-- CLR's mask bits (R190). -/
def clrHw (m : BitVec 4) : Bool := m.getLsbD 0
def clrVal (m : BitVec 4) : Bool := m.getLsbD 1
def clrData (m : BitVec 4) : Bool := m.getLsbD 2
def clrStatus (m : BitVec 4) : Bool := m.getLsbD 3

/-- The OPC field of a host word, for LASTOP (R71, R198). -/
def Command.opc (c : Command) : BitVec 4 :=
  match c with
  | .clr => 0x1#4
  | .pushhw => 0x2#4
  | .pushval => 0x3#4
  | .pushb => 0x4#4
  | .encode => 0x5#4
  | .decode => 0x6#4
  | .illegal opc => opc

/-- The command SEQ is executing in a phase; IDLE tells of none (R33). -/
def Phase.call (p : Phase) : Option Command :=
  match p with
  | .idle => none
  | .encField | .encFlushV | .encSplice | .encFlushH => some .encode
  | .decHdr | .decVal => some .decode

/-- The bits of a field that fits no byte boundary: `n` bits of DATA's bit string from position `p` (R8, R55). -/
def fieldAt (bits : List Bool) (p n : Nat) : Nat := numberOf ((bits.drop p).take n)

end Sys2Proof.Machine
end

