-- ==== Sys2Proof/Machine/Flags.lean ====
section
/-! DEFINITION. The status and fault registers: the STATUS word the host reads (R26), the code of each fault (R210), what
each fault records (R211 to R217), and the status update that ends every host word (R198). GVC has no condition codes
(R27). -/

namespace Sys2Proof.Machine

open Sys2Proof

/-- STATUS[1:0] (R26). -/
def CmdState.code (c : CmdState) : BitVec 2 :=
  match c with
  | .idle => 0#2
  | .ok => 1#2
  | .fault => 2#2

/-- The fault codes (R210). -/
def FaultKind.code (k : FaultKind) : BitVec 3 :=
  match k with
  | .fieldCountMismatch => 1#3
  | .valueTooWide => 2#3
  | .insufficientData => 3#3
  | .emptyInput => 4#3
  | .widthOutOfRange => 5#3
  | .illegalCommand => 6#3
  | .capacityExceeded => 7#3

/-- FCODE: 0 when there is no fault (R26). -/
def fcodeBits (f : Option FaultKind) : BitVec 3 :=
  match f with
  | none => 0#3
  | some k => k.code

/-- The STATUS register as the host reads it: bits [31:11] and [3] read 0 (R26). -/
def Status.word (s : Status) : Word :=
  0#21 ++ fcodeBits s.fcode ++ s.lastop ++ 0#1 ++ BitVec.ofBool s.fseen ++ s.state.code

/-- The kind of a raised fault (R210). -/
def Raise.kind (r : Raise) : FaultKind :=
  match r with
  | .fieldCountMismatch => .fieldCountMismatch
  | .valueTooWide _ _ => .valueTooWide
  | .insufficientData _ => .insufficientData
  | .emptyInput => .emptyInput
  | .widthOutOfRange _ => .widthOutOfRange
  | .illegalCommand => .illegalCommand
  | .capacityExceeded => .capacityExceeded

/-- FVAL as the fault records it: the value (R212), the width operand (R215), else 0. -/
def Raise.fval (r : Raise) : Word :=
  match r with
  | .valueTooWide value _ => value
  | .widthOutOfRange width => BitVec.ofNat 32 width
  | .fieldCountMismatch | .insufficientData _ | .emptyInput | .illegalCommand | .capacityExceeded => 0#32

/-- HW[i]; 0 stands where no entry exists, which no fault of a call meets. -/
def hwAt (s : State) (i : Nat) : Byte := s.hw[i]?.getD 0#8

/-- FWID as the fault records it: the header width of the field at fault (R212, R215), else 0. -/
def Raise.fwid (r : Raise) (s : State) : Byte :=
  match r with
  | .valueTooWide _ width => width
  | .widthOutOfRange _ => hwAt s s.seq.idx
  | .fieldCountMismatch | .insufficientData _ | .emptyInput | .illegalCommand | .capacityExceeded => 0#8

/-- FBITS as the fault records it: the bits short (R213), else 0. -/
def Raise.fbits (r : Raise) : BitVec 6 :=
  match r with
  | .insufficientData bits => BitVec.ofNat 6 bits
  | .fieldCountMismatch | .valueTooWide _ _ | .emptyInput | .widthOutOfRange _ | .illegalCommand
  | .capacityExceeded => 0#6

/-- FIDX as the fault records it: SEQ's field index (R33, R212, R213, R215), else 0. -/
def Raise.fidx (r : Raise) (s : State) : Nat :=
  match r with
  | .valueTooWide _ _ | .insufficientData _ | .widthOutOfRange _ => s.seq.idx
  | .fieldCountMismatch | .emptyInput | .illegalCommand | .capacityExceeded => 0

/-- The status update of a command that completed without `raise` (R198). FSEEN and RPOS stay. -/
def State.recordOk (c : Command) (s : State) : State :=
  { s with
    status := { state := .ok, fseen := s.status.fseen, lastop := c.opc, fcode := none }
    fval := 0#32
    fwid := 0#8
    fbits := 0#6
    fidx := 0 }

/-- The status update of a command that raised (R198). RPOS stays. -/
def State.recordFault (c : Command) (r : Raise) (s : State) : State :=
  { s with
    status := { state := .fault, fseen := true, lastop := c.opc, fcode := some r.kind }
    fval := r.fval
    fwid := r.fwid s
    fbits := r.fbits
    fidx := r.fidx s }

/-- CLR with the ST bit: every status register 0 (R190). -/
def State.clearStatus (s : State) : State :=
  { s with
    status := Status.zero
    fval := 0#32
    fwid := 0#8
    fbits := 0#6
    fidx := 0
    rpos := 0 }

end Sys2Proof.Machine
end

