-- ==== Sys2Proof/Machine/Ops.lean ====
section
/-! DEFINITION. The named operations the meanings share: DATA as memory (R50), the sequencer position (R33), the stream
contexts (R110, R111, R113), the reader (R130, R131), taking a fault (R219) and ending a command (R198). -/

namespace Sys2Proof.Machine

open Sys2Proof

/-! ## DATA (R23, R50) -/

/-- DATA's canonical form: the indices 0, 1, ..., DLEN - 1 in order (R9, R24). -/
def Memory.wf (m : Memory) : Bool := m.map Prod.fst == List.range m.length

/-- DLEN (R23). -/
def Memory.dlen (m : Memory) : Nat := m.length

/-- MemRead(a, 1): the byte DATA[a]; none when no such entry exists (R10, R24). -/
def Memory.read (m : Memory) (a : Nat) : Option Byte := m.lookup a

/-- MemWrite(DLEN, 1, b): append a byte (R193). -/
def Memory.push (m : Memory) (b : Byte) : Memory := m ++ [(m.length, b)]

/-- DATA holding a byte list, replaced whole (R50, R151). -/
def Memory.ofBytes (bytes : List Byte) : Memory := bytes.zipIdx.map fun x => (x.2, x.1)

/-- The bytes of DATA in order of index. -/
def Memory.bytes (m : Memory) : List Byte := m.map Prod.snd

/-- bit(DATA, p) (R8). -/
def Memory.bit (m : Memory) (p : Nat) : Option Bool := (m.read (p / 8)).map fun b => byteBit b (p % 8)

/-! ## The writer's bits (R29, R111) -/

/-- The body of APPEND's loop: one bit into the partial byte, the byte out when it fills (R111). -/
def Writer.pushBit (x : Writer) (b : Bool) : Writer :=
  let p := x.p ||| (BitVec.ofNat 8 b.toNat <<< (7 - x.k))
  if x.k + 1 = 8 then { x with out := x.out ++ [p], p := 0#8, k := 0 }
  else { x with p := p, k := x.k + 1 }

/-- Bits one after the other, first bit first (R111). -/
def Writer.pushBits (x : Writer) (bits : List Bool) : Writer := bits.foldl Writer.pushBit x

/-- An empty context with the mark of `x`, given as many of the bits as `cap` bytes hold. -/
def Writer.leaveWithin (cap : Option Nat) (x : Writer) (bits : List Bool) : Writer :=
  Writer.pushBits { out := [], p := 0#8, k := 0, finished := x.finished } (Config.prefixWithin (cap.map (8 * ·)) bits)

/-! ## Micro-operation results -/

/-- How a micro-operation ends: with the state it leaves, by `raise` with the state at the raise, or by a stop of the model. -/
inductive Micro where
  | ok (s : State)
  | raised (r : Raise) (s : State)
  | stuck (f : Fault)
  | refuse (r : Refusal)

/-- Go on with the next micro-operation; a fault ends the command at once (R199 (c)). -/
def Micro.andThen (m : Micro) (f : State → Micro) : Micro :=
  match m with
  | .ok s => f s
  | .raised r s => .raised r s
  | .stuck e => .stuck e
  | .refuse e => .refuse e

/-! ## SEQ (R33) -/

/-- SEQ <- (phase, idx). -/
def State.atSeq (s : State) (phase : Phase) (idx : Nat) : State := { s with seq := { phase := phase, idx := idx } }

/-! ## Fault entry and the end of a command (R198, R219) -/

/-- RD.POS at the raise as DECODE reports it: 0 for EmptyInput, which is raised before RINIT (R214, R219). -/
def Raise.rpos (r : Raise) (s : State) : Nat :=
  match r with
  | .emptyInput => 0
  | .fieldCountMismatch | .valueTooWide _ _ | .insufficientData _ | .widthOutOfRange _ | .illegalCommand
  | .capacityExceeded => s.rdpos

/-- R219 step 2: the destination list of the command is emptied; a PUSH, CLR or illegal word has none. -/
def State.emptyDestination (c : Command) (r : Raise) (s : State) : State :=
  match c with
  | .encode => { s with data := [] }
  | .decode => { s with vals := [], rpos := r.rpos s }
  | .clr | .pushhw | .pushval | .pushb | .illegal _ => s

/-- ENCODE's working state after its call: any value within the limits of R28 to R30 and R34 (U6). The `finished` marks
are the model's own and stay (notes/assumptions/4.md). -/
def State.abandonWriter (s : State) : State :=
  { s with
    hctx := s.hctx.leaveWithin s.cfg.maxB (Config.leftover s.fresh).hBits
    vctx := s.vctx.leaveWithin s.cfg.vCap (Config.leftover s.fresh).vBits
    t := Config.within (s.cfg.maxF.map (31 * ·)) (Config.leftover s.fresh).total
    w := (Config.leftover s.fresh).width % 33
    fresh := s.fresh + 1 }

/-- DECODE's working state after its call: any value within the limits of R32 and R171 (U6, notes/assumptions/4.md). -/
def State.abandonReader (s : State) : State :=
  { s with
    rdpos := (Config.leftover s.fresh).position
    popped := (Config.leftover s.fresh).popped
    l := Config.prefixWithin s.cfg.maxF (Config.leftover s.fresh).lengths
    r := Config.prefixWithin s.cfg.maxF (Config.leftover s.fresh).results
    fresh := s.fresh + 1 }

/-- SEQ between commands: IDLE, its IDX any value (R33, U6, notes/assumptions/4.md). -/
def State.rest (s : State) : State :=
  { s with
    seq := { phase := .idle, idx := Config.within s.cfg.maxF (Config.leftover s.fresh).index }
    fresh := s.fresh + 1 }

/-- R219 step 1: the working state is abandoned; an illegal word leaves it untouched (R194). -/
def State.abandon (c : Command) (s : State) : State :=
  match c with
  | .illegal _ => s
  | .clr | .pushhw | .pushval | .pushb | .encode | .decode => s.abandonWriter.abandonReader

/-- `raise F(info)` during the host command `c` (R219): the fault is recorded, the destination emptied, the working state
abandoned, SEQ goes to (IDLE, 0). -/
def State.raise (c : Command) (r : Raise) (s : State) : State :=
  { (((s.recordFault c r).emptyDestination c r).abandon c) with seq := Seq.idle }

/-- The end of a command that completed (R198). After a call SEQ is back in IDLE and the call's own working state means
nothing; the other unit's stays (R33, R115, R134, U6). CLR and PUSH have none and leave it (R190). -/
def State.complete (c : Command) (s : State) : State :=
  match c with
  | .encode => (s.recordOk .encode).abandonWriter.rest
  | .decode => (s.recordOk .decode).abandonReader.rest
  | .clr | .pushhw | .pushval | .pushb | .illegal _ => s.recordOk c

/-- The end of a host command's micro-operations (R198, R219). -/
def Micro.endCommand (c : Command) (m : Micro) : Host.Outcome State Fault Refusal :=
  match m with
  | .ok s => .next (s.complete c)
  | .raised r s => .next (s.raise c r)
  | .stuck e => .fault e
  | .refuse e => .refused e

/-- The end of a micro-operation issued as a step of its own: a `raise` ends the call SEQ is in (R219); with SEQ IDLE
there is no command for it to end (notes/assumptions/5.md). -/
def Micro.endMicro (m : Micro) : Host.Outcome State Fault Refusal :=
  match m with
  | .ok s => .next s
  | .raised r s =>
    match s.seq.phase.call with
    | some c => .next (s.raise c r)
    | none => .fault (.raisedOutsideCall r)
  | .stuck e => .fault e
  | .refuse e => .refused e

/-! ## LZD (R100) -/

/-- W <- bw(v). -/
def State.latchWidth (v : Word) (s : State) : State := { s with w := bw v }

/-! ## BWR (R110 to R113) -/

/-- The context a STR bit selects. -/
def State.ctx (s : State) (c : Ctx) : Writer :=
  match c with
  | .H => s.hctx
  | .V => s.vctx

/-- Write a stream context. -/
def State.setCtx (s : State) (c : Ctx) (x : Writer) : State :=
  match c with
  | .H => { s with hctx := x }
  | .V => { s with vctx := x }

/-- WINIT (R110). -/
def State.winit (c : Ctx) (s : State) : State := s.setCtx c Writer.empty

/-- APPEND (R111, R112): the width test first, then the two undefined cases, then the bits. -/
def State.append (c : Ctx) (value : Word) (width : Nat) (lb : Bool) (s : State) : Micro :=
  if wMax < width then .raised (.widthOutOfRange width) s
  else if lb = true ∧ width = 0 then .refuse .appendLeadingBitOfWidthZero
  else if (s.ctx c).finished then .refuse .appendAfterFinish
  else .ok (s.setCtx c ((s.ctx c).pushBits (bitsOf value.toNat (effWidth width lb))))

/-- What FINISH does to a context (R113). -/
def Writer.flush (x : Writer) : Writer :=
  if x.k = 0 then { x with finished := true }
  else { out := x.out ++ [x.p], p := 0#8, k := 0, finished := true }

/-- FINISH (R113), issued exactly once on a context: a second is refused (R248 (a), U2, D19). -/
def State.finish (c : Ctx) (s : State) : Micro :=
  if (s.ctx c).finished then .refuse .finishAfterFinish else .ok (s.setCtx c (s.ctx c).flush)

/-- The loop of SPLICE: each bit by an APPEND H of width 1 (R152). -/
def State.appendEach : List Bool → State → Micro
  | [], s => .ok s
  | b :: bits, s => (s.append .H (BitVec.ofNat 32 b.toNat) 1 false).andThen (State.appendEach bits)

/-- SPLICE n (R152); n above the bits of V.OUT is undefined (U11). -/
def State.splice (n : Nat) (s : State) : Micro :=
  if n ≤ 8 * s.vctx.out.length then State.appendEach ((streamBits s.vctx.out).take n) s
  else .refuse .spliceBeyondStream

/-! ## BRD (R130, R131) -/

/-- RINIT (R130). -/
def State.rinit (s : State) : State := { s with rdpos := 0 }

/-- The loop of POP: `n` bits of DATA from position `p` after the bits read so far, `acc` (R131). -/
def Memory.readBits (m : Memory) : Nat → Nat → Nat → Option Nat
  | _, 0, acc => some acc
  | p, n + 1, acc =>
    match m.bit p with
    | none => none
    | some b => m.readBits (p + 1) n (2 * acc + b.toNat)

/-- POP's result: bit `width - 1` forced to 1 with LB (R131). -/
def popResult (bits width : Nat) (lb : Bool) : Word :=
  BitVec.ofNat 32 (if lb then bits ||| 2 ^ (width - 1) else bits)

/-- POP (R131, R132). The result goes to the latch `popped`. -/
def State.pop (width : Nat) (lb : Bool) (s : State) : Micro :=
  if width = 0 then .ok { s with popped := 0#32 }
  else if wMax < width then .raised (.widthOutOfRange width) s
  else if 8 * s.data.dlen - s.rdpos < effWidth width lb then
    .raised (.insufficientData (effWidth width lb - (8 * s.data.dlen - s.rdpos))) s
  else
    match s.data.readBits s.rdpos (effWidth width lb) 0 with
    | none => .stuck (.noSuchByte s.rdpos)
    | some bits =>
      .ok { s with rdpos := s.rdpos + effWidth width lb, popped := popResult bits width lb }

end Sys2Proof.Machine
end

