-- ==== Sys2Proof/Machine/BitReader.lean ====
section
/-! DEFINITION. The bit reader BRD: RINIT, POP (42_bitreader.md). -/

namespace Sys2Proof.Machine

open Sys2Proof

/-- RINIT (R130). -/
def execRinit (s : State) : Host.Outcome State Fault Refusal :=
  .next s.rinit

/-- POP width[, LB] (R131, R132). -/
def execPop (width : Nat) (lb : Bool) (s : State) : Host.Outcome State Fault Refusal :=
  (s.pop width lb).endMicro

end Sys2Proof.Machine
end

