-- ==== Sys2Proof/Machine/BitWidth.lean ====
section
/-! DEFINITION. The bit-width unit LZD: BW (40_bitwidth.md). -/

namespace Sys2Proof.Machine

open Sys2Proof

/-- BW v: W <- bw(v); nothing else changes (R100). -/
def execBw (v : Word) (s : State) : Host.Outcome State Fault Refusal :=
  .next (s.latchWidth v)

/-- lz(v), the leading-zero count behind bw (R101). -/
def leadingZeros (v : Word) : Nat := 32 - bw v

end Sys2Proof.Machine
end

