-- ==== Sys2Proof/Machine/BitWriter.lean ====
section
/-! DEFINITION. The bit writer BWR: WINIT, APPEND, FINISH (41_bitwriter.md). -/

namespace Sys2Proof.Machine

open Sys2Proof

/-- WINIT s (R110). -/
def execWinit (c : Ctx) (s : State) : Host.Outcome State Fault Refusal :=
  .next (s.winit c)

/-- APPEND s, value, width[, LB] (R111, R112). -/
def execAppend (c : Ctx) (value : Word) (width : Byte) (lb : Bool) (s : State) : Host.Outcome State Fault Refusal :=
  (s.append c value width.toNat lb).endMicro

/-- FINISH s (R113). -/
def execFinish (c : Ctx) (s : State) : Host.Outcome State Fault Refusal :=
  (s.finish c).endMicro

end Sys2Proof.Machine
end

