-- ==== Sys2Proof/Machine/Decoder.lean ====
section
/-! DEFINITION. The decoder: DECODE (44_decoder.md), one atomic step (R12, R59) made of the micro-operations in the order
SEQ issues them (R171). -/

namespace Sys2Proof.Machine

open Sys2Proof

/-- DEC_HDR for the fields from index `i` on: L[i] <- POP HW[i] (R171). -/
def State.decodeHeaders : Nat → List Byte → State → Micro
  | _, [], s => .ok s
  | i, h :: rest, s =>
    ((s.atSeq .decHdr i).pop h.toNat false).andThen fun s1 =>
    State.decodeHeaders (i + 1) rest { s1 with l := s1.l ++ [s1.popped] }

/-- DEC_VAL at index `i`, with L[i] = w: no POP when w = 0, else R[i] <- POP w, LB (R171). -/
def State.decodeValue (i : Nat) (w : Word) (s : State) : Micro :=
  if w = 0#32 then .ok { (s.atSeq .decVal i) with r := s.r ++ [0#32] }
  else
    ((s.atSeq .decVal i).pop w.toNat true).andThen fun s1 =>
    .ok { s1 with r := s1.r ++ [s1.popped] }

/-- DEC_VAL for the fields from index `i` on (R171). -/
def State.decodeValues : Nat → List Word → State → Micro
  | _, [], s => .ok s
  | i, w :: rest, s => (s.decodeValue i w).andThen (State.decodeValues (i + 1) rest)

/-- The start of every DECODE: RINIT, with no entry of L or R written yet (R32, R171). -/
def State.decodeInit (s : State) : State := { s.rinit with l := [], r := [] }

/-- DECODE after the last field: VAL <- R, RPOS <- RD.POS (R171). -/
def State.decodeTail (s : State) : Micro := .ok { s with vals := s.r, rpos := s.rdpos }

/-- DECODE (R170, R171). -/
def execDecode (s : State) : Host.Outcome State Fault Refusal :=
  if s.data.dlen = 0 then .next (s.raise .decode .emptyInput)
  else
    (((State.decodeHeaders 0 s.hw s.decodeInit).andThen fun s1 => State.decodeValues 0 s1.l s1).andThen
      State.decodeTail).endCommand .decode

end Sys2Proof.Machine
end

