-- ==== Sys2Proof/Machine/Encoder.lean ====
section
/-! DEFINITION. The encoder: ENCODE and its micro-operation SPLICE (43_encoder.md). ENCODE is one atomic step (R12, R59)
made of the micro-operations in the order SEQ issues them (R151). -/

namespace Sys2Proof.Machine

open Sys2Proof

/-- SPLICE n (R152). -/
def execSplice (n : Nat) (s : State) : Host.Outcome State Fault Refusal :=
  (s.splice n).endMicro

/-- T <- T + n (R30, R151). -/
def State.addTotal (n : Nat) (s : State) : State := { s with t := s.t + n }

/-- The writes of a non-zero field whose width W has been checked: header, value bits, T (R151). -/
def State.encodeNonzero (h : Byte) (v : Word) (s : State) : Micro :=
  (s.append .H (BitVec.ofNat 32 s.w) h.toNat false).andThen fun s1 =>
  (s1.append .V v s1.w true).andThen fun s2 =>
  .ok (s2.addTotal (s2.w - 1))

/-- ENC_FIELD at index `i`, with HW[i] = h and VAL[i] = v (R151, R153). -/
def State.encodeField (i : Nat) (h : Byte) (v : Word) (s : State) : Micro :=
  let s1 := (s.atSeq .encField i).latchWidth v
  if s1.w = 0 then s1.append .H 0#32 h.toNat false
  else if h.toNat < s1.w then .raised (.valueTooWide v h) s1
  else s1.encodeNonzero h v

/-- ENC_FIELD for the fields from index `i` on (R151). -/
def State.encodeFields : Nat → List (Byte × Word) → State → Micro
  | _, [], s => .ok s
  | i, (h, v) :: rest, s => (s.encodeField i h v).andThen (State.encodeFields (i + 1) rest)

/-- The first micro-operations of every ENCODE: WINIT H, WINIT V, T <- 0 (R151). -/
def State.encodeInit (s : State) : State := { (s.winit .H).winit .V with t := 0 }

/-- ENCODE after the last field: FINISH V, SPLICE T, FINISH H, DATA <- H.OUT (R151). -/
def State.encodeTail (s : State) : Micro :=
  ((s.atSeq .encFlushV 0).finish .V).andThen fun s1 =>
  ((s1.atSeq .encSplice 0).splice s1.t).andThen fun s2 =>
  ((s2.atSeq .encFlushH 0).finish .H).andThen fun s3 =>
  .ok { s3 with data := Memory.ofBytes s3.hctx.out }

/-- ENCODE (R150, R151). -/
def execEncode (s : State) : Host.Outcome State Fault Refusal :=
  if s.hw.length ≠ s.vals.length then .next (s.raise .encode .fieldCountMismatch)
  else ((State.encodeFields 0 (s.hw.zip s.vals) s.encodeInit).andThen State.encodeTail).endCommand .encode

end Sys2Proof.Machine
end

