-- ==== Sys2Proof/Machine/HostCommands.lean ====
section
/-! DEFINITION. The host interface HIF: CLR, PUSHHW, PUSHVAL, PUSHB (45_host_commands.md). -/

namespace Sys2Proof.Machine

open Sys2Proof

/-- The lists CLR's mask selects are emptied (R190). -/
def State.clearLists (m : BitVec 4) (s : State) : State :=
  { s with
    hw := if clrHw m then [] else s.hw
    vals := if clrVal m then [] else s.vals
    data := if clrData m then [] else s.data }

/-- CLR m (R190): with the ST bit the status registers are cleared and the status update is not applied. -/
def execClr (m : BitVec 4) (s : State) : Host.Outcome State Fault Refusal :=
  .next (if clrStatus m then (s.clearLists m).clearStatus else (s.clearLists m).complete .clr)

/-- PUSHHW h (R191). -/
def execPushhw (h : Byte) (s : State) : Host.Outcome State Fault Refusal :=
  if s.cfg.maxF = some s.hw.length then .next (s.raise .pushhw .capacityExceeded)
  else .next (State.complete .pushhw { s with hw := s.hw ++ [h] })

/-- PUSHVAL v (R192). -/
def execPushval (v : Word) (s : State) : Host.Outcome State Fault Refusal :=
  if s.cfg.maxF = some s.vals.length then .next (s.raise .pushval .capacityExceeded)
  else .next (State.complete .pushval { s with vals := s.vals ++ [v] })

/-- PUSHB b (R193). -/
def execPushb (b : Byte) (s : State) : Host.Outcome State Fault Refusal :=
  if s.cfg.maxB = some s.data.dlen then .next (s.raise .pushb .capacityExceeded)
  else .next (State.complete .pushb { s with data := s.data.push b })

end Sys2Proof.Machine
end

