-- ==== Sys2Proof/Machine/Dispatch.lean ====
section
/-! DEFINITION. One arm per operation of spec/opcode_table.json. -/

namespace Sys2Proof.Machine

open Sys2Proof

def exec (i : Instr) (s : State) : Host.Outcome State Fault Refusal :=
  match i with
  -- host commands
  | .clr m => Sys2Proof.Machine.execClr m s
  | .pushhw h => Sys2Proof.Machine.execPushhw h s
  | .pushval v => Sys2Proof.Machine.execPushval v s
  | .pushb b => Sys2Proof.Machine.execPushb b s
  | .encode => Sys2Proof.Machine.execEncode s
  | .decode => Sys2Proof.Machine.execDecode s
  -- micro-operations
  | .bw v => Sys2Proof.Machine.execBw v s
  | .winit c => Sys2Proof.Machine.execWinit c s
  | .append c value width lb => Sys2Proof.Machine.execAppend c value width lb s
  | .finish c => Sys2Proof.Machine.execFinish c s
  | .splice n => Sys2Proof.Machine.execSplice n s
  | .rinit => Sys2Proof.Machine.execRinit s
  | .pop width lb => Sys2Proof.Machine.execPop width lb s

end Sys2Proof.Machine
end

