-- ==== Sys2Proof/Machine/Issue.lean ====
section
/-! DEFINITION. The two ports an operation word comes through: the host's (R12, R73, R194) and SEQ's (R74). -/

namespace Sys2Proof.Machine

open Sys2Proof

/-- R194: an illegal host word raises IllegalCommand and does nothing else. -/
def illegalWord (w : OpWord) (s : State) : Host.Outcome State Fault Refusal :=
  .next (s.raise (.illegal (opcField w)) .illegalCommand)

/-- A word the host presents: executed if it is a host command, else illegal (R73, R74). -/
def hostWord (w : OpWord) (s : State) : Host.Outcome State Fault Refusal :=
  match decode w with
  | .ok i => if i.op.isHost then exec i s else illegalWord w s
  | .error _ => illegalWord w s

/-- A word SEQ issues: a micro-operation; SEQ issues no other word (R74). -/
def seqWord (w : OpWord) (s : State) : Host.Outcome State Fault Refusal :=
  match decode w with
  | .ok i => if i.op.isHost then .refused .seqWordNotMicro else exec i s
  | .error _ => .refused .seqWordNotMicro

/-- The input that carries a word to the port whose operations its OPC names: 0x8 to 0xE are SEQ's (R73, R74). -/
def inputOf (w : OpWord) : Input :=
  match opOfOpc (opcField w) with
  | none => .host w
  | some o => if o.isHost then .host w else .seq w

/-- The phase SEQ is in when it issues a micro-operation (R151, R171); the host's words come in IDLE (R33). -/
def issuePhase (i : Instr) : Phase :=
  match i with
  | .clr _ | .pushhw _ | .pushval _ | .pushb _ | .encode | .decode => .idle
  | .winit _ | .rinit => .idle
  | .bw _ | .append _ _ _ _ => .encField
  | .finish .V => .encFlushV
  | .splice _ => .encSplice
  | .finish .H => .encFlushH
  | .pop _ false => .decHdr
  | .pop _ true => .decVal

/-- The state with SEQ in the phase that issues the word; a word that decodes to nothing comes from the host. -/
def State.inIssuePhase (w : OpWord) (s : State) : State :=
  match decode w with
  | .ok i => { s with seq := { s.seq with phase := issuePhase i } }
  | .error _ => s

end Sys2Proof.Machine
end

