-- ==== Sys2Proof/Machine/ReadPort.lean ====
section
/-! DEFINITION. The host read port (R197): a space and an index give one value, with no side effect on GVC. -/

namespace Sys2Proof.Machine

open Sys2Proof

/-- Registers 0 to 8 (R26); none above. -/
def State.register (s : State) (i : Nat) : Option Nat :=
  match i with
  | 0 => some s.status.word.toNat
  | 1 => some s.fval.toNat
  | 2 => some s.fwid.toNat
  | 3 => some s.fbits.toNat
  | 4 => some s.fidx
  | 5 => some s.rpos
  | 6 => some s.hw.length
  | 7 => some s.vals.length
  | 8 => some s.data.dlen
  | _ => none

/-- The value a read returns; none where R197 leaves it unspecified. -/
def State.readValue (sp : Space) (i : Nat) (s : State) : Option Nat :=
  match sp with
  | .registers => s.register i
  | .hw => s.hw[i]?.map BitVec.toNat
  | .vals => s.vals[i]?.map BitVec.toNat
  | .data => (s.data.read i).map BitVec.toNat

/-- A host read: the value joins `answers`, nothing else changes; a read of no entry is refused (R24, R197, U5). -/
def hostRead (sp : Space) (i : Nat) (s : State) : Host.Outcome State Fault Refusal :=
  match s.readValue sp i with
  | some v => .next { s with answers := s.answers ++ [v] }
  | none => .refused .readOfNoEntry

end Sys2Proof.Machine
end

