-- ==== Sys2Proof/Machine/Step.lean ====
section
/-! DEFINITION. One step: the next input is taken and served to its end (R12, R63, R195). -/

namespace Sys2Proof.Machine

open Sys2Proof

/-- One step. With no input to come GVC waits: the state does not change (R240). -/
def step (s : State) : Host.Outcome State Fault Refusal :=
  match s.inputs with
  | [] => .next s
  | .host w :: rest => hostWord w { s with inputs := rest }
  | .seq w :: rest => seqWord w { s with inputs := rest }
  | .read sp i :: rest => hostRead sp i { s with inputs := rest }

/-- The state with an operation word as the very next input, through the port that accepts its operation and with SEQ in
the phase that issues it (notes/assumptions/2.md). -/
def State.withFetchWord (s : State) (nbits w : Nat) : State :=
  State.inIssuePhase (BitVec.ofNat 48 (w % 2 ^ nbits))
    { s with inputs := inputOf (BitVec.ofNat 48 (w % 2 ^ nbits)) :: s.inputs }

end Sys2Proof.Machine
end

