-- ==== Sys2Proof/Machine/Stream.lean ====
section
/-! DEFINITION. The packed stream as a bit string (R76 to R81), in the terms claims use: what ENCODE must produce and what
DECODE must read, written from the wire format and not from the units that do it. -/

namespace Sys2Proof.Machine

open Sys2Proof

/-! ## Bytes and bits (R8, R29) -/

/-- bits(s): the bit string written so far into a context (R29). -/
def Writer.bits (x : Writer) : List Bool := streamBits x.out ++ (byteBits x.p).take x.k

/-- The zero bits after a stream of `n` bits (R79). -/
def padLength (n : Nat) : Nat := (8 - n % 8) % 8

/-- Byte `i` of a bit string, zero bits standing after its end (R8, R79). -/
def byteAt (bits : List Bool) (i : Nat) : Byte :=
  BitVec.ofNat 8 (numberOf ((List.range 8).map fun j => bits[8 * i + j]?.getD false))

/-- A bit string stored in bytes, padded with zero bits to the next byte boundary (R8, R79). -/
def bytesOf (bits : List Bool) : List Byte := (List.range ((bits.length + 7) / 8)).map (byteAt bits)

/-! ## What ENCODE produces (R76 to R79) -/

/-- HDR_i: the bit width of the value in as many bits as the header width says (R77). -/
def headerField (f : Byte × Word) : List Bool := bitsOf (bw f.2) f.1.toNat

/-- VF_i: the value without its leading bit; empty for 0 and 1 (R78). -/
def valueBits (f : Byte × Word) : List Bool := bitsOf f.2.toNat (bw f.2 - 1)

/-- S without its pad: all header fields, then all value fields (R76). -/
def packedBits (hw : List Byte) (vals : List Word) : List Bool :=
  (hw.zip vals).flatMap headerField ++ (hw.zip vals).flatMap valueBits

/-- Field i raises no fault: bw(VAL[i]) <= HW[i] <= 32 (R153, R215, R245). -/
def fieldFits (f : Byte × Word) : Bool := decide (bw f.2 ≤ f.1.toNat) && decide (f.1.toNat ≤ 32)

/-- ENCODE succeeds on these lists: equal lengths, every field fits (R244, R245). -/
def encodable (hw : List Byte) (vals : List Word) : Bool :=
  decide (hw.length = vals.length) && (hw.zip vals).all fieldFits

/-- N: the sum of the header widths and of bw - 1 over the non-zero values (R79, R155). -/
def packedLength (hw : List Byte) (vals : List Word) : Nat :=
  (hw.map BitVec.toNat).sum + ((vals.filter (· ≠ 0#32)).map fun v => bw v - 1).sum

/-! ## What DECODE reads (R81) -/

/-- Where header field i starts: h_0 + ... + h_(i-1) (R81). -/
def headerStart (hw : List Byte) (i : Nat) : Nat := ((hw.take i).map BitVec.toNat).sum

/-- The bit lengths the header fields hold (R171). -/
def lengthsOf (bits : List Bool) (hw : List Byte) : List Nat :=
  (List.range hw.length).map fun i => fieldAt bits (headerStart hw i) (hw[i]?.getD 0#8).toNat

/-- Where value field i starts, `ls` being the bit lengths read (R81). -/
def valueStart (hw : List Byte) (ls : List Nat) (i : Nat) : Nat :=
  headerStart hw hw.length + ((ls.take i).map (· - 1)).sum

/-- The value of a field of bit length `w` whose bits start at `p` (R80). -/
def valueAt (bits : List Bool) (p w : Nat) : Nat := if w = 0 then 0 else 2 ^ (w - 1) + fieldAt bits p (w - 1)

/-- The values DECODE yields (R80, R81, R171). -/
def valuesOf (bits : List Bool) (hw : List Byte) : List Word :=
  let ls := lengthsOf bits hw
  (List.range hw.length).map fun i => BitVec.ofNat 32 (valueAt bits (valueStart hw ls i) (ls[i]?.getD 0))

/-- Where the reader stands after the last field (R171, R173). -/
def decodedEnd (bits : List Bool) (hw : List Byte) : Nat := valueStart hw (lengthsOf bits hw) hw.length

/-- Every header is at most 32 bits and there, and every value is at most 32 bits and there (R171). -/
def decodable (bits : List Bool) (hw : List Byte) : Bool :=
  hw.all (fun h => decide (h.toNat ≤ 32)) && decide (headerStart hw hw.length ≤ bits.length) &&
    (lengthsOf bits hw).all (fun w => decide (w ≤ 32)) && decide (decodedEnd bits hw ≤ bits.length)

end Sys2Proof.Machine
end

