-- ==== Sys2Proof/Safety.lean ====
section
/-! DEFINITION. The terms claims are stated in: which parts of the state two states share, what a status update leaves, and
the invariant every step keeps. -/

namespace Sys2Proof.Machine

open Sys2Proof

/-! ## Frames -/

/-- The parameters and the model's own input and answer lists are the same. -/
def SameModelParts (s t : State) : Prop := t.cfg = s.cfg ∧ t.inputs = s.inputs ∧ t.answers = s.answers

/-- The three operand lists are the same (R20). -/
def SameLists (s t : State) : Prop := t.hw = s.hw ∧ t.vals = s.vals ∧ t.data = s.data

/-- The status and fault registers 0 to 5 are the same (R26). -/
def SameStatus (s t : State) : Prop :=
  t.status = s.status ∧ t.fval = s.fval ∧ t.fwid = s.fwid ∧ t.fbits = s.fbits ∧ t.fidx = s.fidx ∧ t.rpos = s.rpos

/-- The working state but SEQ is the same (R28 to R34). -/
def SameWorking (s t : State) : Prop :=
  t.hctx = s.hctx ∧ t.vctx = s.vctx ∧ t.t = s.t ∧ t.rdpos = s.rdpos ∧ t.popped = s.popped ∧ t.l = s.l ∧ t.r = s.r ∧
    t.w = s.w

/-- Everything the host can read and all that is carried from command to command is the same (R26, R35). -/
def SameInterface (s t : State) : Prop := SameLists s t ∧ SameStatus s t ∧ SameModelParts s t

/-- The registers after a command with this OPC that completed (R198); RPOS is not said. -/
def StatusIsOk (opc : BitVec 4) (s t : State) : Prop :=
  t.status = { state := .ok, fseen := s.status.fseen, lastop := opc, fcode := none } ∧
    t.fval = 0#32 ∧ t.fwid = 0#8 ∧ t.fbits = 0#6 ∧ t.fidx = 0

/-- The registers after a command with this OPC that raised (R198); RPOS is not said. -/
def StatusIsFault (opc : BitVec 4) (k : FaultKind) (fval : Word) (fwid : Byte) (fbits fidx : Nat) (t : State) : Prop :=
  t.status = { state := .fault, fseen := true, lastop := opc, fcode := some k } ∧
    t.fval = fval ∧ t.fwid = fwid ∧ t.fbits.toNat = fbits ∧ t.fidx = fidx

/-- The state after the host has presented these words, one after the other, each a legal command or not (R12, R63). -/
def State.afterWords : List OpWord → State → Option State
  | [], s => some s
  | w :: ws, s =>
    match hostWord w s with
    | .next t => State.afterWords ws t
    | .fault _ => none
    | .refused _ => none

/-! ## The invariant -/

/-- R29: K is in 0..7 and the unoccupied bits P[7-K:0] are 0. -/
def Writer.Inv (x : Writer) : Prop := x.k < 8 ∧ ∀ j, j < 8 - x.k → x.p.getLsbD j = false

/-- The streams are within their capacities: H.OUT within MAXB, V.OUT within VCAP (R28). The host commands keep it; an
APPEND issued outside a call has no capacity test to keep it by (R111). -/
structure State.StreamsFit (s : State) : Prop where
  /-- H.OUT has at most MAXB bytes. -/
  hFits : Config.admits s.cfg.maxB s.hctx.out.length = true
  /-- V.OUT has at most VCAP bytes. -/
  vFits : Config.admits s.cfg.vCap s.vctx.out.length = true

/-- The fault kinds that record a value and a header width (R212, R215). -/
def FaultKind.recordsWidth (k : FaultKind) : Bool :=
  match k with
  | .valueTooWide | .widthOutOfRange => true
  | .fieldCountMismatch | .insufficientData | .emptyInput | .illegalCommand | .capacityExceeded => false

/-- The fault kinds that record a field index (R212, R213, R215). -/
def FaultKind.recordsField (k : FaultKind) : Bool :=
  match k with
  | .valueTooWide | .widthOutOfRange | .insufficientData => true
  | .fieldCountMismatch | .emptyInput | .illegalCommand | .capacityExceeded => false

/-- What R26, R198 and R210 say of the status and fault registers between commands. -/
structure State.StatusInv (s : State) : Prop where
  /-- FCODE is 0 exactly when the most recent command did not fault. -/
  fcodeOfFault : s.status.state = .fault ↔ s.status.fcode.isSome = true
  /-- FSEEN is set by every fault. -/
  fseenOfFault : s.status.state = .fault → s.status.fseen = true
  /-- STATE is IDLE only since reset or CLR with the ST bit: every register reads 0. -/
  idleIsZero : s.status.state = .idle → s.status = Status.zero ∧ s.rpos = 0
  /-- FVAL and FWID are 0 unless a fault that records them. -/
  noWidth : (s.status.fcode.any FaultKind.recordsWidth) = false → s.fval = 0#32 ∧ s.fwid = 0#8
  /-- FIDX is 0 unless a fault that records it. -/
  noField : (s.status.fcode.any FaultKind.recordsField) = false → s.fidx = 0
  /-- FBITS is 1..32 for InsufficientData and 0 otherwise. -/
  bitsShort : if s.status.fcode = some .insufficientData then 1 ≤ s.fbits.toNat ∧ s.fbits.toNat ≤ 32 else s.fbits = 0#6

/-- The invariant of GVC between inputs. -/
structure State.Inv (s : State) : Prop where
  /-- MAXB >= ceil(63 * MAXF / 8) (R5). -/
  cfgWf : s.cfg.wf = true
  /-- DATA's indices are 0 .. DLEN - 1 (R9, R24). -/
  dataWf : s.data.wf = true
  /-- NHW <= MAXF (R21). -/
  hwFits : Config.admits s.cfg.maxF s.hw.length = true
  /-- NVAL <= MAXF (R22). -/
  valsFit : Config.admits s.cfg.maxF s.vals.length = true
  /-- DLEN <= MAXB (R23). -/
  dataFits : Config.admits s.cfg.maxB s.data.dlen = true
  /-- FIDX is at most MAXF - 1 (R26). -/
  fidxFits : s.fidx = 0 ∨ Config.admits s.cfg.maxF (s.fidx + 1) = true
  /-- RPOS is at most 8 * MAXB (R26). -/
  rposFits : Config.admits s.cfg.maxB ((s.rpos + 7) / 8) = true
  /-- SEQ is IDLE between commands (R33). -/
  seqIdle : s.seq.phase = .idle
  /-- IDX is at most MAXF (R33). -/
  idxFits : Config.admits s.cfg.maxF s.seq.idx = true
  /-- The writer invariant holds of H (R29). -/
  hInv : s.hctx.Inv
  /-- The writer invariant holds of V (R29). -/
  vInv : s.vctx.Inv
  /-- T is at most 31 * MAXF (R30). -/
  tFits : ∀ f, s.cfg.maxF = some f → s.t ≤ 31 * f
  /-- L has at most MAXF entries (R32). -/
  lFits : Config.admits s.cfg.maxF s.l.length = true
  /-- R has at most MAXF entries (R171). -/
  rFits : Config.admits s.cfg.maxF s.r.length = true
  /-- W is in 0..32 (R34). -/
  wFits : s.w ≤ 32
  /-- The status and fault registers are as R26 and R198 say. -/
  statusInv : s.StatusInv

end Sys2Proof.Machine
end

