-- ==== Sys2Proof/Certificates/Slice0/Obligations.lean ====
section
/-! DEFINITION. The statements for the provers. Each says which rules of spec/ it formalises or rests on. `exec` and `step`
are the machine; `Sys2Proof/Machine/Stream.lean` holds the wire format and `Sys2Proof/Safety.lean` the frames and the
invariant. A statement that rests on a choice of the model names the log entry. -/

open Sys2Proof Sys2Proof.Machine

/-! ## The operation word -/

/-- R70, R71, R75: the word of a well-formed instruction decodes to it, with every operand at every value its field
admits. (Well-formed: SPLICE's n and POP's width fit their fields, R71, R131.) -/
def Obligations.EncodedInstructionDecodesBack : Prop :=
  ∀ i : Instr, i.wellFormed = true → decode (encode i) = .ok i

/-- R72, R73: decoding is strict: a word that decodes is the one encoding of what it decodes to. -/
def Obligations.DecodedWordIsItsOnlyEncoding : Prop :=
  ∀ (w : OpWord) (i : Instr), decode w = .ok i → i.wellFormed = true ∧ encode i = w

/-- R72: the decoder reads an operation exactly from the words of its `match` and `mask`; the patterns are disjoint. -/
def Obligations.DecoderFollowsTheOpcodeTable : Prop :=
  (∀ row ∈ [(Op.clr, 0x100000000000#48, 0xFFF0FFFFFFFF#48), (Op.pushhw, 0x200000000000#48, 0xFF00FFFFFFFF#48),
      (Op.pushval, 0x300000000000#48, 0xFFFF00000000#48), (Op.pushb, 0x400000000000#48, 0xFFFFFFFFFF00#48),
      (Op.encode, 0x500000000000#48, 0xFFFFFFFFFFFF#48), (Op.decode, 0x600000000000#48, 0xFFFFFFFFFFFF#48),
      (Op.bw, 0x800000000000#48, 0xFFFF00000000#48), (Op.winit, 0x900000000000#48, 0xFBFFFFFFFFFF#48),
      (Op.append, 0xA00000000000#48, 0xF30000000000#48), (Op.finish, 0xB00000000000#48, 0xFBFFFFFFFFFF#48),
      (Op.splice, 0xC00000000000#48, 0xFFFF00000000#48), (Op.rinit, 0xD00000000000#48, 0xFFFFFFFFFFFF#48),
      (Op.pop, 0xE00000000000#48, 0xF700FFFFFFFF#48)],
    ∀ w : OpWord, (∃ i, decode w = .ok i ∧ i.op = row.1) ↔ w &&& row.2.2 = row.2.1) ∧
  ∀ (w : OpWord) (o o' : Op), w &&& o.mask = o.pattern → w &&& o'.mask = o'.pattern → o = o'

/-- 95_test_vectors.md 2.7 and part 3: one word of each operation, written out, decodes to the instruction the spec names. -/
def Obligations.WordsOfTheSpecDecode : Prop :=
  decode 0x100F00000000#48 = .ok (.clr 0xF#4) ∧ decode 0x20FF00000000#48 = .ok (.pushhw 255#8) ∧
  decode 0x3000FFFFFFFF#48 = .ok (.pushval 0xFFFFFFFF#32) ∧ decode 0x4000000000FF#48 = .ok (.pushb 0xFF#8) ∧
  decode 0x500000000000#48 = .ok .encode ∧ decode 0x600000000000#48 = .ok .decode ∧
  decode 0x8000FFFFFFFF#48 = .ok (.bw 0xFFFFFFFF#32) ∧ decode 0x940000000000#48 = .ok (.winit .V) ∧
  decode 0xAC0500000013#48 = .ok (.append .V 0x13#32 5#8 true) ∧ decode 0xB40000000000#48 = .ok (.finish .V) ∧
  decode 0xC0000000001F#48 = .ok (.splice 31) ∧ decode 0xD00000000000#48 = .ok .rinit ∧
  decode 0xE80300000000#48 = .ok (.pop 3 true)

/-! ## One step -/

/-- R12, R63: a legal word the host presents is executed, after it has left the input list (the list: log entry 2). -/
def Obligations.StepRunsThePresentedCommand : Prop :=
  ∀ (s : State) (w : OpWord) (rest : List Input) (i : Instr), s.inputs = .host w :: rest → decode w = .ok i →
    i.op.isHost = true → step s = exec i { s with inputs := rest }

/-- R74: a micro-operation word SEQ issues is executed, after it has left the input list (the list: log entry 2). -/
def Obligations.StepRunsTheIssuedMicroOperation : Prop :=
  ∀ (s : State) (w : OpWord) (rest : List Input) (i : Instr), s.inputs = .seq w :: rest → decode w = .ok i →
    i.op.isHost = false → step s = exec i { s with inputs := rest }

/-- R240: with no word presented GVC waits, and nothing changes (the empty input list: log entry 2). -/
def Obligations.StepWaitsForTheHost : Prop := ∀ s : State, s.inputs = [] → step s = .next s

/-- R194, R216, R219: a host word that matches no host command's pattern raises IllegalCommand, which records the fault and
puts SEQ at (IDLE, 0) (R219 step 1), and does nothing else: no list, no register but STATUS and the fault registers, no
other working state changes. The second clause is R194's list of examples. -/
def Obligations.IllegalHostWordOnlyRecordsTheFault : Prop :=
  (∀ (s : State) (w : OpWord) (rest : List Input), s.inputs = .host w :: rest →
    (∀ o : Op, o.isHost = true → w &&& o.mask ≠ o.pattern) →
    ∃ t, step s = .next t ∧ SameLists s t ∧ SameWorking s t ∧ t.seq = { phase := .idle, idx := 0 } ∧ t.rpos = s.rpos ∧
      StatusIsFault (w.extractLsb' 44 4) .illegalCommand 0#32 0#8 0 0 t ∧
      SameModelParts { s with inputs := rest } t) ∧
  ∀ w ∈ [0x000000000000#48, 0x700000000000#48, 0xF00000000000#48, 0xA00200000002#48, 0x500000000001#48,
    0x400000000100#48, 0x210200000000#48], ∀ o : Op, o.isHost = true → w &&& o.mask ≠ o.pattern

/-- R218: a legal word cannot raise IllegalCommand. -/
def Obligations.LegalWordNeverRaisesIllegalCommand : Prop :=
  ∀ (s : State) (i : Instr), i.op.isHost = true → s.data.wf = true →
    ∃ t, exec i s = .next t ∧ t.status.fcode ≠ some .illegalCommand

/-- R195, R33: every host command ends, from every state whose DATA is in canonical form, with SEQ in IDLE as before. -/
def Obligations.EveryHostCommandEnds : Prop :=
  ∀ (s : State) (i : Instr), i.op.isHost = true → s.data.wf = true →
    ∃ t, exec i s = .next t ∧ t.data.wf = true ∧ (s.seq.phase = .idle → t.seq.phase = .idle)

/-! ## Reset and the invariant -/

/-- R36: after reset the lists are empty, every register reads 0 and SEQ is (IDLE, 0). -/
def Obligations.ResetLeavesEverythingZero : Prop :=
  State.reset.hw = [] ∧ State.reset.vals = [] ∧ State.reset.data = [] ∧
    (∀ i, i ≤ 8 → State.reset.register i = some 0) ∧ State.reset.seq = { phase := .idle, idx := 0 }

/-- R5, R21 to R34: the invariant holds at reset, and the streams are within their capacities (the working state's reset
values: log entry 3; the unbounded capacities: log entry 1). -/
def Obligations.ResetMeetsTheInvariant : Prop := State.reset.Inv ∧ State.reset.StreamsFit

/-- R5, R21 to R34, R198: every step keeps the invariant: the capacities hold, DATA is canonical, SEQ is IDLE, the writer
invariant of R29, the ranges of T, W, L, and what R26 says of the status and fault registers. -/
def Obligations.EveryStepKeepsTheInvariant : Prop :=
  ∀ s t : State, s.Inv → step s = .next t → t.Inv

/-! ## CLR and the PUSH commands -/

/-- R190: CLR empties the lists its mask selects; with the ST bit every status register is 0, without it the ordinary
update is recorded; nothing else changes. -/
def Obligations.ClrEmptiesWhatItsMaskSelects : Prop :=
  (∀ (s : State) (m : BitVec 4), ∃ t, exec (.clr m) s = .next t ∧
    t.hw = (if m.getLsbD 0 then [] else s.hw) ∧ t.vals = (if m.getLsbD 1 then [] else s.vals) ∧
    t.data = (if m.getLsbD 2 then [] else s.data) ∧
    (m.getLsbD 3 = true → t.status.word = 0#32 ∧ t.fval = 0#32 ∧ t.fwid = 0#8 ∧ t.fbits = 0#6 ∧ t.fidx = 0 ∧ t.rpos = 0) ∧
    (m.getLsbD 3 = false → StatusIsOk 0x1#4 s t ∧ t.rpos = s.rpos) ∧
    SameWorking s t ∧ t.seq = s.seq ∧ SameModelParts s t) ∧
  (∀ w : OpWord, w &&& 0xFFF0FFFFFFFF#48 = 0x100000000000#48 → decode w = .ok (.clr (w.extractLsb' 32 4))) ∧
  encode (.clr 0xF#4) = 0x100F00000000#48

/-- R240: CLR 0xF reaches, from every state, what the host reads after reset. -/
def Obligations.ClrAllReadsLikeReset : Prop :=
  ∀ s : State, ∃ t, exec (.clr 0xF#4) s = .next t ∧ SameLists State.reset t ∧ SameStatus State.reset t ∧
    SameModelParts s t

/-- R191: PUSHHW appends its width, whatever it is, or faults CapacityExceeded with HW unchanged. -/
def Obligations.PushhwAppendsOrFaults : Prop :=
  (∀ (s : State) (h : Byte), s.cfg.maxF ≠ some s.hw.length →
    ∃ t, exec (.pushhw h) s = .next t ∧ t.hw = s.hw ++ [h] ∧ t.vals = s.vals ∧ t.data = s.data ∧
      StatusIsOk 0x2#4 s t ∧ t.rpos = s.rpos ∧ SameWorking s t ∧ t.seq = s.seq ∧ SameModelParts s t) ∧
  (∀ (s : State) (h : Byte), s.cfg.maxF = some s.hw.length →
    ∃ t, exec (.pushhw h) s = .next t ∧ SameLists s t ∧
      StatusIsFault 0x2#4 .capacityExceeded 0#32 0#8 0 0 t ∧ t.rpos = s.rpos ∧ SameModelParts s t) ∧
  (∀ w : OpWord, w &&& 0xFF00FFFFFFFF#48 = 0x200000000000#48 → decode w = .ok (.pushhw (w.extractLsb' 32 8))) ∧
  encode (.pushhw 32#8) = 0x202000000000#48

/-- R192: PUSHVAL appends its value or faults CapacityExceeded with VAL unchanged. -/
def Obligations.PushvalAppendsOrFaults : Prop :=
  (∀ (s : State) (v : Word), s.cfg.maxF ≠ some s.vals.length →
    ∃ t, exec (.pushval v) s = .next t ∧ t.vals = s.vals ++ [v] ∧ t.hw = s.hw ∧ t.data = s.data ∧
      StatusIsOk 0x3#4 s t ∧ t.rpos = s.rpos ∧ SameWorking s t ∧ t.seq = s.seq ∧ SameModelParts s t) ∧
  (∀ (s : State) (v : Word), s.cfg.maxF = some s.vals.length →
    ∃ t, exec (.pushval v) s = .next t ∧ SameLists s t ∧
      StatusIsFault 0x3#4 .capacityExceeded 0#32 0#8 0 0 t ∧ t.rpos = s.rpos ∧ SameModelParts s t) ∧
  (∀ w : OpWord, w &&& 0xFFFF00000000#48 = 0x300000000000#48 → decode w = .ok (.pushval (w.extractLsb' 0 32))) ∧
  encode (.pushval 0xFFFFFFFF#32) = 0x3000FFFFFFFF#48

/-- R193: PUSHB writes its byte at index DLEN and no other byte of DATA, or faults CapacityExceeded with DATA
unchanged. -/
def Obligations.PushbWritesOneByteOrFaults : Prop :=
  (∀ (s : State) (b : Byte), s.data.wf = true → s.cfg.maxB ≠ some s.data.dlen →
    ∃ t, exec (.pushb b) s = .next t ∧ t.data.dlen = s.data.dlen + 1 ∧ t.data.bytes = s.data.bytes ++ [b] ∧
      t.data.read s.data.dlen = some b ∧ (∀ a, a ≠ s.data.dlen → t.data.read a = s.data.read a) ∧
      t.hw = s.hw ∧ t.vals = s.vals ∧
      StatusIsOk 0x4#4 s t ∧ t.rpos = s.rpos ∧ SameWorking s t ∧ t.seq = s.seq ∧ SameModelParts s t) ∧
  (∀ (s : State) (b : Byte), s.cfg.maxB = some s.data.dlen →
    ∃ t, exec (.pushb b) s = .next t ∧ SameLists s t ∧
      StatusIsFault 0x4#4 .capacityExceeded 0#32 0#8 0 0 t ∧ t.rpos = s.rpos ∧ SameModelParts s t) ∧
  (∀ w : OpWord, w &&& 0xFFFFFFFFFF00#48 = 0x400000000000#48 → decode w = .ok (.pushb (w.extractLsb' 0 8))) ∧
  encode (.pushb 0xA0#8) = 0x4000000000A0#48

/-! ## ENCODE -/

/-- R211: ENCODE on lists of different lengths faults FieldCountMismatch, whatever the entries are; NHW and NVAL stay. -/
def Obligations.EncodeOfUnequalListsFaults : Prop :=
  ∀ s : State, s.hw.length ≠ s.vals.length →
    ∃ t, exec .encode s = .next t ∧ StatusIsFault 0x5#4 .fieldCountMismatch 0#32 0#8 0 0 t ∧
      t.data = [] ∧ t.hw = s.hw ∧ t.vals = s.vals ∧ t.rpos = s.rpos ∧ SameModelParts s t

/-- R76 to R79, R151, R154: on lists it can encode, ENCODE leaves in DATA the packed stream, stored most-significant bit
first and padded with zero bits; HW, VAL, RPOS and (R134) the reader's state are unchanged. -/
def Obligations.EncodeProducesThePackedStream : Prop :=
  ∀ s : State, encodable s.hw s.vals = true →
    ∃ t, exec .encode s = .next t ∧ t.data = Memory.ofBytes (bytesOf (packedBits s.hw s.vals)) ∧
      (∀ p, p < (packedBits s.hw s.vals).length → t.data.bit p = (packedBits s.hw s.vals)[p]?) ∧
      (∀ p, (packedBits s.hw s.vals).length ≤ p → p < 8 * t.data.dlen → t.data.bit p = some false) ∧
      t.hw = s.hw ∧ t.vals = s.vals ∧ StatusIsOk 0x5#4 s t ∧ t.rpos = s.rpos ∧
      t.rdpos = s.rdpos ∧ t.popped = s.popped ∧ t.l = s.l ∧ t.r = s.r ∧ SameModelParts s t

/-- R153, R212, R215, R218: the lowest field that does not fit is the one reported: ValueTooWide when its value is not 0
and needs more bits than its header width, else WidthOutOfRange; DATA is emptied, HW and VAL stay. -/
def Obligations.EncodeReportsTheFirstUnfitField : Prop :=
  ∀ (s : State) (pre post : List (Byte × Word)) (h : Byte) (v : Word), s.hw.length = s.vals.length →
    s.hw.zip s.vals = pre ++ (h, v) :: post → (∀ f ∈ pre, bw f.2 ≤ f.1.toNat ∧ f.1.toNat ≤ 32) →
    ((v ≠ 0#32 ∧ h.toNat < bw v) → ∃ t, exec .encode s = .next t ∧
      StatusIsFault 0x5#4 .valueTooWide v h 0 pre.length t ∧
      t.data = [] ∧ t.hw = s.hw ∧ t.vals = s.vals ∧ t.rpos = s.rpos ∧ SameModelParts s t) ∧
    (32 < h.toNat → ∃ t, exec .encode s = .next t ∧
      StatusIsFault 0x5#4 .widthOutOfRange (BitVec.ofNat 32 h.toNat) h 0 pre.length t ∧
      t.data = [] ∧ t.hw = s.hw ∧ t.vals = s.vals ∧ t.rpos = s.rpos ∧ SameModelParts s t)

/-- R155: after a successful ENCODE DLEN = ceil(N / 8), N is at most 63 per field, which keeps DLEN within MAXB; N = 0 and
DATA is empty when there are no fields or every width is 0, every value being 0 then; an empty DATA cannot be decoded. -/
def Obligations.EncodedLengthIsTheSumOfItsFields : Prop :=
  ∀ s : State, encodable s.hw s.vals = true →
    ∃ t, exec .encode s = .next t ∧ t.data.dlen = (packedLength s.hw s.vals + 7) / 8 ∧
      packedLength s.hw s.vals ≤ 63 * s.hw.length ∧
      (s.cfg.wf = true → Config.admits s.cfg.maxF s.hw.length = true → Config.admits s.cfg.maxB t.data.dlen = true) ∧
      ((∀ h ∈ s.hw, h = 0#8) ↔ packedLength s.hw s.vals = 0) ∧
      ((∀ h ∈ s.hw, h = 0#8) → (∀ v ∈ s.vals, v = 0#32) ∧ t.data = [] ∧
        ∃ u, exec .decode t = .next u ∧ u.status.state = .fault ∧ u.status.fcode = some .emptyInput)

/-- R156: all-zero values of widths up to 32 encode to ceil(sum / 8) zero bytes, with T = 0 after the last field; with a
width above 32 ENCODE faults WidthOutOfRange instead. -/
def Obligations.ZeroValuesEncodeToZeroBytes : Prop :=
  ∀ s : State, s.hw.length = s.vals.length → (∀ v ∈ s.vals, v = 0#32) →
    ((∀ h ∈ s.hw, h.toNat ≤ 32) → ∃ t, exec .encode s = .next t ∧ t.status.state = .ok ∧
      t.data.bytes = List.replicate (((s.hw.map BitVec.toNat).sum + 7) / 8) 0#8 ∧
      ∃ u, State.encodeFields 0 (s.hw.zip s.vals) s.encodeInit = .ok u ∧ u.t = 0) ∧
    ((∃ h ∈ s.hw, 32 < h.toNat) → ∃ t, exec .encode s = .next t ∧ t.status.fcode = some .widthOutOfRange ∧ t.data = [])

/-- R157, R196: ENCODE reads HW and VAL only: from any two states with equal HW and VAL it leaves equal DATA and equal
status and fault registers; FSEEN alone also depends on what it was. -/
def Obligations.EncodeIsAFunctionOfItsLists : Prop :=
  ∀ s s' : State, s'.hw = s.hw → s'.vals = s.vals →
    ∃ t t', exec .encode s = .next t ∧ exec .encode s' = .next t' ∧ t'.data = t.data ∧
      t'.status.state = t.status.state ∧ t'.status.lastop = t.status.lastop ∧ t'.status.fcode = t.status.fcode ∧
      t'.fval = t.fval ∧ t'.fwid = t.fwid ∧ t'.fbits = t.fbits ∧ t'.fidx = t.fidx ∧
      t.status.fseen = (s.status.fseen || t.status.fcode.isSome) ∧
      t'.status.fseen = (s'.status.fseen || t'.status.fcode.isSome)

/-! ## DECODE -/

/-- R170, R214: DECODE of an empty DATA faults EmptyInput, whatever HW is; RPOS = 0, VAL is emptied. -/
def Obligations.DecodeOfEmptyDataFaults : Prop :=
  ∀ s : State, s.data = [] →
    ∃ t, exec .decode s = .next t ∧ StatusIsFault 0x6#4 .emptyInput 0#32 0#8 0 0 t ∧
      t.vals = [] ∧ t.rpos = 0 ∧ t.hw = s.hw ∧ t.data = s.data ∧ SameModelParts s t

/-- R80, R81, R171: when every header and every value is there and at most 32 bits, DECODE leaves the values the stream
holds in VAL and the reader's position in RPOS; HW, DATA and (R115) the writer's state are unchanged. -/
def Obligations.DecodeReadsTheStream : Prop :=
  ∀ s : State, s.data.wf = true → s.data.dlen ≠ 0 → decodable (streamBits s.data.bytes) s.hw = true →
    ∃ t, exec .decode s = .next t ∧ t.vals = valuesOf (streamBits s.data.bytes) s.hw ∧
      t.rpos = decodedEnd (streamBits s.data.bytes) s.hw ∧ StatusIsOk 0x6#4 s t ∧
      t.hw = s.hw ∧ t.data = s.data ∧ (∀ a, t.data.read a = s.data.read a) ∧
      t.hctx = s.hctx ∧ t.vctx = s.vctx ∧ t.t = s.t ∧ t.w = s.w ∧ SameModelParts s t

/-- R132, R213, R215, R218, R219: the first header field that is wider than 32 bits or runs past the end of DATA ends
DECODE: WidthOutOfRange before InsufficientData, RPOS before the failing field, VAL emptied. -/
def Obligations.DecodeReportsTheFirstHeaderFault : Prop :=
  ∀ (s : State) (pre post : List Byte) (h : Byte) (p : Nat), s.data.wf = true → s.data.dlen ≠ 0 →
    s.hw = pre ++ h :: post → (∀ x ∈ pre, x.toNat ≤ 32) → p = (pre.map BitVec.toNat).sum → p ≤ 8 * s.data.dlen →
    (32 < h.toNat → ∃ t, exec .decode s = .next t ∧
      StatusIsFault 0x6#4 .widthOutOfRange (BitVec.ofNat 32 h.toNat) h 0 pre.length t ∧
      t.vals = [] ∧ t.rpos = p ∧ t.hw = s.hw ∧ t.data = s.data ∧ SameModelParts s t) ∧
    ((h.toNat ≤ 32 ∧ 8 * s.data.dlen < p + h.toNat) → ∃ t, exec .decode s = .next t ∧
      StatusIsFault 0x6#4 .insufficientData 0#32 0#8 (p + h.toNat - 8 * s.data.dlen) pre.length t ∧
      t.vals = [] ∧ t.rpos = p ∧ t.hw = s.hw ∧ t.data = s.data ∧ SameModelParts s t)

/-- R132, R213, R215, R218, R219: when every header field is there, the first value field whose bit length is above 32 or
whose bits run past the end of DATA ends DECODE; FVAL holds the bit length, FWID the header width. -/
def Obligations.DecodeReportsTheFirstValueFault : Prop :=
  ∀ (s : State) (pre post : List Nat) (w p : Nat), s.data.wf = true → s.data.dlen ≠ 0 →
    (∀ h ∈ s.hw, h.toNat ≤ 32) → headerStart s.hw s.hw.length ≤ 8 * s.data.dlen →
    lengthsOf (streamBits s.data.bytes) s.hw = pre ++ w :: post → (∀ x ∈ pre, x ≤ 32) →
    p = valueStart s.hw (pre ++ w :: post) pre.length → p ≤ 8 * s.data.dlen →
    (32 < w → ∃ t, exec .decode s = .next t ∧
      StatusIsFault 0x6#4 .widthOutOfRange (BitVec.ofNat 32 w) (s.hw[pre.length]?.getD 0#8) 0 pre.length t ∧
      t.fval.toNat = w ∧ t.vals = [] ∧ t.rpos = p ∧ t.hw = s.hw ∧ t.data = s.data ∧ SameModelParts s t) ∧
    ((w ≤ 32 ∧ 8 * s.data.dlen < p + (w - 1)) → ∃ t, exec .decode s = .next t ∧
      StatusIsFault 0x6#4 .insufficientData 0#32 0#8 (p + (w - 1) - 8 * s.data.dlen) pre.length t ∧
      t.vals = [] ∧ t.rpos = p ∧ t.hw = s.hw ∧ t.data = s.data ∧ SameModelParts s t)

/-- R172 (a), (b): the bits of DATA from RPOS on are never read: another DATA that agrees with this one up to there, longer
or not, with whatever pad, decodes to the same values and the same RPOS. -/
def Obligations.DecodeIgnoresWhatFollowsTheLastField : Prop :=
  ∀ s s' : State, s.data.wf = true → s'.data.wf = true → s.data.dlen ≠ 0 → s'.data.dlen ≠ 0 → s'.hw = s.hw →
    decodable (streamBits s.data.bytes) s.hw = true →
    decodedEnd (streamBits s.data.bytes) s.hw ≤ 8 * s'.data.dlen →
    (streamBits s'.data.bytes).take (decodedEnd (streamBits s.data.bytes) s.hw) =
      (streamBits s.data.bytes).take (decodedEnd (streamBits s.data.bytes) s.hw) →
    ∃ t t', exec .decode s = .next t ∧ exec .decode s' = .next t' ∧ t.status.state = .ok ∧ t'.status.state = .ok ∧
      t'.vals = t.vals ∧ t'.rpos = t.rpos

/-- R174, R196: DECODE reads HW and DATA only: from any two states with equal HW and DATA it leaves equal VAL, RPOS and
status and fault registers; FSEEN alone also depends on what it was. -/
def Obligations.DecodeIsAFunctionOfItsLists : Prop :=
  ∀ s s' : State, s.data.wf = true → s'.hw = s.hw → s'.data = s.data →
    ∃ t t', exec .decode s = .next t ∧ exec .decode s' = .next t' ∧ t'.vals = t.vals ∧ t'.rpos = t.rpos ∧
      t'.status.state = t.status.state ∧ t'.status.lastop = t.status.lastop ∧ t'.status.fcode = t.status.fcode ∧
      t'.fval = t.fval ∧ t'.fwid = t.fwid ∧ t'.fbits = t.fbits ∧ t'.fidx = t.fidx ∧
      t.status.fseen = (s.status.fseen || t.status.fcode.isSome) ∧
      t'.status.fseen = (s'.status.fseen || t'.status.fcode.isSome)

/-- R173: the round trip. With every bw(VAL[i]) <= HW[i] <= 32 and the widths summing to at least 1, ENCODE succeeds with
DLEN >= 1, and every DECODE with the same HW on that DATA succeeds with the same VAL, RPOS = N and fewer than 8 bits
left. -/
def Obligations.DecodeInvertsEncode : Prop :=
  ∀ s : State, encodable s.hw s.vals = true → 1 ≤ (s.hw.map BitVec.toNat).sum →
    ∃ t, exec .encode s = .next t ∧ t.status.state = .ok ∧ 1 ≤ t.data.dlen ∧
      ∀ s' : State, s'.hw = s.hw → s'.data = t.data →
        ∃ u, exec .decode s' = .next u ∧ u.status.state = .ok ∧ u.vals = s.vals ∧
          u.rpos = packedLength s.hw s.vals ∧ u.rpos ≤ 8 * u.data.dlen ∧ 8 * u.data.dlen - u.rpos ≤ 7

/-! ## LZD -/

/-- R100: BW latches bw(v), 0 for 0 and else one plus the position of the highest set bit, and changes nothing else; it is no
host command. -/
def Obligations.BwLatchesTheBitWidth : Prop :=
  (∀ (s : State) (v : Word), ∃ k : Nat, exec (.bw v) s = .next { s with w := k } ∧ (v = 0#32 → k = 0) ∧
    (v ≠ 0#32 → ∃ j, v.getLsbD j = true ∧ (∀ i, j < i → v.getLsbD i = false) ∧ k = 1 + j) ∧ k ≤ 32) ∧
  (∀ w : OpWord, w &&& 0xFFFF00000000#48 = 0x800000000000#48 → decode w = .ok (.bw (w.extractLsb' 0 32))) ∧
  (∀ v : Word, (Instr.bw v).op.isHost = false) ∧
  encode (.bw 0x20#32) = 0x800000000020#48 ∧ bw 0x20#32 = 6 ∧ bw 1#32 = 1 ∧ bw 0xFFFFFFFF#32 = 32 ∧
  bw 0x80000000#32 = 32

/-- R102: the laws (a) to (f) of bw. -/
def Obligations.BitWidthLaws : Prop :=
  ∀ v : Word, bw v ≤ 32 ∧ (bw v = 0 ↔ v = 0#32) ∧
    (v ≠ 0#32 → 2 ^ (bw v - 1) ≤ v.toNat ∧ v.toNat < 2 ^ bw v) ∧
    (v ≠ 0#32 → v.getLsbD (bw v - 1) = true ∧ ∀ j, bw v ≤ j → v.getLsbD j = false) ∧
    (∀ u : Word, v.toNat ≤ u.toNat → bw v ≤ bw u) ∧
    (∀ k, k ≤ 32 → (v.toNat < 2 ^ k ↔ bw v ≤ k))

/-! ## BWR -/

/-- R110: WINIT makes its context empty and changes nothing else (`finished` is the model's mark, log entry 6). -/
def Obligations.WinitMakesTheContextEmpty : Prop :=
  (∀ s : State, exec (.winit .H) s = .next { s with hctx := { out := [], p := 0#8, k := 0, finished := false } }) ∧
  (∀ s : State, exec (.winit .V) s = .next { s with vctx := { out := [], p := 0#8, k := 0, finished := false } }) ∧
  encode (.winit .V) = 0x940000000000#48

/-- R111, R114 (a), (b): APPEND of at most 32 bits to an unfinished context puts the low `eff` bits of the value, most
significant first, after the bits written so far; the invariant of R29 is kept and nothing else changes. -/
def Obligations.AppendAddsItsBits : Prop :=
  ∀ (s : State) (c : Ctx) (value : Word) (width : Byte) (lb : Bool), (s.ctx c).Inv → (s.ctx c).finished = false →
    width.toNat ≤ 32 → (lb = true → width ≠ 0#8) →
    ∃ x : Writer, exec (.append c value width lb) s = .next (s.setCtx c x) ∧
      x.bits = (s.ctx c).bits ++ bitsOf value.toNat (if lb then width.toNat - 1 else width.toNat) ∧
      x.Inv ∧ x.k = x.bits.length % 8 ∧ x.out.length = x.bits.length / 8 ∧ x.finished = false

/-- R112 (a), R215, R219: APPEND of more than 32 bits raises WidthOutOfRange: with SEQ in ENC_FIELD ENCODE ends with
the fault recorded for the field SEQ is at; with SEQ IDLE the model stops (log entry 5). -/
def Obligations.AppendOfMoreThan32BitsRaises : Prop :=
  ∀ (s : State) (c : Ctx) (value : Word) (width : Byte) (lb : Bool), 32 < width.toNat →
    (s.seq.phase = .encField → ∃ t, exec (.append c value width lb) s = .next t ∧
      StatusIsFault 0x5#4 .widthOutOfRange (BitVec.ofNat 32 width.toNat) (s.hw[s.seq.idx]?.getD 0#8) 0 s.seq.idx t ∧
      t.data = [] ∧ t.hw = s.hw ∧ t.vals = s.vals ∧ t.rpos = s.rpos ∧ SameModelParts s t ∧
      t.seq = { phase := .idle, idx := 0 }) ∧
    (s.seq.phase = .idle → exec (.append c value width lb) s = .fault (.raisedOutsideCall (.widthOutOfRange width.toNat)))

/-- R112 (b), R113: the two cases of APPEND the spec leaves without a behaviour, which a model shall refuse, are refused by
name: LB with width 0, and a context that has been finished. The mark that says so, and that LB with width 0 is met first
on a finished context, are the model's choice (log entry 6). -/
def Obligations.UndefinedAppendsAreRefused : Prop :=
  (∀ (s : State) (c : Ctx) (value : Word),
    exec (.append c value 0#8 true) s = .refused .appendLeadingBitOfWidthZero) ∧
  ∀ (s : State) (c : Ctx) (value : Word) (width : Byte) (lb : Bool), width.toNat ≤ 32 → (lb = true → width ≠ 0#8) →
    (s.ctx c).finished = true → exec (.append c value width lb) s = .refused .appendAfterFinish

/-- R114 (d): the bytes do not depend on how the bits are grouped: two APPENDs leave what one APPEND of both fields
leaves. -/
def Obligations.AppendGroupingDoesNotMatter : Prop :=
  ∀ (s : State) (c : Ctx) (a b : Word) (m n : Byte), (s.ctx c).finished = false → m.toNat + n.toNat ≤ 32 →
    ∃ t u, exec (.append c a m false) s = .next t ∧ exec (.append c b n false) t = .next u ∧
      exec (.append c (BitVec.ofNat 32 (a.toNat % 2 ^ m.toNat * 2 ^ n.toNat + b.toNat % 2 ^ n.toNat)) (m + n) false) s =
        .next u

/-- R113, R114 (c): FINISH on a context that has not been finished stores the bits written so far in bytes, with zero bits
up to the next byte boundary; with K = 0 it adds no byte. Nothing else changes. R248 (a), U2, D19: a second FINISH, outside
the contract, is refused by name (the finished mark: log entry 6). -/
def Obligations.FinishPadsToAByte : Prop :=
  (∀ (s : State) (c : Ctx), (s.ctx c).Inv → (s.ctx c).finished = false →
    ∃ x : Writer, exec (.finish c) s = .next (s.setCtx c x) ∧ x.k = 0 ∧ x.Inv ∧ x.finished = true ∧
      streamBits x.out = (s.ctx c).bits ++ List.replicate ((8 - (s.ctx c).bits.length % 8) % 8) false ∧
      x.out.length = ((s.ctx c).bits.length + 7) / 8 ∧
      ((s.ctx c).k = 0 → x.out = (s.ctx c).out) ∧ ((s.ctx c).k ≠ 0 → x.out = (s.ctx c).out ++ [(s.ctx c).p])) ∧
  ∀ (s : State) (c : Ctx), (s.ctx c).finished = true → exec (.finish c) s = .refused .finishAfterFinish

/-- R152: SPLICE n carries the first n bits of V.OUT to the end of H and changes nothing else; an n above the bits of V.OUT
is outside its precondition and refused by name. -/
def Obligations.SpliceCarriesBitsOfV : Prop :=
  (∀ (s : State) (n : Nat), s.hctx.Inv → s.hctx.finished = false → n ≤ 8 * s.vctx.out.length →
    ∃ x : Writer, exec (.splice n) s = .next { s with hctx := x } ∧
      x.bits = s.hctx.bits ++ (streamBits s.vctx.out).take n ∧ x.Inv ∧ x.finished = false) ∧
  ∀ (s : State) (n : Nat), 8 * s.vctx.out.length < n → exec (.splice n) s = .refused .spliceBeyondStream

/-! ## BRD -/

/-- R130: RINIT sets RD.POS to 0 and changes nothing else. -/
def Obligations.RinitPositionsTheReader : Prop :=
  (∀ s : State, exec .rinit s = .next { s with rdpos := 0 }) ∧ encode .rinit = 0xD00000000000#48 ∧
    decode 0xD00000000000#48 = .ok .rinit

/-- R131, R132 (a), (c), (g), (h), (i), R133 (a): POP of a field that is there returns its bits, the leading bit restored
with LB, and moves RD.POS past them; width 0 returns 0 and consumes nothing. Nothing else changes (the result latch: log
entry 7). -/
def Obligations.PopReadsAField : Prop :=
  ∀ (s : State) (width : Nat) (lb : Bool) (n : Nat), s.data.wf = true → width ≤ 32 →
    n = (if width = 0 then 0 else if lb then width - 1 else width) → s.rdpos + n ≤ 8 * s.data.dlen →
    ∃ x : Word, exec (.pop width lb) s = .next { s with rdpos := s.rdpos + n, popped := x } ∧
      x.toNat = (if width = 0 then 0
        else if lb then 2 ^ (width - 1) + fieldAt (streamBits s.data.bytes) s.rdpos n
        else fieldAt (streamBits s.data.bytes) s.rdpos n) ∧
      x.toNat < 2 ^ width ∧ (lb = true → bw x = width)

/-- R131, R132 (b), (d), (e), R213, R215, R219: POP raises WidthOutOfRange above 32 bits and InsufficientData when its bits
are not all there; in a phase of DECODE the call ends with the fault recorded and RPOS at the unmoved position; with SEQ
IDLE the model stops (log entry 5). -/
def Obligations.PopRaises : Prop :=
  ∀ (s : State) (width : Nat) (lb : Bool) (n : Nat), n = (if lb then width - 1 else width) →
    ((s.seq.phase = .decHdr ∨ s.seq.phase = .decVal) → 32 < width → width < 2 ^ 32 →
      ∃ t, exec (.pop width lb) s = .next t ∧
      StatusIsFault 0x6#4 .widthOutOfRange (BitVec.ofNat 32 width) (s.hw[s.seq.idx]?.getD 0#8) 0 s.seq.idx t ∧
      t.vals = [] ∧ t.rpos = s.rdpos ∧ t.hw = s.hw ∧ t.data = s.data ∧ SameModelParts s t) ∧
    ((s.seq.phase = .decHdr ∨ s.seq.phase = .decVal) → width ≤ 32 → s.rdpos ≤ 8 * s.data.dlen →
      8 * s.data.dlen < s.rdpos + n → ∃ t, exec (.pop width lb) s = .next t ∧
      StatusIsFault 0x6#4 .insufficientData 0#32 0#8 (s.rdpos + n - 8 * s.data.dlen) s.seq.idx t ∧
      t.vals = [] ∧ t.rpos = s.rdpos ∧ t.hw = s.hw ∧ t.data = s.data ∧ SameModelParts s t) ∧
    (s.seq.phase = .idle → 32 < width →
      exec (.pop width lb) s = .fault (.raisedOutsideCall (.widthOutOfRange width))) ∧
    (s.seq.phase = .idle → width ≤ 32 → s.rdpos ≤ 8 * s.data.dlen → 8 * s.data.dlen < s.rdpos + n →
      exec (.pop width lb) s = .fault (.raisedOutsideCall (.insufficientData (s.rdpos + n - 8 * s.data.dlen))))

/-- R133 (c): POP is the inverse of APPEND: a field appended at stream position p is read back by the POP of the same width
and LB at p, in every state whose DATA is that stream flushed by FINISH, whatever was written before the field (s) and
whatever after it (u: any unfinished context whose bits go on from there, as by AppendAddsItsBits every later APPEND leaves
them). -/
def Obligations.PopInvertsAppend : Prop :=
  ∀ (s : State) (c : Ctx) (value : Word) (width : Byte) (lb : Bool), (s.ctx c).Inv → (s.ctx c).finished = false →
    width.toNat ≤ 32 → (lb = false → value.toNat < 2 ^ width.toNat) → (lb = true → bw value = width.toNat ∧ width ≠ 0#8) →
    ∃ t, exec (.append c value width lb) s = .next t ∧
      ∀ u : State, (u.ctx c).Inv → (u.ctx c).finished = false → (t.ctx c).bits <+: (u.ctx c).bits →
        ∃ v, exec (.finish c) u = .next v ∧
          ∀ r : State, r.data = Memory.ofBytes (v.ctx c).out → r.rdpos = (s.ctx c).bits.length →
            ∃ x, exec (.pop width.toNat lb) r = .next x ∧ x.popped = value ∧
              x.rdpos = (s.ctx c).bits.length + (if lb then width.toNat - 1 else width.toNat)

/-! ## What the host reads -/

/-- R26: where the fields of STATUS stand, and that the other bits read 0. -/
def Obligations.StatusWordLayout : Prop :=
  ∀ st : Status, st.word.extractLsb' 0 2 = (match st.state with | .idle => 0#2 | .ok => 1#2 | .fault => 2#2) ∧
    st.word.getLsbD 2 = st.fseen ∧ st.word.getLsbD 3 = false ∧ st.word.extractLsb' 4 4 = st.lastop ∧
    st.word.extractLsb' 8 3 = (match st.fcode with
      | none => 0#3 | some .fieldCountMismatch => 1#3 | some .valueTooWide => 2#3 | some .insufficientData => 3#3
      | some .emptyInput => 4#3 | some .widthOutOfRange => 5#3 | some .illegalCommand => 6#3
      | some .capacityExceeded => 7#3) ∧
    st.word.extractLsb' 11 21 = 0#21

/-- R197, R24: a host read returns the register or the list entry and has no side effect; a read of no entry is refused
(the answer list: log entry 2). -/
def Obligations.HostReadReturnsTheEntry : Prop :=
  ∀ (s : State) (sp : Space) (i : Nat) (rest : List Input), s.inputs = .read sp i :: rest → s.data.wf = true →
    (∀ v, (match sp with
        | .registers => [s.status.word.toNat, s.fval.toNat, s.fwid.toNat, s.fbits.toNat, s.fidx, s.rpos, s.hw.length,
            s.vals.length, s.data.dlen][i]?
        | .hw => s.hw[i]?.map BitVec.toNat
        | .vals => s.vals[i]?.map BitVec.toNat
        | .data => s.data.bytes[i]?.map BitVec.toNat) = some v →
      step s = .next { s with inputs := rest, answers := s.answers ++ [v] }) ∧
    ((match sp with
        | .registers => 9
        | .hw => s.hw.length
        | .vals => s.vals.length
        | .data => s.data.dlen) ≤ i → step s = .refused .readOfNoEntry)

/-- R8, R52, R53: stream position p of DATA is bit 7 - (p mod 8) of byte p div 8. -/
def Obligations.StreamPositionsAreMostSignificantFirst : Prop :=
  ∀ (m : Memory) (p : Nat) (b : Byte), m.wf = true → m.read (p / 8) = some b →
    m.bit p = some (b.getLsbD (7 - p % 8)) ∧ (streamBits m.bytes)[p]? = some (b.getLsbD (7 - p % 8)) ∧
      m.bytes[p / 8]? = some b ∧ p < 8 * m.dlen

/-! ## Rules about the whole machine -/

/-- R198, R220: FSEEN outlives every step but a CLR with the ST bit. -/
def Obligations.FseenIsClearedByClrOnly : Prop :=
  ∀ s t : State, s.status.fseen = true → step s = .next t →
    t.status.fseen = true ∨
      ∃ (w : OpWord) (m : BitVec 4) (rest : List Input), s.inputs = .host w :: rest ∧ decode w = .ok (.clr m) ∧
        m.getLsbD 3 = true

/-- R35, R74: a micro-operation issued outside a call changes nothing the host can read: no list, no status register, no
parameter; and whatever words the host presents afterwards, they leave the same as if it had not been issued. -/
def Obligations.MicroOperationsChangeNoInterfaceState : Prop :=
  ∀ (s t : State) (i : Instr), i.op.isHost = false → s.seq.phase = .idle → exec i s = .next t →
    SameInterface s t ∧ (s.data.wf = true →
      ∀ words, ∃ u v, s.afterWords words = some u ∧ t.afterWords words = some v ∧ SameInterface u v)

/-- R21, R22, R23: HW changes by PUSHHW and CLR only, VAL by PUSHVAL, CLR and DECODE only, DATA by PUSHB, CLR and ENCODE
only; every byte of DATA reads as before otherwise. -/
def Obligations.EachListChangesByItsCommandsOnly : Prop :=
  ∀ (s t : State) (i : Instr), s.seq.phase = .idle → exec i s = .next t →
    (i.op ≠ .pushhw → i.op ≠ .clr → t.hw = s.hw) ∧
    (i.op ≠ .pushval → i.op ≠ .clr → i.op ≠ .decode → t.vals = s.vals) ∧
    (i.op ≠ .pushb → i.op ≠ .clr → i.op ≠ .encode → t.data = s.data ∧ ∀ a, t.data.read a = s.data.read a)

/-- R198: RPOS is written by DECODE and by CLR with the ST bit only. -/
def Obligations.RposIsWrittenByDecodeAndClrOnly : Prop :=
  ∀ (s t : State) (i : Instr), s.seq.phase = .idle → exec i s = .next t → i ≠ .decode →
    (∀ m, i = .clr m → m.getLsbD 3 = false) → t.rpos = s.rpos

/-- R219: a fault of ENCODE or DECODE leaves no partial result: the destination list is empty, the source lists are as they
were, the fault is recorded with FSEEN and SEQ is back at (IDLE, 0). -/
def Obligations.FaultsLeaveNoPartialResult : Prop :=
  ∀ s : State, s.data.wf = true →
    (∃ t, exec .encode s = .next t ∧ t.hw = s.hw ∧ t.vals = s.vals ∧
      (t.status.state = .fault → t.data = [] ∧ t.status.fseen = true ∧ t.status.fcode.isSome = true ∧
        t.seq = { phase := .idle, idx := 0 })) ∧
    ∃ t, exec .decode s = .next t ∧ t.hw = s.hw ∧ t.data = s.data ∧
      (t.status.state = .fault → t.vals = [] ∧ t.status.fseen = true ∧ t.status.fcode.isSome = true ∧
        t.seq = { phase := .idle, idx := 0 })

/-- R5, R28, R30, R155: H.OUT stays within MAXB and V.OUT within VCAP = ceil(31 * MAXF / 8): every host command keeps it, and
inside an ENCODE it holds after every field, after FINISH V and at the end (HW within MAXF, R21). -/
def Obligations.StreamsStayWithinTheirCapacities : Prop :=
  (∀ (s t : State) (i : Instr), i.op.isHost = true → s.StreamsFit → exec i s = .next t → t.StreamsFit) ∧
  ∀ s : State, s.cfg.wf = true → Config.admits s.cfg.maxF s.hw.length = true →
    (∀ (k : Nat) (u : State), State.encodeFields 0 ((s.hw.zip s.vals).take k) s.encodeInit = .ok u →
      u.StreamsFit ∧ ∀ v, u.finish .V = .ok v → v.StreamsFit) ∧
    ∀ u v : State, State.encodeFields 0 (s.hw.zip s.vals) s.encodeInit = .ok u → u.encodeTail = .ok v → v.StreamsFit

/-- R35, R115, R134: the working state is unobservable: from two states that agree in all the host can read and all that is
carried from command to command, a word or a read leaves two states that agree in it, or the read is refused in both. -/
def Obligations.InterfaceStateDecidesWhatTheHostSees : Prop :=
  ∀ s t : State, SameInterface s t → s.data.wf = true →
    (∀ (w : OpWord) (rest : List Input), s.inputs = .host w :: rest →
      ∃ u v, step s = .next u ∧ step t = .next v ∧ SameInterface u v) ∧
    ∀ (sp : Space) (i : Nat) (rest : List Input), s.inputs = .read sp i :: rest →
      (step s = .refused .readOfNoEntry ∧ step t = .refused .readOfNoEntry) ∨
        ∃ u v, step s = .next u ∧ step t = .next v ∧ SameInterface u v
end

