-- ==== Sys2Proof/Laws/State.lean ====
section
/-! SUPPORT. One lemma per field per named update of the state, so that no later proof unfolds a record update. -/

namespace Sys2Proof.Machine

open Sys2Proof

/-! ## atSeq -/

@[simp] theorem State.atSeq_cfg (s : State) (p : Phase) (i : Nat) : (s.atSeq p i).cfg = s.cfg := rfl
@[simp] theorem State.atSeq_hw (s : State) (p : Phase) (i : Nat) : (s.atSeq p i).hw = s.hw := rfl
@[simp] theorem State.atSeq_vals (s : State) (p : Phase) (i : Nat) : (s.atSeq p i).vals = s.vals := rfl
@[simp] theorem State.atSeq_data (s : State) (p : Phase) (i : Nat) : (s.atSeq p i).data = s.data := rfl
@[simp] theorem State.atSeq_status (s : State) (p : Phase) (i : Nat) : (s.atSeq p i).status = s.status := rfl
@[simp] theorem State.atSeq_fval (s : State) (p : Phase) (i : Nat) : (s.atSeq p i).fval = s.fval := rfl
@[simp] theorem State.atSeq_fwid (s : State) (p : Phase) (i : Nat) : (s.atSeq p i).fwid = s.fwid := rfl
@[simp] theorem State.atSeq_fbits (s : State) (p : Phase) (i : Nat) : (s.atSeq p i).fbits = s.fbits := rfl
@[simp] theorem State.atSeq_fidx (s : State) (p : Phase) (i : Nat) : (s.atSeq p i).fidx = s.fidx := rfl
@[simp] theorem State.atSeq_rpos (s : State) (p : Phase) (i : Nat) : (s.atSeq p i).rpos = s.rpos := rfl
@[simp] theorem State.atSeq_hctx (s : State) (p : Phase) (i : Nat) : (s.atSeq p i).hctx = s.hctx := rfl
@[simp] theorem State.atSeq_vctx (s : State) (p : Phase) (i : Nat) : (s.atSeq p i).vctx = s.vctx := rfl
@[simp] theorem State.atSeq_t (s : State) (p : Phase) (i : Nat) : (s.atSeq p i).t = s.t := rfl
@[simp] theorem State.atSeq_rdpos (s : State) (p : Phase) (i : Nat) : (s.atSeq p i).rdpos = s.rdpos := rfl
@[simp] theorem State.atSeq_popped (s : State) (p : Phase) (i : Nat) : (s.atSeq p i).popped = s.popped := rfl
@[simp] theorem State.atSeq_l (s : State) (p : Phase) (i : Nat) : (s.atSeq p i).l = s.l := rfl
@[simp] theorem State.atSeq_r (s : State) (p : Phase) (i : Nat) : (s.atSeq p i).r = s.r := rfl
@[simp] theorem State.atSeq_w (s : State) (p : Phase) (i : Nat) : (s.atSeq p i).w = s.w := rfl
@[simp] theorem State.atSeq_seq (s : State) (p : Phase) (i : Nat) : (s.atSeq p i).seq = { phase := p, idx := i } := rfl
@[simp] theorem State.atSeq_inputs (s : State) (p : Phase) (i : Nat) : (s.atSeq p i).inputs = s.inputs := rfl
@[simp] theorem State.atSeq_answers (s : State) (p : Phase) (i : Nat) : (s.atSeq p i).answers = s.answers := rfl
@[simp] theorem State.atSeq_fresh (s : State) (p : Phase) (i : Nat) : (s.atSeq p i).fresh = s.fresh := rfl

/-! ## recordOk -/

@[simp] theorem State.recordOk_cfg (s : State) (c : Command) : (s.recordOk c).cfg = s.cfg := rfl
@[simp] theorem State.recordOk_hw (s : State) (c : Command) : (s.recordOk c).hw = s.hw := rfl
@[simp] theorem State.recordOk_vals (s : State) (c : Command) : (s.recordOk c).vals = s.vals := rfl
@[simp] theorem State.recordOk_data (s : State) (c : Command) : (s.recordOk c).data = s.data := rfl
@[simp] theorem State.recordOk_status (s : State) (c : Command) : (s.recordOk c).status = { state := .ok, fseen := s.status.fseen, lastop := c.opc, fcode := none } := rfl
@[simp] theorem State.recordOk_fval (s : State) (c : Command) : (s.recordOk c).fval = 0#32 := rfl
@[simp] theorem State.recordOk_fwid (s : State) (c : Command) : (s.recordOk c).fwid = 0#8 := rfl
@[simp] theorem State.recordOk_fbits (s : State) (c : Command) : (s.recordOk c).fbits = 0#6 := rfl
@[simp] theorem State.recordOk_fidx (s : State) (c : Command) : (s.recordOk c).fidx = 0 := rfl
@[simp] theorem State.recordOk_rpos (s : State) (c : Command) : (s.recordOk c).rpos = s.rpos := rfl
@[simp] theorem State.recordOk_hctx (s : State) (c : Command) : (s.recordOk c).hctx = s.hctx := rfl
@[simp] theorem State.recordOk_vctx (s : State) (c : Command) : (s.recordOk c).vctx = s.vctx := rfl
@[simp] theorem State.recordOk_t (s : State) (c : Command) : (s.recordOk c).t = s.t := rfl
@[simp] theorem State.recordOk_rdpos (s : State) (c : Command) : (s.recordOk c).rdpos = s.rdpos := rfl
@[simp] theorem State.recordOk_popped (s : State) (c : Command) : (s.recordOk c).popped = s.popped := rfl
@[simp] theorem State.recordOk_l (s : State) (c : Command) : (s.recordOk c).l = s.l := rfl
@[simp] theorem State.recordOk_r (s : State) (c : Command) : (s.recordOk c).r = s.r := rfl
@[simp] theorem State.recordOk_w (s : State) (c : Command) : (s.recordOk c).w = s.w := rfl
@[simp] theorem State.recordOk_seq (s : State) (c : Command) : (s.recordOk c).seq = s.seq := rfl
@[simp] theorem State.recordOk_inputs (s : State) (c : Command) : (s.recordOk c).inputs = s.inputs := rfl
@[simp] theorem State.recordOk_answers (s : State) (c : Command) : (s.recordOk c).answers = s.answers := rfl
@[simp] theorem State.recordOk_fresh (s : State) (c : Command) : (s.recordOk c).fresh = s.fresh := rfl

/-! ## recordFault -/

@[simp] theorem State.recordFault_cfg (s : State) (c : Command) (r : Raise) : (s.recordFault c r).cfg = s.cfg := rfl
@[simp] theorem State.recordFault_hw (s : State) (c : Command) (r : Raise) : (s.recordFault c r).hw = s.hw := rfl
@[simp] theorem State.recordFault_vals (s : State) (c : Command) (r : Raise) : (s.recordFault c r).vals = s.vals := rfl
@[simp] theorem State.recordFault_data (s : State) (c : Command) (r : Raise) : (s.recordFault c r).data = s.data := rfl
@[simp] theorem State.recordFault_status (s : State) (c : Command) (r : Raise) : (s.recordFault c r).status = { state := .fault, fseen := true, lastop := c.opc, fcode := some r.kind } := rfl
@[simp] theorem State.recordFault_fval (s : State) (c : Command) (r : Raise) : (s.recordFault c r).fval = r.fval := rfl
@[simp] theorem State.recordFault_fwid (s : State) (c : Command) (r : Raise) : (s.recordFault c r).fwid = r.fwid s := rfl
@[simp] theorem State.recordFault_fbits (s : State) (c : Command) (r : Raise) : (s.recordFault c r).fbits = r.fbits := rfl
@[simp] theorem State.recordFault_fidx (s : State) (c : Command) (r : Raise) : (s.recordFault c r).fidx = r.fidx s := rfl
@[simp] theorem State.recordFault_rpos (s : State) (c : Command) (r : Raise) : (s.recordFault c r).rpos = s.rpos := rfl
@[simp] theorem State.recordFault_hctx (s : State) (c : Command) (r : Raise) : (s.recordFault c r).hctx = s.hctx := rfl
@[simp] theorem State.recordFault_vctx (s : State) (c : Command) (r : Raise) : (s.recordFault c r).vctx = s.vctx := rfl
@[simp] theorem State.recordFault_t (s : State) (c : Command) (r : Raise) : (s.recordFault c r).t = s.t := rfl
@[simp] theorem State.recordFault_rdpos (s : State) (c : Command) (r : Raise) : (s.recordFault c r).rdpos = s.rdpos := rfl
@[simp] theorem State.recordFault_popped (s : State) (c : Command) (r : Raise) : (s.recordFault c r).popped = s.popped := rfl
@[simp] theorem State.recordFault_l (s : State) (c : Command) (r : Raise) : (s.recordFault c r).l = s.l := rfl
@[simp] theorem State.recordFault_r (s : State) (c : Command) (r : Raise) : (s.recordFault c r).r = s.r := rfl
@[simp] theorem State.recordFault_w (s : State) (c : Command) (r : Raise) : (s.recordFault c r).w = s.w := rfl
@[simp] theorem State.recordFault_seq (s : State) (c : Command) (r : Raise) : (s.recordFault c r).seq = s.seq := rfl
@[simp] theorem State.recordFault_inputs (s : State) (c : Command) (r : Raise) : (s.recordFault c r).inputs = s.inputs := rfl
@[simp] theorem State.recordFault_answers (s : State) (c : Command) (r : Raise) : (s.recordFault c r).answers = s.answers := rfl
@[simp] theorem State.recordFault_fresh (s : State) (c : Command) (r : Raise) : (s.recordFault c r).fresh = s.fresh := rfl

/-! ## clearStatus -/

@[simp] theorem State.clearStatus_cfg (s : State) : (s.clearStatus).cfg = s.cfg := rfl
@[simp] theorem State.clearStatus_hw (s : State) : (s.clearStatus).hw = s.hw := rfl
@[simp] theorem State.clearStatus_vals (s : State) : (s.clearStatus).vals = s.vals := rfl
@[simp] theorem State.clearStatus_data (s : State) : (s.clearStatus).data = s.data := rfl
@[simp] theorem State.clearStatus_status (s : State) : (s.clearStatus).status = Status.zero := rfl
@[simp] theorem State.clearStatus_fval (s : State) : (s.clearStatus).fval = 0#32 := rfl
@[simp] theorem State.clearStatus_fwid (s : State) : (s.clearStatus).fwid = 0#8 := rfl
@[simp] theorem State.clearStatus_fbits (s : State) : (s.clearStatus).fbits = 0#6 := rfl
@[simp] theorem State.clearStatus_fidx (s : State) : (s.clearStatus).fidx = 0 := rfl
@[simp] theorem State.clearStatus_rpos (s : State) : (s.clearStatus).rpos = 0 := rfl
@[simp] theorem State.clearStatus_hctx (s : State) : (s.clearStatus).hctx = s.hctx := rfl
@[simp] theorem State.clearStatus_vctx (s : State) : (s.clearStatus).vctx = s.vctx := rfl
@[simp] theorem State.clearStatus_t (s : State) : (s.clearStatus).t = s.t := rfl
@[simp] theorem State.clearStatus_rdpos (s : State) : (s.clearStatus).rdpos = s.rdpos := rfl
@[simp] theorem State.clearStatus_popped (s : State) : (s.clearStatus).popped = s.popped := rfl
@[simp] theorem State.clearStatus_l (s : State) : (s.clearStatus).l = s.l := rfl
@[simp] theorem State.clearStatus_r (s : State) : (s.clearStatus).r = s.r := rfl
@[simp] theorem State.clearStatus_w (s : State) : (s.clearStatus).w = s.w := rfl
@[simp] theorem State.clearStatus_seq (s : State) : (s.clearStatus).seq = s.seq := rfl
@[simp] theorem State.clearStatus_inputs (s : State) : (s.clearStatus).inputs = s.inputs := rfl
@[simp] theorem State.clearStatus_answers (s : State) : (s.clearStatus).answers = s.answers := rfl
@[simp] theorem State.clearStatus_fresh (s : State) : (s.clearStatus).fresh = s.fresh := rfl

/-! ## clearLists -/

@[simp] theorem State.clearLists_cfg (s : State) (m : BitVec 4) : (s.clearLists m).cfg = s.cfg := rfl
@[simp] theorem State.clearLists_hw (s : State) (m : BitVec 4) : (s.clearLists m).hw = if clrHw m then [] else s.hw := rfl
@[simp] theorem State.clearLists_vals (s : State) (m : BitVec 4) : (s.clearLists m).vals = if clrVal m then [] else s.vals := rfl
@[simp] theorem State.clearLists_data (s : State) (m : BitVec 4) : (s.clearLists m).data = if clrData m then [] else s.data := rfl
@[simp] theorem State.clearLists_status (s : State) (m : BitVec 4) : (s.clearLists m).status = s.status := rfl
@[simp] theorem State.clearLists_fval (s : State) (m : BitVec 4) : (s.clearLists m).fval = s.fval := rfl
@[simp] theorem State.clearLists_fwid (s : State) (m : BitVec 4) : (s.clearLists m).fwid = s.fwid := rfl
@[simp] theorem State.clearLists_fbits (s : State) (m : BitVec 4) : (s.clearLists m).fbits = s.fbits := rfl
@[simp] theorem State.clearLists_fidx (s : State) (m : BitVec 4) : (s.clearLists m).fidx = s.fidx := rfl
@[simp] theorem State.clearLists_rpos (s : State) (m : BitVec 4) : (s.clearLists m).rpos = s.rpos := rfl
@[simp] theorem State.clearLists_hctx (s : State) (m : BitVec 4) : (s.clearLists m).hctx = s.hctx := rfl
@[simp] theorem State.clearLists_vctx (s : State) (m : BitVec 4) : (s.clearLists m).vctx = s.vctx := rfl
@[simp] theorem State.clearLists_t (s : State) (m : BitVec 4) : (s.clearLists m).t = s.t := rfl
@[simp] theorem State.clearLists_rdpos (s : State) (m : BitVec 4) : (s.clearLists m).rdpos = s.rdpos := rfl
@[simp] theorem State.clearLists_popped (s : State) (m : BitVec 4) : (s.clearLists m).popped = s.popped := rfl
@[simp] theorem State.clearLists_l (s : State) (m : BitVec 4) : (s.clearLists m).l = s.l := rfl
@[simp] theorem State.clearLists_r (s : State) (m : BitVec 4) : (s.clearLists m).r = s.r := rfl
@[simp] theorem State.clearLists_w (s : State) (m : BitVec 4) : (s.clearLists m).w = s.w := rfl
@[simp] theorem State.clearLists_seq (s : State) (m : BitVec 4) : (s.clearLists m).seq = s.seq := rfl
@[simp] theorem State.clearLists_inputs (s : State) (m : BitVec 4) : (s.clearLists m).inputs = s.inputs := rfl
@[simp] theorem State.clearLists_answers (s : State) (m : BitVec 4) : (s.clearLists m).answers = s.answers := rfl
@[simp] theorem State.clearLists_fresh (s : State) (m : BitVec 4) : (s.clearLists m).fresh = s.fresh := rfl

/-! ## complete -/

@[simp] theorem State.complete_cfg (s : State) (c : Command) : (s.complete c).cfg = s.cfg := by cases c <;> rfl
@[simp] theorem State.complete_hw (s : State) (c : Command) : (s.complete c).hw = s.hw := by cases c <;> rfl
@[simp] theorem State.complete_vals (s : State) (c : Command) : (s.complete c).vals = s.vals := by cases c <;> rfl
@[simp] theorem State.complete_data (s : State) (c : Command) : (s.complete c).data = s.data := by cases c <;> rfl
@[simp] theorem State.complete_status (s : State) (c : Command) : (s.complete c).status = { state := .ok, fseen := s.status.fseen, lastop := c.opc, fcode := none } := by cases c <;> rfl
@[simp] theorem State.complete_fval (s : State) (c : Command) : (s.complete c).fval = 0#32 := by cases c <;> rfl
@[simp] theorem State.complete_fwid (s : State) (c : Command) : (s.complete c).fwid = 0#8 := by cases c <;> rfl
@[simp] theorem State.complete_fbits (s : State) (c : Command) : (s.complete c).fbits = 0#6 := by cases c <;> rfl
@[simp] theorem State.complete_fidx (s : State) (c : Command) : (s.complete c).fidx = 0 := by cases c <;> rfl
@[simp] theorem State.complete_rpos (s : State) (c : Command) : (s.complete c).rpos = s.rpos := by cases c <;> rfl
@[simp] theorem State.complete_inputs (s : State) (c : Command) : (s.complete c).inputs = s.inputs := by cases c <;> rfl
@[simp] theorem State.complete_answers (s : State) (c : Command) : (s.complete c).answers = s.answers := by cases c <;> rfl
@[simp] theorem State.complete_clr_hctx (s : State) : (s.complete .clr).hctx = s.hctx := rfl
@[simp] theorem State.complete_pushhw_hctx (s : State) : (s.complete .pushhw).hctx = s.hctx := rfl
@[simp] theorem State.complete_pushval_hctx (s : State) : (s.complete .pushval).hctx = s.hctx := rfl
@[simp] theorem State.complete_pushb_hctx (s : State) : (s.complete .pushb).hctx = s.hctx := rfl
@[simp] theorem State.complete_decode_hctx (s : State) : (s.complete .decode).hctx = s.hctx := rfl
@[simp] theorem State.complete_clr_vctx (s : State) : (s.complete .clr).vctx = s.vctx := rfl
@[simp] theorem State.complete_pushhw_vctx (s : State) : (s.complete .pushhw).vctx = s.vctx := rfl
@[simp] theorem State.complete_pushval_vctx (s : State) : (s.complete .pushval).vctx = s.vctx := rfl
@[simp] theorem State.complete_pushb_vctx (s : State) : (s.complete .pushb).vctx = s.vctx := rfl
@[simp] theorem State.complete_decode_vctx (s : State) : (s.complete .decode).vctx = s.vctx := rfl
@[simp] theorem State.complete_clr_t (s : State) : (s.complete .clr).t = s.t := rfl
@[simp] theorem State.complete_pushhw_t (s : State) : (s.complete .pushhw).t = s.t := rfl
@[simp] theorem State.complete_pushval_t (s : State) : (s.complete .pushval).t = s.t := rfl
@[simp] theorem State.complete_pushb_t (s : State) : (s.complete .pushb).t = s.t := rfl
@[simp] theorem State.complete_decode_t (s : State) : (s.complete .decode).t = s.t := rfl
@[simp] theorem State.complete_clr_w (s : State) : (s.complete .clr).w = s.w := rfl
@[simp] theorem State.complete_pushhw_w (s : State) : (s.complete .pushhw).w = s.w := rfl
@[simp] theorem State.complete_pushval_w (s : State) : (s.complete .pushval).w = s.w := rfl
@[simp] theorem State.complete_pushb_w (s : State) : (s.complete .pushb).w = s.w := rfl
@[simp] theorem State.complete_decode_w (s : State) : (s.complete .decode).w = s.w := rfl
@[simp] theorem State.complete_clr_rdpos (s : State) : (s.complete .clr).rdpos = s.rdpos := rfl
@[simp] theorem State.complete_pushhw_rdpos (s : State) : (s.complete .pushhw).rdpos = s.rdpos := rfl
@[simp] theorem State.complete_pushval_rdpos (s : State) : (s.complete .pushval).rdpos = s.rdpos := rfl
@[simp] theorem State.complete_pushb_rdpos (s : State) : (s.complete .pushb).rdpos = s.rdpos := rfl
@[simp] theorem State.complete_encode_rdpos (s : State) : (s.complete .encode).rdpos = s.rdpos := rfl
@[simp] theorem State.complete_clr_popped (s : State) : (s.complete .clr).popped = s.popped := rfl
@[simp] theorem State.complete_pushhw_popped (s : State) : (s.complete .pushhw).popped = s.popped := rfl
@[simp] theorem State.complete_pushval_popped (s : State) : (s.complete .pushval).popped = s.popped := rfl
@[simp] theorem State.complete_pushb_popped (s : State) : (s.complete .pushb).popped = s.popped := rfl
@[simp] theorem State.complete_encode_popped (s : State) : (s.complete .encode).popped = s.popped := rfl
@[simp] theorem State.complete_clr_l (s : State) : (s.complete .clr).l = s.l := rfl
@[simp] theorem State.complete_pushhw_l (s : State) : (s.complete .pushhw).l = s.l := rfl
@[simp] theorem State.complete_pushval_l (s : State) : (s.complete .pushval).l = s.l := rfl
@[simp] theorem State.complete_pushb_l (s : State) : (s.complete .pushb).l = s.l := rfl
@[simp] theorem State.complete_encode_l (s : State) : (s.complete .encode).l = s.l := rfl
@[simp] theorem State.complete_clr_r (s : State) : (s.complete .clr).r = s.r := rfl
@[simp] theorem State.complete_pushhw_r (s : State) : (s.complete .pushhw).r = s.r := rfl
@[simp] theorem State.complete_pushval_r (s : State) : (s.complete .pushval).r = s.r := rfl
@[simp] theorem State.complete_pushb_r (s : State) : (s.complete .pushb).r = s.r := rfl
@[simp] theorem State.complete_encode_r (s : State) : (s.complete .encode).r = s.r := rfl
@[simp] theorem State.complete_clr_seq (s : State) : (s.complete .clr).seq = s.seq := rfl
@[simp] theorem State.complete_pushhw_seq (s : State) : (s.complete .pushhw).seq = s.seq := rfl
@[simp] theorem State.complete_pushval_seq (s : State) : (s.complete .pushval).seq = s.seq := rfl
@[simp] theorem State.complete_pushb_seq (s : State) : (s.complete .pushb).seq = s.seq := rfl
@[simp] theorem State.complete_encode_phase (s : State) : (s.complete .encode).seq.phase = .idle := rfl
@[simp] theorem State.complete_decode_phase (s : State) : (s.complete .decode).seq.phase = .idle := rfl

/-! ## raise -/

@[simp] theorem State.raise_cfg (s : State) (c : Command) (k : Raise) : (s.raise c k).cfg = s.cfg := by cases c <;> rfl
@[simp] theorem State.raise_hw (s : State) (c : Command) (k : Raise) : (s.raise c k).hw = s.hw := by cases c <;> rfl
@[simp] theorem State.raise_vals (s : State) (c : Command) (k : Raise) : (s.raise c k).vals = if c = .decode then [] else s.vals := by cases c <;> rfl
@[simp] theorem State.raise_data (s : State) (c : Command) (k : Raise) : (s.raise c k).data = if c = .encode then [] else s.data := by cases c <;> rfl
@[simp] theorem State.raise_status (s : State) (c : Command) (k : Raise) : (s.raise c k).status = { state := .fault, fseen := true, lastop := c.opc, fcode := some k.kind } := by cases c <;> rfl
@[simp] theorem State.raise_fval (s : State) (c : Command) (k : Raise) : (s.raise c k).fval = k.fval := by cases c <;> rfl
@[simp] theorem State.raise_fwid (s : State) (c : Command) (k : Raise) : (s.raise c k).fwid = k.fwid s := by cases c <;> rfl
@[simp] theorem State.raise_fbits (s : State) (c : Command) (k : Raise) : (s.raise c k).fbits = k.fbits := by cases c <;> rfl
@[simp] theorem State.raise_fidx (s : State) (c : Command) (k : Raise) : (s.raise c k).fidx = k.fidx s := by cases c <;> rfl
@[simp] theorem State.raise_rpos (s : State) (c : Command) (k : Raise) : (s.raise c k).rpos = if c = .decode then k.rpos s else s.rpos := by cases c <;> rfl
@[simp] theorem State.raise_seq (s : State) (c : Command) (k : Raise) : (s.raise c k).seq = Seq.idle := by cases c <;> rfl
@[simp] theorem State.raise_inputs (s : State) (c : Command) (k : Raise) : (s.raise c k).inputs = s.inputs := by cases c <;> rfl
@[simp] theorem State.raise_answers (s : State) (c : Command) (k : Raise) : (s.raise c k).answers = s.answers := by cases c <;> rfl
@[simp] theorem State.raise_illegal_hctx (s : State) (o : BitVec 4) (k : Raise) : (s.raise (.illegal o) k).hctx = s.hctx := rfl
@[simp] theorem State.raise_illegal_vctx (s : State) (o : BitVec 4) (k : Raise) : (s.raise (.illegal o) k).vctx = s.vctx := rfl
@[simp] theorem State.raise_illegal_t (s : State) (o : BitVec 4) (k : Raise) : (s.raise (.illegal o) k).t = s.t := rfl
@[simp] theorem State.raise_illegal_rdpos (s : State) (o : BitVec 4) (k : Raise) : (s.raise (.illegal o) k).rdpos = s.rdpos := rfl
@[simp] theorem State.raise_illegal_popped (s : State) (o : BitVec 4) (k : Raise) : (s.raise (.illegal o) k).popped = s.popped := rfl
@[simp] theorem State.raise_illegal_l (s : State) (o : BitVec 4) (k : Raise) : (s.raise (.illegal o) k).l = s.l := rfl
@[simp] theorem State.raise_illegal_r (s : State) (o : BitVec 4) (k : Raise) : (s.raise (.illegal o) k).r = s.r := rfl
@[simp] theorem State.raise_illegal_w (s : State) (o : BitVec 4) (k : Raise) : (s.raise (.illegal o) k).w = s.w := rfl

/-! ## latchWidth -/

@[simp] theorem State.latchWidth_cfg (s : State) (v : Word) : (s.latchWidth v).cfg = s.cfg := rfl
@[simp] theorem State.latchWidth_hw (s : State) (v : Word) : (s.latchWidth v).hw = s.hw := rfl
@[simp] theorem State.latchWidth_vals (s : State) (v : Word) : (s.latchWidth v).vals = s.vals := rfl
@[simp] theorem State.latchWidth_data (s : State) (v : Word) : (s.latchWidth v).data = s.data := rfl
@[simp] theorem State.latchWidth_status (s : State) (v : Word) : (s.latchWidth v).status = s.status := rfl
@[simp] theorem State.latchWidth_fval (s : State) (v : Word) : (s.latchWidth v).fval = s.fval := rfl
@[simp] theorem State.latchWidth_fwid (s : State) (v : Word) : (s.latchWidth v).fwid = s.fwid := rfl
@[simp] theorem State.latchWidth_fbits (s : State) (v : Word) : (s.latchWidth v).fbits = s.fbits := rfl
@[simp] theorem State.latchWidth_fidx (s : State) (v : Word) : (s.latchWidth v).fidx = s.fidx := rfl
@[simp] theorem State.latchWidth_rpos (s : State) (v : Word) : (s.latchWidth v).rpos = s.rpos := rfl
@[simp] theorem State.latchWidth_hctx (s : State) (v : Word) : (s.latchWidth v).hctx = s.hctx := rfl
@[simp] theorem State.latchWidth_vctx (s : State) (v : Word) : (s.latchWidth v).vctx = s.vctx := rfl
@[simp] theorem State.latchWidth_t (s : State) (v : Word) : (s.latchWidth v).t = s.t := rfl
@[simp] theorem State.latchWidth_rdpos (s : State) (v : Word) : (s.latchWidth v).rdpos = s.rdpos := rfl
@[simp] theorem State.latchWidth_popped (s : State) (v : Word) : (s.latchWidth v).popped = s.popped := rfl
@[simp] theorem State.latchWidth_l (s : State) (v : Word) : (s.latchWidth v).l = s.l := rfl
@[simp] theorem State.latchWidth_r (s : State) (v : Word) : (s.latchWidth v).r = s.r := rfl
@[simp] theorem State.latchWidth_w (s : State) (v : Word) : (s.latchWidth v).w = bw v := rfl
@[simp] theorem State.latchWidth_seq (s : State) (v : Word) : (s.latchWidth v).seq = s.seq := rfl
@[simp] theorem State.latchWidth_inputs (s : State) (v : Word) : (s.latchWidth v).inputs = s.inputs := rfl
@[simp] theorem State.latchWidth_answers (s : State) (v : Word) : (s.latchWidth v).answers = s.answers := rfl
@[simp] theorem State.latchWidth_fresh (s : State) (v : Word) : (s.latchWidth v).fresh = s.fresh := rfl

/-! ## addTotal -/

@[simp] theorem State.addTotal_cfg (s : State) (n : Nat) : (s.addTotal n).cfg = s.cfg := rfl
@[simp] theorem State.addTotal_hw (s : State) (n : Nat) : (s.addTotal n).hw = s.hw := rfl
@[simp] theorem State.addTotal_vals (s : State) (n : Nat) : (s.addTotal n).vals = s.vals := rfl
@[simp] theorem State.addTotal_data (s : State) (n : Nat) : (s.addTotal n).data = s.data := rfl
@[simp] theorem State.addTotal_status (s : State) (n : Nat) : (s.addTotal n).status = s.status := rfl
@[simp] theorem State.addTotal_fval (s : State) (n : Nat) : (s.addTotal n).fval = s.fval := rfl
@[simp] theorem State.addTotal_fwid (s : State) (n : Nat) : (s.addTotal n).fwid = s.fwid := rfl
@[simp] theorem State.addTotal_fbits (s : State) (n : Nat) : (s.addTotal n).fbits = s.fbits := rfl
@[simp] theorem State.addTotal_fidx (s : State) (n : Nat) : (s.addTotal n).fidx = s.fidx := rfl
@[simp] theorem State.addTotal_rpos (s : State) (n : Nat) : (s.addTotal n).rpos = s.rpos := rfl
@[simp] theorem State.addTotal_hctx (s : State) (n : Nat) : (s.addTotal n).hctx = s.hctx := rfl
@[simp] theorem State.addTotal_vctx (s : State) (n : Nat) : (s.addTotal n).vctx = s.vctx := rfl
@[simp] theorem State.addTotal_t (s : State) (n : Nat) : (s.addTotal n).t = s.t + n := rfl
@[simp] theorem State.addTotal_rdpos (s : State) (n : Nat) : (s.addTotal n).rdpos = s.rdpos := rfl
@[simp] theorem State.addTotal_popped (s : State) (n : Nat) : (s.addTotal n).popped = s.popped := rfl
@[simp] theorem State.addTotal_l (s : State) (n : Nat) : (s.addTotal n).l = s.l := rfl
@[simp] theorem State.addTotal_r (s : State) (n : Nat) : (s.addTotal n).r = s.r := rfl
@[simp] theorem State.addTotal_w (s : State) (n : Nat) : (s.addTotal n).w = s.w := rfl
@[simp] theorem State.addTotal_seq (s : State) (n : Nat) : (s.addTotal n).seq = s.seq := rfl
@[simp] theorem State.addTotal_inputs (s : State) (n : Nat) : (s.addTotal n).inputs = s.inputs := rfl
@[simp] theorem State.addTotal_answers (s : State) (n : Nat) : (s.addTotal n).answers = s.answers := rfl
@[simp] theorem State.addTotal_fresh (s : State) (n : Nat) : (s.addTotal n).fresh = s.fresh := rfl

/-! ## setCtx -/

@[simp] theorem State.setCtx_cfg (s : State) (c : Ctx) (x : Writer) : (s.setCtx c x).cfg = s.cfg := by cases c <;> rfl
@[simp] theorem State.setCtx_hw (s : State) (c : Ctx) (x : Writer) : (s.setCtx c x).hw = s.hw := by cases c <;> rfl
@[simp] theorem State.setCtx_vals (s : State) (c : Ctx) (x : Writer) : (s.setCtx c x).vals = s.vals := by cases c <;> rfl
@[simp] theorem State.setCtx_data (s : State) (c : Ctx) (x : Writer) : (s.setCtx c x).data = s.data := by cases c <;> rfl
@[simp] theorem State.setCtx_status (s : State) (c : Ctx) (x : Writer) : (s.setCtx c x).status = s.status := by cases c <;> rfl
@[simp] theorem State.setCtx_fval (s : State) (c : Ctx) (x : Writer) : (s.setCtx c x).fval = s.fval := by cases c <;> rfl
@[simp] theorem State.setCtx_fwid (s : State) (c : Ctx) (x : Writer) : (s.setCtx c x).fwid = s.fwid := by cases c <;> rfl
@[simp] theorem State.setCtx_fbits (s : State) (c : Ctx) (x : Writer) : (s.setCtx c x).fbits = s.fbits := by cases c <;> rfl
@[simp] theorem State.setCtx_fidx (s : State) (c : Ctx) (x : Writer) : (s.setCtx c x).fidx = s.fidx := by cases c <;> rfl
@[simp] theorem State.setCtx_rpos (s : State) (c : Ctx) (x : Writer) : (s.setCtx c x).rpos = s.rpos := by cases c <;> rfl
@[simp] theorem State.setCtx_hctx (s : State) (c : Ctx) (x : Writer) : (s.setCtx c x).hctx = if c = .H then x else s.hctx := by cases c <;> rfl
@[simp] theorem State.setCtx_vctx (s : State) (c : Ctx) (x : Writer) : (s.setCtx c x).vctx = if c = .V then x else s.vctx := by cases c <;> rfl
@[simp] theorem State.setCtx_t (s : State) (c : Ctx) (x : Writer) : (s.setCtx c x).t = s.t := by cases c <;> rfl
@[simp] theorem State.setCtx_rdpos (s : State) (c : Ctx) (x : Writer) : (s.setCtx c x).rdpos = s.rdpos := by cases c <;> rfl
@[simp] theorem State.setCtx_popped (s : State) (c : Ctx) (x : Writer) : (s.setCtx c x).popped = s.popped := by cases c <;> rfl
@[simp] theorem State.setCtx_l (s : State) (c : Ctx) (x : Writer) : (s.setCtx c x).l = s.l := by cases c <;> rfl
@[simp] theorem State.setCtx_r (s : State) (c : Ctx) (x : Writer) : (s.setCtx c x).r = s.r := by cases c <;> rfl
@[simp] theorem State.setCtx_w (s : State) (c : Ctx) (x : Writer) : (s.setCtx c x).w = s.w := by cases c <;> rfl
@[simp] theorem State.setCtx_seq (s : State) (c : Ctx) (x : Writer) : (s.setCtx c x).seq = s.seq := by cases c <;> rfl
@[simp] theorem State.setCtx_inputs (s : State) (c : Ctx) (x : Writer) : (s.setCtx c x).inputs = s.inputs := by cases c <;> rfl
@[simp] theorem State.setCtx_answers (s : State) (c : Ctx) (x : Writer) : (s.setCtx c x).answers = s.answers := by cases c <;> rfl
@[simp] theorem State.setCtx_fresh (s : State) (c : Ctx) (x : Writer) : (s.setCtx c x).fresh = s.fresh := by cases c <;> rfl

/-! ## rinit -/

@[simp] theorem State.rinit_cfg (s : State) : (s.rinit).cfg = s.cfg := rfl
@[simp] theorem State.rinit_hw (s : State) : (s.rinit).hw = s.hw := rfl
@[simp] theorem State.rinit_vals (s : State) : (s.rinit).vals = s.vals := rfl
@[simp] theorem State.rinit_data (s : State) : (s.rinit).data = s.data := rfl
@[simp] theorem State.rinit_status (s : State) : (s.rinit).status = s.status := rfl
@[simp] theorem State.rinit_fval (s : State) : (s.rinit).fval = s.fval := rfl
@[simp] theorem State.rinit_fwid (s : State) : (s.rinit).fwid = s.fwid := rfl
@[simp] theorem State.rinit_fbits (s : State) : (s.rinit).fbits = s.fbits := rfl
@[simp] theorem State.rinit_fidx (s : State) : (s.rinit).fidx = s.fidx := rfl
@[simp] theorem State.rinit_rpos (s : State) : (s.rinit).rpos = s.rpos := rfl
@[simp] theorem State.rinit_hctx (s : State) : (s.rinit).hctx = s.hctx := rfl
@[simp] theorem State.rinit_vctx (s : State) : (s.rinit).vctx = s.vctx := rfl
@[simp] theorem State.rinit_t (s : State) : (s.rinit).t = s.t := rfl
@[simp] theorem State.rinit_rdpos (s : State) : (s.rinit).rdpos = 0 := rfl
@[simp] theorem State.rinit_popped (s : State) : (s.rinit).popped = s.popped := rfl
@[simp] theorem State.rinit_l (s : State) : (s.rinit).l = s.l := rfl
@[simp] theorem State.rinit_r (s : State) : (s.rinit).r = s.r := rfl
@[simp] theorem State.rinit_w (s : State) : (s.rinit).w = s.w := rfl
@[simp] theorem State.rinit_seq (s : State) : (s.rinit).seq = s.seq := rfl
@[simp] theorem State.rinit_inputs (s : State) : (s.rinit).inputs = s.inputs := rfl
@[simp] theorem State.rinit_answers (s : State) : (s.rinit).answers = s.answers := rfl
@[simp] theorem State.rinit_fresh (s : State) : (s.rinit).fresh = s.fresh := rfl

/-! ## Reading a context after writing one -/

@[simp] theorem State.ctx_setCtx_same (s : State) (c : Ctx) (x : Writer) : (s.setCtx c x).ctx c = x := by cases c <;> rfl

theorem State.ctx_setCtx_ne (s : State) (c d : Ctx) (x : Writer) (h : d ≠ c) : (s.setCtx c x).ctx d = s.ctx d := by
  cases c <;> cases d <;> first | rfl | exact absurd rfl h

@[simp] theorem State.ctx_H (s : State) : s.ctx .H = s.hctx := rfl
@[simp] theorem State.ctx_V (s : State) : s.ctx .V = s.vctx := rfl

@[simp] theorem State.winit_eq (s : State) (c : Ctx) : s.winit c = s.setCtx c Writer.empty := rfl

end Sys2Proof.Machine
end

