-- ==== Sys2Proof/Laws/Memory.lean ====
section
/-! SUPPORT. DATA's canonical form: what keeps it, and what reading gives in it. -/

namespace Sys2Proof.Machine

open Sys2Proof

theorem Memory.wf_iff (m : Memory) : m.wf = true ↔ m.map Prod.fst = List.range m.length := by
  simp [Memory.wf]

/-- A memory in canonical form is its bytes, numbered from 0. -/
theorem Memory.wf_iff_ofBytes (m : Memory) : m.wf = true ↔ m = Memory.ofBytes m.bytes := by
  rw [Memory.wf_iff]
  constructor
  · intro h
    apply List.ext_getElem
    · simp [Memory.ofBytes, Memory.bytes]
    · intro i h₁ h₂
      have hi : (m.map Prod.fst)[i]'(by simpa using h₁) = i := by simp [h]
      refine Prod.ext ?_ ?_
      · simpa [Memory.ofBytes, Memory.bytes] using hi
      · simp [Memory.ofBytes, Memory.bytes]
  · intro h
    apply List.ext_getElem
    · simp
    · intro i h₁ h₂
      have : (m.map Prod.fst)[i]? = some i := by
        rw [h]
        have hi : i < m.length := by simpa using h₁
        simp [Memory.ofBytes, Memory.bytes, hi]
      simpa using (List.getElem?_eq_some_iff.mp this).2

@[simp] theorem Memory.bytes_ofBytes (bs : List Byte) : (Memory.ofBytes bs).bytes = bs := by
  apply List.ext_getElem <;> simp [Memory.ofBytes, Memory.bytes]

@[simp] theorem Memory.dlen_ofBytes (bs : List Byte) : (Memory.ofBytes bs).dlen = bs.length := by
  simp [Memory.ofBytes, Memory.dlen]

@[simp] theorem Memory.length_bytes (m : Memory) : m.bytes.length = m.dlen := by simp [Memory.bytes, Memory.dlen]

/-- The empty memory is in canonical form (reset, CLR, a fault of ENCODE). -/
@[simp] theorem Memory.wf_nil : Memory.wf [] = true := by decide

@[simp] theorem Memory.dlen_nil : Memory.dlen [] = 0 := rfl

/-- ENCODE's copy gives the canonical form. -/
@[simp] theorem Memory.wf_ofBytes (bs : List Byte) : (Memory.ofBytes bs).wf = true := by
  rw [Memory.wf_iff_ofBytes, Memory.bytes_ofBytes]

/-- PUSHB keeps the canonical form. -/
theorem Memory.wf_push (m : Memory) (b : Byte) (h : m.wf = true) : (m.push b).wf = true := by
  rw [Memory.wf_iff] at *
  simp [Memory.push, h, List.range_succ]

@[simp] theorem Memory.bytes_push (m : Memory) (b : Byte) : (m.push b).bytes = m.bytes ++ [b] := by
  simp [Memory.push, Memory.bytes]

@[simp] theorem Memory.dlen_push (m : Memory) (b : Byte) : (m.push b).dlen = m.dlen + 1 := by
  simp [Memory.push, Memory.dlen]

/-- The canonical form lists its indices in strictly rising order. -/
theorem Memory.wf_rising (m : Memory) (h : m.wf = true) : (m.map Prod.fst).Pairwise (· < ·) := by
  rw [(Memory.wf_iff m).mp h]; exact List.pairwise_lt_range

theorem lookup_zipIdx (bs : List Byte) (n a : Nat) :
    ((bs.zipIdx n).map fun x => (x.2, x.1)).lookup (n + a) = bs[a]? := by
  induction bs generalizing n a with
  | nil => simp
  | cons b bs ih =>
    cases a with
    | zero => simp
    | succ a =>
      have hne : (n + (a + 1) == n) = false := by simp
      simp only [List.zipIdx_cons, List.map_cons, List.lookup_cons, hne, List.getElem?_cons_succ]
      rw [← ih (n + 1) a, show n + (a + 1) = n + 1 + a by omega]

/-- Reading DATA in canonical form gives the byte of that index; no entry at or beyond the length (R24). -/
theorem Memory.read_eq (m : Memory) (h : m.wf = true) (a : Nat) : m.read a = m.bytes[a]? := by
  conv_lhs => rw [(Memory.wf_iff_ofBytes m).mp h]
  simpa [Memory.read, Memory.ofBytes] using lookup_zipIdx m.bytes 0 a

/-- Two memories in canonical form with the same bytes are the same data. -/
theorem Memory.eq_of_bytes (m n : Memory) (hm : m.wf = true) (hn : n.wf = true) (h : m.bytes = n.bytes) : m = n := by
  rw [(Memory.wf_iff_ofBytes m).mp hm, (Memory.wf_iff_ofBytes n).mp hn, h]

end Sys2Proof.Machine
end

