-- ==== Sys2Proof/Laws/Bits.lean ====
section
/-! SUPPORT. Bit strings: a number and its bits, bytes and their bits (R7, R8). -/

namespace Sys2Proof.Machine

open Sys2Proof

/-! ## Numbers and their bits -/

@[simp] theorem length_bitsOf (v n : Nat) : (bitsOf v n).length = n := by
  induction n with
  | zero => rfl
  | succ n ih => simp [bitsOf, ih]

theorem getElem?_bitsOf (v n j : Nat) (h : j < n) : (bitsOf v n)[j]? = some (v.testBit (n - 1 - j)) := by
  induction n generalizing j with
  | zero => omega
  | succ n ih =>
    cases j with
    | zero => simp [bitsOf]
    | succ j =>
      simp only [bitsOf, List.getElem?_cons_succ]
      rw [ih j (by omega)]
      congr 2
      omega

theorem foldl_number (bits : List Bool) (a : Nat) :
    bits.foldl (fun r b => 2 * r + b.toNat) a = a * 2 ^ bits.length + numberOf bits := by
  induction bits generalizing a with
  | nil => simp [numberOf]
  | cons b bits ih =>
    simp only [numberOf, List.foldl_cons, List.length_cons]
    rw [ih, ih (2 * 0 + b.toNat), pow_succ]
    ring

@[simp] theorem numberOf_nil : numberOf [] = 0 := rfl

theorem numberOf_append (xs ys : List Bool) : numberOf (xs ++ ys) = numberOf xs * 2 ^ ys.length + numberOf ys := by
  rw [numberOf, List.foldl_append, foldl_number]; rfl

theorem numberOf_cons (b : Bool) (bits : List Bool) :
    numberOf (b :: bits) = b.toNat * 2 ^ bits.length + numberOf bits := by
  simpa [numberOf] using numberOf_append [b] bits

theorem numberOf_lt (bits : List Bool) : numberOf bits < 2 ^ bits.length := by
  induction bits with
  | nil => simp
  | cons b bits ih =>
    rw [numberOf_cons, List.length_cons, pow_succ]
    have := b.toNat_lt
    nlinarith

/-- v[n-1:0] as a number is v mod 2^n (R7). -/
theorem numberOf_bitsOf (v n : Nat) : numberOf (bitsOf v n) = v % 2 ^ n := by
  induction n with
  | zero => simp [bitsOf, Nat.mod_one]
  | succ n ih =>
    rw [bitsOf, numberOf_cons, ih, length_bitsOf, Nat.mod_pow_succ, Nat.toNat_testBit, Nat.mul_comm, Nat.add_comm]

theorem bitsOf_mod (v n : Nat) : bitsOf (v % 2 ^ n) n = bitsOf v n := by
  apply List.ext_getElem?
  intro j
  by_cases h : j < n
  · rw [getElem?_bitsOf _ _ _ h, getElem?_bitsOf _ _ _ h, Nat.testBit_mod_two_pow]
    simp; omega
  · rw [List.getElem?_eq_none (by simpa using h), List.getElem?_eq_none (by simpa using h)]

theorem bitsOf_add_two_pow (v n : Nat) (h : v < 2 ^ n) (b : Bool) :
    bitsOf (b.toNat * 2 ^ n + v) n = bitsOf v n := by
  rw [← bitsOf_mod (b.toNat * 2 ^ n + v), Nat.add_comm, Nat.add_mul_mod_self_right, Nat.mod_eq_of_lt h]

/-- A bit string is the bits of the number it holds (R8). -/
theorem bitsOf_numberOf (bits : List Bool) : bitsOf (numberOf bits) bits.length = bits := by
  induction bits with
  | nil => rfl
  | cons b bits ih =>
    rw [numberOf_cons, List.length_cons, bitsOf, bitsOf_add_two_pow _ _ (numberOf_lt bits), ih]
    congr 1
    rw [Nat.mul_comm, Nat.testBit_two_pow_mul_add _ (numberOf_lt bits)]
    cases b <;> simp

/-! ## Bytes and their bits -/

@[simp] theorem length_byteBits (b : Byte) : (byteBits b).length = 8 := by simp [byteBits]

@[simp] theorem streamBits_nil : streamBits [] = [] := rfl

@[simp] theorem streamBits_cons (b : Byte) (bs : List Byte) : streamBits (b :: bs) = byteBits b ++ streamBits bs := rfl

@[simp] theorem streamBits_append (xs ys : List Byte) : streamBits (xs ++ ys) = streamBits xs ++ streamBits ys := by
  simp [streamBits]

@[simp] theorem length_streamBits (bs : List Byte) : (streamBits bs).length = 8 * bs.length := by
  induction bs with
  | nil => rfl
  | cons b bs ih => simp [ih]; omega

theorem getElem?_byteBits (b : Byte) (j : Nat) (h : j < 8) : (byteBits b)[j]? = some (byteBit b j) := by
  rw [byteBits, getElem?_bitsOf _ _ _ h, byteBit, BitVec.testBit_toNat]

/-- bit(B, p) (R8). -/
theorem getElem?_streamBits (bs : List Byte) (p : Nat) :
    (streamBits bs)[p]? = (bs[p / 8]?).map fun b => byteBit b (p % 8) := by
  induction bs generalizing p with
  | nil => simp
  | cons b bs ih =>
    rw [streamBits_cons]
    by_cases h : p < 8
    · rw [List.getElem?_append_left (by simpa using h), getElem?_byteBits b p h,
        Nat.div_eq_of_lt h, Nat.mod_eq_of_lt h]
      rfl
    · rw [List.getElem?_append_right (by simpa using h), ih]
      obtain ⟨q, rfl⟩ : ∃ q, p = q + 8 := ⟨p - 8, by omega⟩
      simp

/-- bit(DATA, p) is the bit of DATA's bit string at `p`. -/
theorem Memory.bit_eq (m : Memory) (h : m.wf = true) (p : Nat) : m.bit p = (streamBits m.bytes)[p]? := by
  rw [Memory.bit, Memory.read_eq m h, getElem?_streamBits]

/-- The bits of a byte determine it. -/
theorem byteBits_injective (a b : Byte) (h : byteBits a = byteBits b) : a = b := by
  have := congrArg numberOf h
  simp only [byteBits, numberOf_bitsOf] at this
  exact BitVec.eq_of_toNat_eq (by have := a.isLt; have := b.isLt; omega)

theorem streamBits_injective (xs ys : List Byte) (h : streamBits xs = streamBits ys) : xs = ys := by
  induction xs generalizing ys with
  | nil =>
    have := congrArg List.length h
    simp only [length_streamBits, List.length_nil] at this
    exact (List.length_eq_zero_iff.mp (by omega)).symm
  | cons x xs ih =>
    cases ys with
    | nil =>
      have := congrArg List.length h
      simp at this
    | cons y ys =>
      simp only [streamBits_cons] at h
      obtain ⟨h1, h2⟩ := List.append_inj h (by simp)
      rw [byteBits_injective x y h1, ih ys h2]

/-! ## A bit string stored in bytes -/

@[simp] theorem length_bytesOf (bits : List Bool) : (bytesOf bits).length = (bits.length + 7) / 8 := by simp [bytesOf]

theorem byteBits_byteAt (bits : List Bool) (i : Nat) :
    byteBits (byteAt bits i) = (List.range 8).map fun j => bits[8 * i + j]?.getD false := by
  have hlt := numberOf_lt ((List.range 8).map fun j => bits[8 * i + j]?.getD false)
  have hb := bitsOf_numberOf ((List.range 8).map fun j => bits[8 * i + j]?.getD false)
  simp only [List.length_map, List.length_range] at hlt hb
  rw [byteBits, byteAt, BitVec.toNat_ofNat, Nat.mod_eq_of_lt hlt, hb]

/-- The stored bytes hold the bit string followed by its pad (R79). -/
theorem streamBits_bytesOf (bits : List Bool) :
    streamBits (bytesOf bits) = bits ++ List.replicate (padLength bits.length) false := by
  have hlen : 8 * ((bits.length + 7) / 8) = bits.length + padLength bits.length := by unfold padLength; omega
  apply List.ext_getElem?
  intro p
  rw [getElem?_streamBits]
  by_cases hp : p < 8 * ((bits.length + 7) / 8)
  · have hq : p / 8 < (bits.length + 7) / 8 := by omega
    have hb : (bytesOf bits)[p / 8]? = some (byteAt bits (p / 8)) := by simp [bytesOf, hq]
    have hbit := getElem?_byteBits (byteAt bits (p / 8)) (p % 8) (by omega)
    rw [byteBits_byteAt] at hbit
    have h8 : p % 8 < 8 := by omega
    simp only [List.getElem?_map, List.getElem?_range h8, Option.map_some, Nat.div_add_mod] at hbit
    rw [hb, Option.map_some, ← hbit]
    by_cases hin : p < bits.length
    · rw [List.getElem?_append_left hin]; simp [hin]
    · rw [List.getElem?_append_right (by omega), List.getElem?_eq_none (by omega)]
      simp only [Option.getD_none]
      rw [List.getElem?_replicate]
      simp; omega
  · rw [List.getElem?_eq_none (by simp; omega), List.getElem?_eq_none (by simp; omega)]
    rfl

end Sys2Proof.Machine
end

