-- ==== Sys2Proof/Laws/Writer.lean ====
section
/-! SUPPORT. The laws of the writer (R114): what APPEND, FINISH and SPLICE do to a context's bit string, and the invariant
of R29. -/

namespace Sys2Proof.Machine

open Sys2Proof

theorem getLsbD_bit_shift (b : Bool) (n i : Nat) :
    (BitVec.ofNat 8 b.toNat <<< n).getLsbD i = (decide (i < 8) && (decide (i = n) && b)) := by
  rcases lt_trichotomy i n with h | h | h
  · simp [BitVec.getLsbD_shiftLeft, h, Nat.ne_of_lt h]
  · subst h; cases b <;> simp
  · have h0 : i - n ≠ 0 := by omega
    cases b <;> simp [BitVec.getLsbD_shiftLeft, Nat.ne_of_gt h, h0]

@[simp] theorem Writer.empty_bits : Writer.empty.bits = [] := rfl

theorem Writer.empty_Inv : Writer.empty.Inv := ⟨by decide, by simp [Writer.empty]⟩

theorem Writer.length_bits (x : Writer) (h : x.Inv) : x.bits.length = 8 * x.out.length + x.k := by
  have := h.1
  simp [Writer.bits]; omega

/-- The partial byte with one more bit holds the old bits and then the new one. -/
theorem take_pushed_byte (p : Byte) (k : Nat) (b : Bool) (hk : k < 8) (hp : ∀ j, j < 8 - k → p.getLsbD j = false) :
    (byteBits (p ||| (BitVec.ofNat 8 b.toNat <<< (7 - k)))).take (k + 1) = (byteBits p).take k ++ [b] := by
  apply List.ext_getElem?
  intro j
  rcases lt_trichotomy j k with h | h | h
  · rw [List.getElem?_take_of_lt (by omega), List.getElem?_append_left (by simp; omega),
      List.getElem?_take_of_lt h, getElem?_byteBits _ _ (by omega), getElem?_byteBits _ _ (by omega)]
    simp only [byteBit, BitVec.getLsbD_or, getLsbD_bit_shift]
    simp [show ¬(7 - j = 7 - k) by omega]
  · subst h
    rw [List.getElem?_take_of_lt (by omega), List.getElem?_append_right (by simp),
      getElem?_byteBits _ _ (by omega)]
    simp only [byteBit, BitVec.getLsbD_or, getLsbD_bit_shift, hp (7 - j) (by omega)]
    simp [show 7 - j < 8 by omega, Nat.min_eq_left (show j ≤ 8 by omega)]
  · rw [List.getElem?_eq_none (by simp; omega), List.getElem?_eq_none (by simp; omega)]

theorem Writer.pushBit_Inv (x : Writer) (b : Bool) (h : x.Inv) : (x.pushBit b).Inv := by
  obtain ⟨hk, hp⟩ := h
  unfold Writer.pushBit
  split
  · exact ⟨by simp, by simp⟩
  · rename_i hne
    refine ⟨by simp; omega, fun j hj => ?_⟩
    simp only [BitVec.getLsbD_or, getLsbD_bit_shift]
    simp only at hj
    rw [hp j (by omega)]
    simp [show ¬(j = 7 - x.k) by omega]

/-- One bit pushed is one bit more at the end of the context's bit string. -/
theorem Writer.pushBit_bits (x : Writer) (b : Bool) (h : x.Inv) : (x.pushBit b).bits = x.bits ++ [b] := by
  have hb := take_pushed_byte x.p x.k b h.1 h.2
  unfold Writer.pushBit Writer.bits
  split
  · rename_i h8
    rw [h8, List.take_of_length_le (by simp)] at hb
    simp [hb]
  · simp [hb]

@[simp] theorem Writer.pushBit_finished (x : Writer) (b : Bool) : (x.pushBit b).finished = x.finished := by
  unfold Writer.pushBit; split <;> rfl

theorem Writer.pushBits_Inv (x : Writer) (bits : List Bool) (h : x.Inv) : (x.pushBits bits).Inv := by
  induction bits generalizing x with
  | nil => exact h
  | cons b bits ih => exact ih _ (x.pushBit_Inv b h)

/-- R114 (a): bits pushed stand at the end of the context's bit string. -/
theorem Writer.pushBits_bits (x : Writer) (bits : List Bool) (h : x.Inv) :
    (x.pushBits bits).bits = x.bits ++ bits := by
  induction bits generalizing x with
  | nil => simp [Writer.pushBits]
  | cons b bits ih =>
    have := ih _ (x.pushBit_Inv b h)
    rw [x.pushBit_bits b h] at this
    simpa [Writer.pushBits] using this

@[simp] theorem Writer.pushBits_finished (x : Writer) (bits : List Bool) :
    (x.pushBits bits).finished = x.finished := by
  induction bits generalizing x with
  | nil => rfl
  | cons b bits ih => simpa [Writer.pushBits] using ih (x.pushBit b)

theorem Writer.pushBits_append (x : Writer) (as bs : List Bool) :
    x.pushBits (as ++ bs) = (x.pushBits as).pushBits bs := by simp [Writer.pushBits]

theorem Writer.flush_Inv (x : Writer) (h : x.Inv) : x.flush.Inv := by
  unfold Writer.flush
  split
  · exact h
  · exact ⟨by simp, by simp⟩

@[simp] theorem Writer.flush_k (x : Writer) : x.flush.k = 0 := by unfold Writer.flush; split <;> simp_all

@[simp] theorem Writer.flush_finished (x : Writer) : x.flush.finished = true := by unfold Writer.flush; split <;> rfl

/-- The pad of a partial byte is zero bits (R29, R113). -/
theorem drop_partial_byte (p : Byte) (k : Nat) (hp : ∀ j, j < 8 - k → p.getLsbD j = false) :
    (byteBits p).drop k = List.replicate (8 - k) false := by
  apply List.ext_getElem?
  intro j
  rw [List.getElem?_drop, List.getElem?_replicate]
  split
  · rw [getElem?_byteBits _ _ (by omega), byteBit, hp _ (by omega)]
  · exact List.getElem?_eq_none (by simp; omega)

/-- R114 (c): FINISH leaves the bits followed by zero bits up to the next byte boundary. -/
theorem Writer.flush_streamBits (x : Writer) (h : x.Inv) :
    streamBits x.flush.out = x.bits ++ List.replicate (padLength x.bits.length) false := by
  have hl := x.length_bits h
  have hk := h.1
  unfold Writer.flush
  split
  · rename_i h0
    have : padLength x.bits.length = 0 := by unfold padLength; omega
    rw [this]
    simp [Writer.bits, h0]
  · rename_i h0
    have hpad : padLength x.bits.length = 8 - x.k := by unfold padLength; omega
    rw [hpad, ← drop_partial_byte x.p x.k h.2]
    simp [Writer.bits, List.take_append_drop]

/-- FINISH leaves the context's bit string stored in bytes. -/
theorem Writer.flush_out (x : Writer) (h : x.Inv) : x.flush.out = bytesOf x.bits :=
  streamBits_injective _ _ (by rw [x.flush_streamBits h, streamBits_bytesOf])

/-! ## The operations on the state -/

/-- FINISH on a context that has not been finished (R113). -/
theorem State.finish_eq (s : State) (c : Ctx) (hf : (s.ctx c).finished = false) :
    s.finish c = .ok (s.setCtx c (s.ctx c).flush) := by
  unfold State.finish; rw [if_neg (by simp [hf])]

/-- A second FINISH is refused (R248 (a), U2). -/
theorem State.finish_finished (s : State) (c : Ctx) (hf : (s.ctx c).finished = true) :
    s.finish c = .refuse .finishAfterFinish := by
  unfold State.finish; rw [if_pos hf]

/-- If FINISH succeeds, this is its only case and result. -/
theorem State.finish_ok (s s' : State) (c : Ctx) (h : s.finish c = .ok s') :
    (s.ctx c).finished = false ∧ s' = s.setCtx c (s.ctx c).flush := by
  cases hf : (s.ctx c).finished with
  | true => rw [s.finish_finished c hf] at h; cases h
  | false => rw [s.finish_eq c hf] at h; exact ⟨rfl, (Micro.ok.inj h).symm⟩

/-- FINISH never raises (R113). -/
theorem State.finish_not_raised (s s' : State) (c : Ctx) (r : Raise) : s.finish c ≠ .raised r s' := by
  unfold State.finish; split <;> simp

/-- What APPEND can do: everything it answers with, and when. -/
theorem State.append_eq (s : State) (c : Ctx) (value : Word) (width : Nat) (lb : Bool)
    (hw : width ≤ 32) (hlb : lb = true → width ≠ 0) (hf : (s.ctx c).finished = false) :
    s.append c value width lb =
      .ok (s.setCtx c ((s.ctx c).pushBits (bitsOf value.toNat (effWidth width lb)))) := by
  unfold State.append
  rw [if_neg (by unfold wMax; omega), if_neg (by rintro ⟨h1, h2⟩; exact hlb h1 h2), if_neg (by simp [hf])]

/-- APPEND of a header field. -/
theorem State.append_H (s : State) (value : Word) (width : Nat) (hw : width ≤ 32) (hf : s.hctx.finished = false) :
    s.append .H value width false = .ok (s.setCtx .H (s.hctx.pushBits (bitsOf value.toNat width))) :=
  s.append_eq .H value width false hw (by simp) hf

/-- APPEND of a value field, its leading bit left out. -/
theorem State.append_V_lb (s : State) (value : Word) (width : Nat) (hw : width ≤ 32) (h0 : width ≠ 0)
    (hf : s.vctx.finished = false) :
    s.append .V value width true = .ok (s.setCtx .V (s.vctx.pushBits (bitsOf value.toNat (width - 1)))) :=
  s.append_eq .V value width true hw (fun _ => h0) hf

theorem State.append_wide (s : State) (c : Ctx) (value : Word) (width : Nat) (lb : Bool) (hw : 32 < width) :
    s.append c value width lb = .raised (.widthOutOfRange width) s := by
  unfold State.append; rw [if_pos (by unfold wMax; omega)]

/-- If APPEND succeeds, these are its only case and result. -/
theorem State.append_ok (s s' : State) (c : Ctx) (value : Word) (width : Nat) (lb : Bool)
    (h : s.append c value width lb = .ok s') :
    width ≤ 32 ∧ (lb = true → width ≠ 0) ∧ (s.ctx c).finished = false ∧
      s' = s.setCtx c ((s.ctx c).pushBits (bitsOf value.toNat (effWidth width lb))) := by
  unfold State.append at h
  split at h
  · cases h
  · split at h
    · cases h
    · split at h
      · cases h
      · rename_i h1 h2 h3
        refine ⟨by unfold wMax at h1; omega, fun hl hw => h2 ⟨hl, hw⟩, by simpa using h3, ?_⟩
        exact (Micro.ok.inj h).symm

/-- If APPEND raises, it is for the width, and the state is untouched (R112 (a)). -/
theorem State.append_raised (s s' : State) (c : Ctx) (value : Word) (width : Nat) (lb : Bool) (r : Raise)
    (h : s.append c value width lb = .raised r s') : 32 < width ∧ r = .widthOutOfRange width ∧ s' = s := by
  unfold State.append at h
  split at h
  · rename_i hw
    cases h
    exact ⟨hw, rfl, rfl⟩
  · split at h
    · cases h
    · split at h <;> cases h

theorem bitsOf_bit (b : Bool) : bitsOf (BitVec.ofNat 32 b.toNat).toNat (effWidth 1 false) = [b] := by
  cases b <;> decide

/-- SPLICE's loop appends its bits one by one (R152, R114 (d)). -/
theorem State.appendEach_eq (bits : List Bool) (s : State) (hf : s.hctx.finished = false) :
    State.appendEach bits s = .ok (s.setCtx .H (s.hctx.pushBits bits)) := by
  induction bits generalizing s with
  | nil => rfl
  | cons b bits ih =>
    rw [State.appendEach, State.append_eq _ _ _ _ _ (by omega) (by simp) (by simpa using hf), bitsOf_bit]
    simp only [Micro.andThen]
    rw [ih _ (by simpa using hf)]
    rfl

theorem State.splice_eq (n : Nat) (s : State) (hn : n ≤ 8 * s.vctx.out.length) (hf : s.hctx.finished = false) :
    s.splice n = .ok (s.setCtx .H (s.hctx.pushBits ((streamBits s.vctx.out).take n))) := by
  unfold State.splice
  rw [if_pos hn, State.appendEach_eq _ _ hf]

theorem State.appendEach_finished (b : Bool) (bits : List Bool) (s : State) (hf : s.hctx.finished = true) :
    State.appendEach (b :: bits) s = .refuse .appendAfterFinish := by
  simp [State.appendEach, State.append, wMax, hf, Micro.andThen]

/-- Whatever SPLICE's loop answers, a state it leaves differs in H only. -/
theorem State.appendEach_ok (bits : List Bool) (s s' : State) (h : State.appendEach bits s = .ok s') :
    s' = s.setCtx .H (s.hctx.pushBits bits) := by
  cases hf : s.hctx.finished with
  | false => rw [State.appendEach_eq bits s hf] at h; exact (Micro.ok.inj h).symm
  | true =>
    cases bits with
    | nil => exact (Micro.ok.inj h).symm
    | cons b bits => rw [State.appendEach_finished b bits s hf] at h; cases h

/-- SPLICE never raises (R152). -/
theorem State.splice_not_raised (n : Nat) (s s' : State) (r : Raise) : s.splice n ≠ .raised r s' := by
  unfold State.splice
  split
  · cases hf : s.hctx.finished with
    | false => rw [State.appendEach_eq _ s hf]; simp
    | true =>
      cases hb : (streamBits s.vctx.out).take n with
      | nil => simp [State.appendEach]
      | cons b bits => rw [State.appendEach_finished b bits s hf]; simp
  · simp

theorem State.splice_ok (n : Nat) (s s' : State) (h : s.splice n = .ok s') :
    n ≤ 8 * s.vctx.out.length ∧ s' = s.setCtx .H (s.hctx.pushBits ((streamBits s.vctx.out).take n)) := by
  unfold State.splice at h
  split at h
  · exact ⟨‹_›, State.appendEach_ok _ s s' h⟩
  · cases h

end Sys2Proof.Machine
end

