-- ==== Sys2Proof/Laws/Abandon.lean ====
section
/-! SUPPORT. The end of a command keeps the working state within its limits (R28 to R34), whatever the free values are. -/

namespace Sys2Proof.Machine

open Sys2Proof

theorem Config.admits_within (cap : Option Nat) (n : Nat) : Config.admits cap (Config.within cap n) = true := by
  cases cap with
  | none => rfl
  | some m =>
    exact decide_eq_true (Nat.le_of_lt_succ (Nat.mod_lt n (Nat.add_one_pos m)))

theorem Config.admits_prefixWithin {α : Type} (cap : Option Nat) (l : List α) :
    Config.admits cap (Config.prefixWithin cap l).length = true := by
  cases cap with
  | none => rfl
  | some m =>
    simp only [Config.admits, Config.prefixWithin, decide_eq_true_eq, List.length_take]
    omega

theorem Writer.leaveWithin_Inv (cap : Option Nat) (x : Writer) (bits : List Bool) : (x.leaveWithin cap bits).Inv :=
  Writer.pushBits_Inv _ _ ⟨by simp, by simp⟩

/-- The bytes a context holds are the whole bytes among its bits (R29). -/
theorem Writer.length_out (x : Writer) (h : x.Inv) : x.out.length = x.bits.length / 8 := by
  have := x.length_bits h
  have := h.1
  omega

theorem Writer.leaveWithin_fits (cap : Option Nat) (x : Writer) (bits : List Bool) :
    Config.admits cap (x.leaveWithin cap bits).out.length = true := by
  cases cap with
  | none => rfl
  | some m =>
    rw [Writer.length_out _ (Writer.leaveWithin_Inv _ x bits)]
    unfold Writer.leaveWithin
    rw [Writer.pushBits_bits _ _ ⟨by simp, by simp⟩]
    simp only [Config.admits, Config.prefixWithin, Option.map_some, decide_eq_true_eq, Writer.bits, streamBits,
      List.flatMap_nil, List.take_zero, List.nil_append, List.length_take]
    omega

/-- ENCODE's working state after its call keeps its streams within their capacities (R28). -/
theorem State.abandonWriter_streamsFit (s : State) : s.abandonWriter.StreamsFit :=
  ⟨Writer.leaveWithin_fits _ _ _, Writer.leaveWithin_fits _ _ _⟩

/-- The limits of the working state (R28 to R34). -/
structure WorkingFits (s : State) : Prop where
  hInv : s.hctx.Inv
  vInv : s.vctx.Inv
  tFits : ∀ f, s.cfg.maxF = some f → s.t ≤ 31 * f
  lFits : Config.admits s.cfg.maxF s.l.length = true
  rFits : Config.admits s.cfg.maxF s.r.length = true
  wFits : s.w ≤ 32
  phaseIdle : s.seq.phase = .idle
  idxFits : Config.admits s.cfg.maxF s.seq.idx = true

theorem within_le (f : Nat) (cap : Option Nat) (n : Nat) (h : cap = some f) :
    Config.within (cap.map (31 * ·)) n ≤ 31 * f := by
  subst h
  have := Nat.mod_lt n (Nat.add_one_pos (31 * f))
  simp only [Option.map_some, Config.within]
  omega

/-- After a fault only the limits are known of the working state, and SEQ is (IDLE, 0) (R219, U6). -/
theorem State.raise_working (s : State) (c : Command) (k : Raise) (hc : ∀ o, c ≠ .illegal o) :
    WorkingFits (s.raise c k) := by
  have idx : Config.admits s.cfg.maxF 0 = true := by cases s.cfg.maxF <;> simp [Config.admits]
  cases c with
  | illegal o => exact absurd rfl (hc o)
  | clr | pushhw | pushval | pushb | encode | decode =>
    exact ⟨Writer.leaveWithin_Inv _ _ _, Writer.leaveWithin_Inv _ _ _, fun f hf => within_le f _ _ hf,
      Config.admits_prefixWithin _ _, Config.admits_prefixWithin _ _,
      Nat.le_of_lt_succ (Nat.mod_lt _ (by omega)), rfl, idx⟩

/-- After a successful ENCODE only the limits are known of its working state; the reader's is as before (R134, U6). -/
theorem State.complete_encode_working (s : State) (hl : Config.admits s.cfg.maxF s.l.length = true)
    (hr : Config.admits s.cfg.maxF s.r.length = true) : WorkingFits (s.complete .encode) :=
  ⟨Writer.leaveWithin_Inv _ _ _, Writer.leaveWithin_Inv _ _ _, fun f hf => within_le f _ _ hf, hl, hr,
    Nat.le_of_lt_succ (Nat.mod_lt _ (by omega)), rfl, Config.admits_within _ _⟩

/-- After a successful DECODE only the limits are known of its working state; the writer's is as before (R115, U6). -/
theorem State.complete_decode_working (s : State) (hh : s.hctx.Inv) (hv : s.vctx.Inv)
    (ht : ∀ f, s.cfg.maxF = some f → s.t ≤ 31 * f) (hw : s.w ≤ 32) : WorkingFits (s.complete .decode) :=
  ⟨hh, hv, ht, Config.admits_prefixWithin _ _, Config.admits_prefixWithin _ _, hw, rfl, Config.admits_within _ _⟩

end Sys2Proof.Machine
end

