-- ==== Sys2Proof/Laws/BitWidth.lean ====
section
/-! SUPPORT. The laws of bw (R102). -/

namespace Sys2Proof.Machine

open Sys2Proof

theorem bwBelow_le (v : Word) (n : Nat) : bwBelow v n ≤ n := by
  induction n with
  | zero => simp [bwBelow]
  | succ n ih => simp only [bwBelow]; split <;> omega

theorem bw_le (v : Word) : bw v ≤ 32 := bwBelow_le v 32

/-- All bits of `v` from bw on and below `n` are 0. -/
theorem bwBelow_above (v : Word) (n j : Nat) (h : bwBelow v n ≤ j) (hj : j < n) : v.getLsbD j = false := by
  induction n with
  | zero => omega
  | succ n ih =>
    simp only [bwBelow] at h
    split at h
    · omega
    · rename_i hb
      by_cases hjn : j = n
      · subst hjn; simpa using hb
      · exact ih h (by omega)

theorem bwBelow_top (v : Word) (n : Nat) (h : bwBelow v n ≠ 0) : v.getLsbD (bwBelow v n - 1) = true := by
  induction n with
  | zero => simp [bwBelow] at h
  | succ n ih =>
    simp only [bwBelow] at h ⊢
    split
    · simpa
    · rename_i hb; simp only [hb] at h; exact ih (by simpa using h)

theorem lt_two_pow_bw (v : Word) : v.toNat < 2 ^ bw v := by
  apply Nat.lt_pow_two_of_testBit
  intro j hj
  by_cases h : j < 32
  · exact bwBelow_above v 32 j hj h
  · exact BitVec.testBit_toNat v ▸ BitVec.getLsbD_of_ge v j (by omega)

theorem two_pow_le_of_bw (v : Word) (h : bw v ≠ 0) : 2 ^ (bw v - 1) ≤ v.toNat :=
  Nat.ge_two_pow_of_testBit (by rw [BitVec.testBit_toNat]; exact bwBelow_top v 32 h)

theorem bw_eq_zero_iff (v : Word) : bw v = 0 ↔ v = 0#32 := by
  constructor
  · intro h
    have := lt_two_pow_bw v
    rw [h] at this
    exact BitVec.eq_of_toNat_eq (by simp; omega)
  · rintro rfl; decide

/-- v < 2^k exactly when bw(v) <= k (R102 (f)). -/
theorem lt_two_pow_iff_bw_le (v : Word) (k : Nat) : v.toNat < 2 ^ k ↔ bw v ≤ k := by
  constructor
  · intro h
    by_contra hk
    have h1 : 2 ^ k ≤ 2 ^ (bw v - 1) := Nat.pow_le_pow_right (by omega) (by omega)
    have h2 := two_pow_le_of_bw v (by omega)
    omega
  · intro h
    exact lt_of_lt_of_le (lt_two_pow_bw v) (Nat.pow_le_pow_right (by omega) h)

end Sys2Proof.Machine
end

