-- ==== Sys2Proof/Laws/Reader.lean ====
section
/-! SUPPORT. The laws of the reader (R131 to R133): what POP answers, and when. -/

namespace Sys2Proof.Machine

open Sys2Proof

theorem fieldAt_lt (bits : List Bool) (p n : Nat) : fieldAt bits p n < 2 ^ n := by
  refine lt_of_lt_of_le (numberOf_lt _) (Nat.pow_le_pow_right (by omega) ?_)
  simp

/-- The first bit of a field is its most significant (R8). -/
theorem fieldAt_succ (bits : List Bool) (p n : Nat) (b : Bool) (h : bits[p]? = some b) (hn : p + (n + 1) ≤ bits.length) :
    fieldAt bits p (n + 1) = b.toNat * 2 ^ n + fieldAt bits (p + 1) n := by
  have hlt : p < bits.length := by omega
  have hb : bits[p] = b := by simpa [hlt] using h
  unfold fieldAt
  rw [List.drop_eq_getElem_cons hlt, List.take_succ_cons, numberOf_cons, hb, List.length_take, List.length_drop,
    Nat.min_eq_left (by omega)]

/-- POP's loop reads a field of DATA's bit string. -/
theorem Memory.readBits_eq (m : Memory) (h : m.wf = true) (p n acc : Nat) (hn : p + n ≤ 8 * m.dlen) :
    m.readBits p n acc = some (acc * 2 ^ n + fieldAt (streamBits m.bytes) p n) := by
  induction n generalizing p acc with
  | zero => simp [Memory.readBits, fieldAt]
  | succ n ih =>
    have hlen : (streamBits m.bytes).length = 8 * m.dlen := by simp
    obtain ⟨b, hb⟩ : ∃ b, (streamBits m.bytes)[p]? = some b :=
      ⟨(streamBits m.bytes)[p]'(by omega), by simp [show p < 8 * m.dlen by omega]⟩
    rw [Memory.readBits, Memory.bit_eq m h, hb]
    simp only
    rw [ih (p + 1) _ (by omega), fieldAt_succ _ _ _ _ hb (by omega), pow_succ]
    congr 1
    ring

/-- POP's result as a number (R131, R132 (i)). -/
theorem popResult_toNat (bits width : Nat) (lb : Bool) (hw : width ≤ 32)
    (hb : bits < 2 ^ effWidth width lb) :
    (popResult bits width lb).toNat = if lb then 2 ^ (width - 1) + bits else bits := by
  cases lb with
  | false =>
    have : bits < 2 ^ 32 := lt_of_lt_of_le hb (Nat.pow_le_pow_right (by omega) hw)
    simpa [popResult] using this
  | true =>
    simp only [effWidth, if_true] at hb
    have hor : bits ||| 2 ^ (width - 1) = 2 ^ (width - 1) + bits := by
      have := Nat.two_pow_add_eq_or_of_lt hb 1
      rw [Nat.mul_one] at this
      rw [this, Nat.or_comm]
    have hlt : 2 ^ (width - 1) + bits < 2 ^ 32 := by
      have h1 : 2 ^ (width - 1) + 2 ^ (width - 1) = 2 ^ (width - 1 + 1) := by rw [pow_succ]; ring
      have h2 : 2 ^ (width - 1 + 1) ≤ 2 ^ 32 := Nat.pow_le_pow_right (by omega) (by omega)
      omega
    simp only [popResult, if_true, hor, BitVec.toNat_ofNat]
    exact Nat.mod_eq_of_lt hlt

/-! ## POP -/

theorem State.pop_zero (s : State) (lb : Bool) : s.pop 0 lb = .ok { s with popped := 0#32 } := rfl

theorem State.pop_wide (s : State) (width : Nat) (lb : Bool) (h : 32 < width) :
    s.pop width lb = .raised (.widthOutOfRange width) s := by
  unfold State.pop
  rw [if_neg (by omega), if_pos (by unfold wMax; omega)]

theorem State.pop_short (s : State) (width : Nat) (lb : Bool) (h0 : width ≠ 0) (hw : width ≤ 32)
    (h : 8 * s.data.dlen - s.rdpos < effWidth width lb) :
    s.pop width lb = .raised (.insufficientData (effWidth width lb - (8 * s.data.dlen - s.rdpos))) s := by
  unfold State.pop
  rw [if_neg h0, if_neg (by unfold wMax; omega), if_pos h]

theorem State.pop_eq (s : State) (width : Nat) (lb : Bool) (hd : s.data.wf = true) (h0 : width ≠ 0) (hw : width ≤ 32)
    (h : effWidth width lb ≤ 8 * s.data.dlen - s.rdpos) :
    s.pop width lb = .ok { s with
      rdpos := s.rdpos + effWidth width lb
      popped := popResult (fieldAt (streamBits s.data.bytes) s.rdpos (effWidth width lb)) width lb } := by
  unfold State.pop
  rw [if_neg h0, if_neg (by unfold wMax; omega), if_neg (by omega)]
  by_cases hz : effWidth width lb = 0
  · simp [hz, Memory.readBits, fieldAt]
  · rw [Memory.readBits_eq _ hd _ _ _ (by omega)]
    simp

/-- What POP can do: a state it leaves differs in RD.POS and the result only, RD.POS not lower. -/
theorem State.pop_ok (s s' : State) (width : Nat) (lb : Bool) (h : s.pop width lb = .ok s') :
    width ≤ 32 ∧ ∃ x, s' = { s with rdpos := s.rdpos + (if width = 0 then 0 else effWidth width lb), popped := x } ∧
      (width ≠ 0 → effWidth width lb ≤ 8 * s.data.dlen - s.rdpos) := by
  unfold State.pop at h
  split at h
  · rename_i h0
    cases h
    exact ⟨by omega, 0#32, by simp [h0], fun hne => absurd h0 hne⟩
  · rename_i h0
    split at h
    · cases h
    · rename_i hw
      split at h
      · cases h
      · rename_i hs
        split at h
        · cases h
        · cases h
          exact ⟨by unfold wMax at hw; omega, _, by rw [if_neg h0], fun _ => by omega⟩

/-- What POP can raise: WidthOutOfRange first, then InsufficientData; the state is untouched (R132). -/
theorem State.pop_raised (s s' : State) (width : Nat) (lb : Bool) (r : Raise) (h : s.pop width lb = .raised r s') :
    s' = s ∧ ((32 < width ∧ r = .widthOutOfRange width) ∨
      (width ≠ 0 ∧ width ≤ 32 ∧ 8 * s.data.dlen - s.rdpos < effWidth width lb ∧
        r = .insufficientData (effWidth width lb - (8 * s.data.dlen - s.rdpos)))) := by
  unfold State.pop at h
  split at h
  · cases h
  · rename_i h0
    split at h
    · rename_i hw
      cases h
      exact ⟨rfl, .inl ⟨hw, rfl⟩⟩
    · rename_i hw
      split at h
      · rename_i hs
        cases h
        exact ⟨rfl, .inr ⟨h0, by unfold wMax at hw; omega, hs, rfl⟩⟩
      · split at h <;> cases h

end Sys2Proof.Machine
end

