-- ==== Sys2Proof/Laws/Decoder.lean ====
section
/-! SUPPORT. What DECODE's micro-operations do, field by field and together (R171, R218). -/

namespace Sys2Proof.Machine

open Sys2Proof

/-- What the micro-operations of DECODE before its last step may change: RD.POS, the result latch, L, R and SEQ (R171). -/
def DecodeFrame (s s' : State) : Prop :=
  ∃ (P : Nat) (X : Word) (L R : List Word) (Q : Seq),
    s' = { s with rdpos := P, popped := X, l := L, r := R, seq := Q }

theorem DecodeFrame.refl (s : State) : DecodeFrame s s := ⟨s.rdpos, s.popped, s.l, s.r, s.seq, rfl⟩

theorem DecodeFrame.trans {a b c : State} (h₁ : DecodeFrame a b) (h₂ : DecodeFrame b c) : DecodeFrame a c := by
  obtain ⟨P, X, L, R, Q, rfl⟩ := h₁
  obtain ⟨P', X', L', R', Q', rfl⟩ := h₂
  exact ⟨P', X', L', R', Q', rfl⟩

theorem DecodeFrame.data {s s' : State} (h : DecodeFrame s s') : s'.data = s.data := by
  obtain ⟨P, X, L, R, Q, rfl⟩ := h; rfl

/-! ## The header pass -/

/-- The bit lengths header fields from position `p` on hold. -/
def lengthsFrom (bits : List Bool) : Nat → List Byte → List Nat
  | _, [] => []
  | p, h :: hs => fieldAt bits p h.toNat :: lengthsFrom bits (p + h.toNat) hs

@[simp] theorem length_lengthsFrom (bits : List Bool) (p : Nat) (hs : List Byte) :
    (lengthsFrom bits p hs).length = hs.length := by
  induction hs generalizing p with
  | nil => rfl
  | cons h hs ih => simp [lengthsFrom, ih]

theorem getElem?_lengthsFrom (bits : List Bool) (p i : Nat) (hs : List Byte) (hi : i < hs.length) :
    (lengthsFrom bits p hs)[i]? = some (fieldAt bits (p + headerStart hs i) (hs[i]?.getD 0#8).toNat) := by
  induction hs generalizing p i with
  | nil => simp at hi
  | cons h hs ih =>
    cases i with
    | zero => simp [lengthsFrom, headerStart]
    | succ i =>
      have hi' : i < hs.length := by simpa using hi
      simp only [lengthsFrom, List.getElem?_cons_succ]
      rw [ih (p + h.toNat) i hi']
      simp [headerStart, Nat.add_assoc]

theorem lengthsOf_eq (bits : List Bool) (hw : List Byte) : lengthsOf bits hw = lengthsFrom bits 0 hw := by
  apply List.ext_getElem?
  intro i
  by_cases hi : i < hw.length
  · rw [getElem?_lengthsFrom bits 0 i hw hi]
    simp [lengthsOf, hi]
  · rw [List.getElem?_eq_none (by simp [lengthsOf]; omega), List.getElem?_eq_none (by simp; omega)]

@[simp] theorem length_lengthsOf (bits : List Bool) (hw : List Byte) : (lengthsOf bits hw).length = hw.length := by
  simp [lengthsOf]

theorem headerStart_all (hs : List Byte) : headerStart hs hs.length = (hs.map BitVec.toNat).sum := by
  simp [headerStart]

/-- POP of a header field that is there (R131). -/
theorem State.pop_header (s : State) (h : Byte) (hd : s.data.wf = true) (h32 : h.toNat ≤ 32)
    (hp : s.rdpos + h.toNat ≤ 8 * s.data.dlen) :
    ∃ x : Word, x.toNat = fieldAt (streamBits s.data.bytes) s.rdpos h.toNat ∧
      s.pop h.toNat false = .ok { s with rdpos := s.rdpos + h.toNat, popped := x } := by
  by_cases h0 : h.toNat = 0
  · refine ⟨0#32, by simp [h0, fieldAt], ?_⟩
    rw [h0, State.pop_zero]
    rfl
  · have hlt := fieldAt_lt (streamBits s.data.bytes) s.rdpos h.toNat
    refine ⟨_, ?_, s.pop_eq h.toNat false hd h0 h32 (by simp only [effWidth]; split <;> omega)⟩
    rw [popResult_toNat _ _ _ h32 (by simpa [effWidth] using hlt)]
    simp [effWidth]

/-- The header pass over fields that are there fills L with their bit lengths (R171). -/
theorem State.decodeHeaders_ok (hs : List Byte) (i : Nat) (s : State) (hd : s.data.wf = true)
    (h32 : ∀ h ∈ hs, h.toNat ≤ 32) (hp : s.rdpos + (hs.map BitVec.toNat).sum ≤ 8 * s.data.dlen) :
    ∃ s', State.decodeHeaders i hs s = .ok s' ∧ DecodeFrame s s' ∧ s'.r = s.r ∧
      s'.rdpos = s.rdpos + (hs.map BitVec.toNat).sum ∧
      ∃ ls : List Word, s'.l = s.l ++ ls ∧
        ls.map BitVec.toNat = lengthsFrom (streamBits s.data.bytes) s.rdpos hs := by
  induction hs generalizing i s with
  | nil => exact ⟨s, rfl, DecodeFrame.refl s, rfl, by simp, [], by simp, rfl⟩
  | cons h hs ih =>
    simp only [List.map_cons, List.sum_cons] at hp
    obtain ⟨x, hx, hpop⟩ := (s.atSeq .decHdr i).pop_header h hd (h32 h (by simp)) (by simp; omega)
    obtain ⟨s', e, f, hr, hq, ls, hl, hls⟩ := ih (i + 1)
      { (s.atSeq .decHdr i) with rdpos := s.rdpos + h.toNat, popped := x, l := s.l ++ [x] } hd
      (fun y hy => h32 y (by simp [hy])) (by simp; omega)
    refine ⟨s', ?_, DecodeFrame.trans ⟨_, _, _, _, _, rfl⟩ f, hr, ?_, x :: ls, ?_, ?_⟩
    · rw [State.decodeHeaders, hpop]
      exact e
    · rw [hq]; simp; omega
    · rw [hl]; simp
    · simp only [List.map_cons, hls, lengthsFrom]
      rw [hx]; rfl

/-- The fault of a header or value field of `n` bits to read, width operand `w`, at position `p` of a list of
`total` bits (R213, R215). -/
def popFault (w n p total : Nat) : Raise :=
  if 32 < w then .widthOutOfRange w else .insufficientData (p + n - total)

/-- The first header field that is too wide or not there ends the header pass (R218). -/
theorem State.decodeHeaders_fault (pre post : List Byte) (h : Byte) (i : Nat) (s : State) (hd : s.data.wf = true)
    (h32 : ∀ x ∈ pre, x.toNat ≤ 32) (hp : s.rdpos + (pre.map BitVec.toNat).sum ≤ 8 * s.data.dlen)
    (hf : 32 < h.toNat ∨ 8 * s.data.dlen < s.rdpos + (pre.map BitVec.toNat).sum + h.toNat) :
    ∃ s', DecodeFrame s s' ∧ s'.rdpos = s.rdpos + (pre.map BitVec.toNat).sum ∧
      s'.seq = { phase := .decHdr, idx := i + pre.length } ∧ s'.l.length ≤ s.l.length + pre.length ∧ s'.r = s.r ∧
      State.decodeHeaders i (pre ++ h :: post) s =
        .raised (popFault h.toNat h.toNat (s.rdpos + (pre.map BitVec.toNat).sum) (8 * s.data.dlen)) s' := by
  induction pre generalizing i s with
  | nil =>
    simp only [List.map_nil, List.sum_nil, Nat.add_zero] at hp hf ⊢
    refine ⟨s.atSeq .decHdr i, ⟨_, _, _, _, _, rfl⟩, rfl, rfl, by simp, rfl, ?_⟩
    rw [List.nil_append, State.decodeHeaders]
    unfold popFault
    by_cases hw : 32 < h.toNat
    · rw [State.pop_wide _ _ _ hw, if_pos hw]; rfl
    · have hs : 8 * s.data.dlen < s.rdpos + h.toNat := by omega
      rw [State.pop_short _ _ _ (by omega) (by omega) (by simp [effWidth]; omega), if_neg hw]
      simp only [Micro.andThen, effWidth, Bool.false_eq_true, if_false, State.atSeq_data, State.atSeq_rdpos]
      congr 2
      omega
  | cons g pre ih =>
    simp only [List.map_cons, List.sum_cons] at hp hf ⊢
    obtain ⟨x, hx, hpop⟩ := (s.atSeq .decHdr i).pop_header g hd (h32 g (by simp)) (by simp; omega)
    obtain ⟨s', f, hq, hseq, hl, hr, e⟩ := ih (i + 1)
      { (s.atSeq .decHdr i) with rdpos := s.rdpos + g.toNat, popped := x, l := s.l ++ [x] } hd
      (fun y hy => h32 y (by simp [hy])) (by simp; omega) (by simp; omega)
    refine ⟨s', DecodeFrame.trans ⟨_, _, _, _, _, rfl⟩ f, ?_, ?_, ?_, hr, ?_⟩
    · rw [hq]; simp; omega
    · rw [hseq, List.length_cons]; congr 1; omega
    · simp at hl ⊢; omega
    · rw [List.cons_append, State.decodeHeaders, hpop]
      simp only [Micro.andThen]
      rw [show s.rdpos + (g.toNat + (pre.map BitVec.toNat).sum) = s.rdpos + g.toNat + (pre.map BitVec.toNat).sum by omega]
      exact e

/-! ## The value pass -/

/-- The bits value fields of these bit lengths take. -/
def valueSpan (ws : List Nat) : Nat := (ws.map (· - 1)).sum

@[simp] theorem valueSpan_nil : valueSpan [] = 0 := rfl
@[simp] theorem valueSpan_cons (w : Nat) (ws : List Nat) : valueSpan (w :: ws) = (w - 1) + valueSpan ws := by
  simp [valueSpan]

/-- The values of fields of these bit lengths from position `p` on. -/
def valuesFrom (bits : List Bool) : Nat → List Nat → List Nat
  | _, [] => []
  | p, w :: ws => valueAt bits p w :: valuesFrom bits (p + (w - 1)) ws

@[simp] theorem length_valuesFrom (bits : List Bool) (p : Nat) (ws : List Nat) :
    (valuesFrom bits p ws).length = ws.length := by
  induction ws generalizing p with
  | nil => rfl
  | cons w ws ih => simp [valuesFrom, ih]

theorem getElem?_valuesFrom (bits : List Bool) (p i : Nat) (ws : List Nat) (hi : i < ws.length) :
    (valuesFrom bits p ws)[i]? = some (valueAt bits (p + valueSpan (ws.take i)) (ws[i]?.getD 0)) := by
  induction ws generalizing p i with
  | nil => simp at hi
  | cons w ws ih =>
    cases i with
    | zero => simp [valuesFrom]
    | succ i =>
      have hi' : i < ws.length := by simpa using hi
      simp only [valuesFrom, List.getElem?_cons_succ]
      rw [ih (p + (w - 1)) i hi']
      simp [Nat.add_assoc]

theorem valuesOf_eq (bits : List Bool) (hw : List Byte) :
    valuesOf bits hw =
      (valuesFrom bits (headerStart hw hw.length) (lengthsOf bits hw)).map (BitVec.ofNat 32) := by
  apply List.ext_getElem?
  intro i
  by_cases hi : i < hw.length
  · rw [List.getElem?_map, getElem?_valuesFrom _ _ _ _ (by simpa using hi)]
    simp [valuesOf, hi, valueStart, valueSpan]
  · rw [List.getElem?_eq_none (by simp [valuesOf]; omega), List.getElem?_eq_none (by simp; omega)]

theorem valueAt_lt (bits : List Bool) (p w : Nat) (hw : w ≤ 32) : valueAt bits p w < 2 ^ 32 := by
  unfold valueAt
  split
  · simp
  · have h1 := fieldAt_lt bits p (w - 1)
    have h2 : 2 ^ (w - 1) + 2 ^ (w - 1) = 2 ^ (w - 1 + 1) := by rw [pow_succ]; ring
    have h3 : 2 ^ (w - 1 + 1) ≤ 2 ^ 32 := Nat.pow_le_pow_right (by omega) (by omega)
    omega

/-- A value field that is there appends its value to R (R171). -/
theorem State.decodeValue_ok (s : State) (i : Nat) (w : Word) (hd : s.data.wf = true) (h32 : w.toNat ≤ 32)
    (hp : s.rdpos + (w.toNat - 1) ≤ 8 * s.data.dlen) :
    ∃ (x y : Word), x.toNat = valueAt (streamBits s.data.bytes) s.rdpos w.toNat ∧
      s.decodeValue i w = .ok { (s.atSeq .decVal i) with
        rdpos := s.rdpos + (w.toNat - 1), popped := y, r := s.r ++ [x] } := by
  unfold State.decodeValue
  by_cases h0 : w = 0#32
  · refine ⟨0#32, s.popped, by simp [h0, valueAt], ?_⟩
    rw [if_pos h0, h0]
    rfl
  · have hne : w.toNat ≠ 0 := fun h => h0 (BitVec.eq_of_toNat_eq (by simpa using h))
    rw [if_neg h0, State.pop_eq (s.atSeq .decVal i) w.toNat true hd hne h32 (by simp [effWidth]; omega)]
    refine ⟨popResult (fieldAt (streamBits s.data.bytes) s.rdpos (w.toNat - 1)) w.toNat true, _, ?_, rfl⟩
    have hlt := fieldAt_lt (streamBits s.data.bytes) s.rdpos (w.toNat - 1)
    rw [popResult_toNat _ _ _ h32 (by simpa [effWidth] using hlt)]
    simp [valueAt, hne]

/-- The value pass over fields that are there fills R with their values (R171). -/
theorem State.decodeValues_ok (ws : List Word) (i : Nat) (s : State) (hd : s.data.wf = true)
    (h32 : ∀ w ∈ ws, w.toNat ≤ 32) (hp : s.rdpos + valueSpan (ws.map BitVec.toNat) ≤ 8 * s.data.dlen) :
    ∃ s', State.decodeValues i ws s = .ok s' ∧ DecodeFrame s s' ∧ s'.l = s.l ∧
      s'.rdpos = s.rdpos + valueSpan (ws.map BitVec.toNat) ∧
      ∃ xs : List Word, s'.r = s.r ++ xs ∧
        xs.map BitVec.toNat = valuesFrom (streamBits s.data.bytes) s.rdpos (ws.map BitVec.toNat) := by
  induction ws generalizing i s with
  | nil => exact ⟨s, rfl, DecodeFrame.refl s, rfl, by simp, [], by simp, rfl⟩
  | cons w ws ih =>
    simp only [List.map_cons, valueSpan_cons] at hp
    obtain ⟨x, y, hx, hpop⟩ := s.decodeValue_ok i w hd (h32 w (by simp)) (by omega)
    obtain ⟨s', e, f, hl, hq, xs, hr, hxs⟩ := ih (i + 1)
      { (s.atSeq .decVal i) with rdpos := s.rdpos + (w.toNat - 1), popped := y, r := s.r ++ [x] } hd
      (fun z hz => h32 z (by simp [hz])) (by simp; omega)
    refine ⟨s', ?_, DecodeFrame.trans ⟨_, _, _, _, _, rfl⟩ f, hl, ?_, x :: xs, ?_, ?_⟩
    · rw [State.decodeValues, hpop]
      exact e
    · rw [hq]; simp; omega
    · rw [hr]; simp
    · simp only [List.map_cons, hxs, valuesFrom]
      rw [hx]; rfl

/-- The first value field whose length is above 32 or whose bits are not there ends the value pass (R218). -/
theorem State.decodeValues_fault (pre post : List Word) (w : Word) (i : Nat) (s : State) (hd : s.data.wf = true)
    (h32 : ∀ x ∈ pre, x.toNat ≤ 32) (hp : s.rdpos + valueSpan (pre.map BitVec.toNat) ≤ 8 * s.data.dlen)
    (hf : 32 < w.toNat ∨ 8 * s.data.dlen < s.rdpos + valueSpan (pre.map BitVec.toNat) + (w.toNat - 1)) :
    ∃ s', DecodeFrame s s' ∧ s'.rdpos = s.rdpos + valueSpan (pre.map BitVec.toNat) ∧
      s'.seq = { phase := .decVal, idx := i + pre.length } ∧ s'.l = s.l ∧ s'.r.length ≤ s.r.length + pre.length ∧
      State.decodeValues i (pre ++ w :: post) s =
        .raised (popFault w.toNat (w.toNat - 1) (s.rdpos + valueSpan (pre.map BitVec.toNat)) (8 * s.data.dlen)) s' := by
  induction pre generalizing i s with
  | nil =>
    simp only [List.map_nil, valueSpan_nil, Nat.add_zero] at hp hf ⊢
    have hne : w ≠ 0#32 := by rintro rfl; simp at hf; omega
    refine ⟨s.atSeq .decVal i, ⟨_, _, _, _, _, rfl⟩, rfl, rfl, rfl, by simp, ?_⟩
    rw [List.nil_append, State.decodeValues, State.decodeValue, if_neg hne]
    unfold popFault
    by_cases hw : 32 < w.toNat
    · rw [State.pop_wide _ _ _ hw, if_pos hw]; rfl
    · have hs : 8 * s.data.dlen < s.rdpos + (w.toNat - 1) := by omega
      rw [State.pop_short _ _ _ (by omega) (by omega) (by simp [effWidth]; omega), if_neg hw]
      simp only [Micro.andThen, effWidth, if_true, State.atSeq_data, State.atSeq_rdpos]
      congr 2
      omega
  | cons g pre ih =>
    simp only [List.map_cons, valueSpan_cons] at hp hf ⊢
    obtain ⟨x, y, hx, hpop⟩ := s.decodeValue_ok i g hd (h32 g (by simp)) (by omega)
    obtain ⟨s', f, hq, hseq, hl, hr, e⟩ := ih (i + 1)
      { (s.atSeq .decVal i) with rdpos := s.rdpos + (g.toNat - 1), popped := y, r := s.r ++ [x] } hd
      (fun z hz => h32 z (by simp [hz])) (by simp; omega) (by simp; omega)
    refine ⟨s', DecodeFrame.trans ⟨_, _, _, _, _, rfl⟩ f, ?_, ?_, hl, ?_, ?_⟩
    · rw [hq]; simp; omega
    · rw [hseq, List.length_cons]; congr 1; omega
    · simp at hr ⊢; omega
    · rw [List.cons_append, State.decodeValues, hpop]
      simp only [Micro.andThen]
      rw [show s.rdpos + (g.toNat - 1 + valueSpan (pre.map BitVec.toNat)) =
        s.rdpos + (g.toNat - 1) + valueSpan (pre.map BitVec.toNat) by omega]
      exact e

/-! ## DECODE -/

theorem map_toNat_injective {xs ys : List Word} (h : xs.map BitVec.toNat = ys.map BitVec.toNat) : xs = ys :=
  List.map_injective_iff.mpr (fun _ _ h => BitVec.eq_of_toNat_eq h) h

theorem eq_map_ofNat (xs : List Word) : xs = (xs.map BitVec.toNat).map (BitVec.ofNat 32) := by
  have hid : (BitVec.ofNat 32 ∘ BitVec.toNat) = (id : Word → Word) := by funext x; simp
  rw [List.map_map, hid, List.map_id]

/-- The header pass of a DECODE whose headers are all there, from DECODE's initial state. -/
theorem State.decodeHeaders_init (s : State) (hd : s.data.wf = true) (h32 : ∀ h ∈ s.hw, h.toNat ≤ 32)
    (hp : headerStart s.hw s.hw.length ≤ 8 * s.data.dlen) :
    ∃ s₁, State.decodeHeaders 0 s.hw s.decodeInit = .ok s₁ ∧ DecodeFrame s s₁ ∧ s₁.r = [] ∧
      s₁.rdpos = headerStart s.hw s.hw.length ∧ s₁.l.map BitVec.toNat = lengthsOf (streamBits s.data.bytes) s.hw := by
  obtain ⟨s₁, e, f, hr, hq, ls, hl, hls⟩ := State.decodeHeaders_ok s.hw 0 s.decodeInit hd h32
    (by rw [headerStart_all] at hp; show 0 + _ ≤ _; rw [Nat.zero_add]; exact hp)
  have hl' : s₁.l = ls := hl
  refine ⟨s₁, e, DecodeFrame.trans ⟨_, _, _, _, _, rfl⟩ f, hr, ?_, ?_⟩
  · rw [hq, headerStart_all]; exact Nat.zero_add _
  · rw [hl', hls, lengthsOf_eq]; rfl

/-- The outcome of DECODE on lists it can decode (R171). -/
theorem execDecode_decodable (s : State) (hd : s.data.wf = true) (h0 : s.data.dlen ≠ 0)
    (h : decodable (streamBits s.data.bytes) s.hw = true) :
    ∃ s', DecodeFrame s s' ∧ s'.l.length = s.hw.length ∧ s'.r = valuesOf (streamBits s.data.bytes) s.hw ∧
      execDecode s = .next (State.complete .decode
        { s' with
          vals := valuesOf (streamBits s.data.bytes) s.hw
          rpos := decodedEnd (streamBits s.data.bytes) s.hw }) := by
  simp only [decodable, Bool.and_eq_true, decide_eq_true_eq, List.all_eq_true, length_streamBits,
    Memory.length_bytes] at h
  obtain ⟨⟨⟨h32, hp⟩, hL⟩, hend⟩ := h
  obtain ⟨s₁, e₁, f₁, hr₁, hq₁, hl₁⟩ := s.decodeHeaders_init hd h32 hp
  have hspan : decodedEnd (streamBits s.data.bytes) s.hw =
      headerStart s.hw s.hw.length + valueSpan (lengthsOf (streamBits s.data.bytes) s.hw) := by
    unfold decodedEnd valueStart valueSpan
    rw [List.take_of_length_le (by simp)]
  obtain ⟨s₂, e₂, f₂, hl₂, hq₂, xs, hr₂, hxs⟩ := State.decodeValues_ok s₁.l 0 s₁ (by rw [f₁.data]; exact hd)
    (fun w hw => hL _ (by rw [← hl₁]; exact List.mem_map_of_mem hw))
    (by rw [hl₁, hq₁, f₁.data, ← hspan]; exact hend)
  rw [hl₁, hq₁, f₁.data] at hxs
  have hr : s₂.r = valuesOf (streamBits s.data.bytes) s.hw := by
    rw [hr₂, hr₁, List.nil_append, eq_map_ofNat xs, hxs, valuesOf_eq]
  have hpos : s₂.rdpos = decodedEnd (streamBits s.data.bytes) s.hw := by rw [hq₂, hl₁, hq₁, hspan]
  refine ⟨s₂, f₁.trans f₂, ?_, hr, ?_⟩
  · have := congrArg List.length hl₁
    rw [hl₂]
    simpa using this
  · unfold execDecode
    rw [if_neg h0, e₁]
    simp only [Micro.andThen, e₂, State.decodeTail, Micro.endCommand, hr, hpos]

/-- The outcome of DECODE at a fault of the header pass (R218). -/
theorem execDecode_headerFault (s : State) (pre post : List Byte) (h : Byte) (hd : s.data.wf = true)
    (h0 : s.data.dlen ≠ 0) (hw : s.hw = pre ++ h :: post) (h32 : ∀ x ∈ pre, x.toNat ≤ 32)
    (hp : (pre.map BitVec.toNat).sum ≤ 8 * s.data.dlen)
    (hf : 32 < h.toNat ∨ 8 * s.data.dlen < (pre.map BitVec.toNat).sum + h.toNat) :
    ∃ s', DecodeFrame s s' ∧ s'.rdpos = (pre.map BitVec.toNat).sum ∧
      s'.seq = { phase := .decHdr, idx := pre.length } ∧ s'.l.length ≤ pre.length ∧ s'.r = [] ∧
      execDecode s = .next (s'.raise .decode
        (popFault h.toNat h.toNat (pre.map BitVec.toNat).sum (8 * s.data.dlen))) := by
  obtain ⟨s', f, hq, hseq, hl, hr, e⟩ := State.decodeHeaders_fault pre post h 0 s.decodeInit hd h32
    (by show 0 + _ ≤ _; rw [Nat.zero_add]; exact hp) (by show _ ∨ _ < 0 + _ + _; rw [Nat.zero_add]; exact hf)
  have hz : s.decodeInit.rdpos = 0 := rfl
  have hdd : s.decodeInit.data = s.data := rfl
  rw [hz, Nat.zero_add] at hq e
  refine ⟨s', DecodeFrame.trans ⟨_, _, _, _, _, rfl⟩ f, hq, by rw [hseq, Nat.zero_add], ?_, hr, ?_⟩
  · simpa [State.decodeInit] using hl
  · unfold execDecode
    rw [if_neg h0, hw, e, hdd]
    rfl

/-- The outcome of DECODE at a fault of the value pass (R218). -/
theorem execDecode_valueFault (s : State) (pre post : List Nat) (w : Nat) (hd : s.data.wf = true)
    (h0 : s.data.dlen ≠ 0) (h32 : ∀ h ∈ s.hw, h.toNat ≤ 32) (hp : headerStart s.hw s.hw.length ≤ 8 * s.data.dlen)
    (hls : lengthsOf (streamBits s.data.bytes) s.hw = pre ++ w :: post) (hpre : ∀ x ∈ pre, x ≤ 32)
    (hpos : headerStart s.hw s.hw.length + valueSpan pre ≤ 8 * s.data.dlen)
    (hf : 32 < w ∨ 8 * s.data.dlen < headerStart s.hw s.hw.length + valueSpan pre + (w - 1)) :
    ∃ s', DecodeFrame s s' ∧ s'.rdpos = headerStart s.hw s.hw.length + valueSpan pre ∧
      s'.seq = { phase := .decVal, idx := pre.length } ∧ s'.l.length = s.hw.length ∧ s'.r.length ≤ pre.length ∧
      execDecode s = .next (s'.raise .decode
        (popFault w (w - 1) (headerStart s.hw s.hw.length + valueSpan pre) (8 * s.data.dlen))) := by
  obtain ⟨s₁, e₁, f₁, hr₁, hq₁, hl₁⟩ := s.decodeHeaders_init hd h32 hp
  rw [hls] at hl₁
  obtain ⟨pre', rest', hl, hpre', hrest'⟩ := List.map_eq_append_iff.mp hl₁
  obtain ⟨w', post', rfl, hw', -⟩ := List.map_eq_cons_iff.mp hrest'
  subst hpre' hw'
  obtain ⟨s₂, f₂, hq, hseq, hl₂, hr₂, e₂⟩ := State.decodeValues_fault pre' post' w' 0 s₁ (by rw [f₁.data]; exact hd)
    (fun x hx => hpre _ (List.mem_map_of_mem hx)) (by rw [hq₁, f₁.data]; exact hpos)
    (by rw [hq₁, f₁.data]; exact hf)
  rw [hq₁] at hq e₂
  rw [f₁.data] at e₂
  refine ⟨s₂, f₁.trans f₂, hq, by rw [hseq]; simp, ?_, ?_, ?_⟩
  · have := congrArg List.length hl₁
    rw [← hls] at this
    rw [hl₂]
    simpa using this
  · simpa [hr₁] using hr₂
  · unfold execDecode
    rw [if_neg h0, e₁]
    simp only [Micro.andThen, hl, e₂, Micro.endCommand]

end Sys2Proof.Machine
end

