-- ==== Sys2Proof/Laws/Encoder.lean ====
section
/-! SUPPORT. What ENCODE's micro-operations do, field by field and together (R151 to R154). -/

namespace Sys2Proof.Machine

open Sys2Proof

/-- What the micro-operations of ENCODE before its last step may change: H, V, T, W and SEQ (R151). -/
def EncodeFrame (s s' : State) : Prop :=
  ∃ (H V : Writer) (T W : Nat) (Q : Seq), s' = { s with hctx := H, vctx := V, t := T, w := W, seq := Q }

theorem EncodeFrame.refl (s : State) : EncodeFrame s s := ⟨s.hctx, s.vctx, s.t, s.w, s.seq, rfl⟩

theorem EncodeFrame.trans {a b c : State} (h₁ : EncodeFrame a b) (h₂ : EncodeFrame b c) : EncodeFrame a c := by
  obtain ⟨H, V, T, W, Q, rfl⟩ := h₁
  obtain ⟨H', V', T', W', Q', rfl⟩ := h₂
  exact ⟨H', V', T', W', Q', rfl⟩

theorem EncodeFrame.atSeq (s : State) (p : Phase) (i : Nat) : EncodeFrame s (s.atSeq p i) :=
  ⟨s.hctx, s.vctx, s.t, s.w, { phase := p, idx := i }, rfl⟩

theorem EncodeFrame.setCtx (s : State) (c : Ctx) (x : Writer) : EncodeFrame s (s.setCtx c x) := by
  cases c
  · exact ⟨x, s.vctx, s.t, s.w, s.seq, rfl⟩
  · exact ⟨s.hctx, x, s.t, s.w, s.seq, rfl⟩

theorem EncodeFrame.latchWidth (s : State) (v : Word) : EncodeFrame s (s.latchWidth v) :=
  ⟨s.hctx, s.vctx, s.t, bw v, s.seq, rfl⟩

/-- The contexts ENCODE is writing are in the form R29 asks and not finished. -/
structure Writing (s : State) : Prop where
  hInv : s.hctx.Inv
  vInv : s.vctx.Inv
  hOpen : s.hctx.finished = false
  vOpen : s.vctx.finished = false

/-- What a run of fields has appended: `hb` to H, `vb` to V, and as many to T as to V. -/
structure Appended (s s' : State) (hb vb : List Bool) : Prop where
  frame : EncodeFrame s s'
  writing : Writing s'
  hBits : s'.hctx.bits = s.hctx.bits ++ hb
  vBits : s'.vctx.bits = s.vctx.bits ++ vb
  total : s'.t = s.t + vb.length
  latch : s.w ≤ 32 → s'.w ≤ 32

theorem Appended.refl {s : State} (h : Writing s) : Appended s s [] [] :=
  ⟨EncodeFrame.refl s, h, by simp, by simp, by simp, id⟩

theorem Appended.trans {a b c : State} {h₁ v₁ h₂ v₂ : List Bool} (x : Appended a b h₁ v₁) (y : Appended b c h₂ v₂) :
    Appended a c (h₁ ++ h₂) (v₁ ++ v₂) :=
  ⟨x.frame.trans y.frame, y.writing, by rw [y.hBits, x.hBits, List.append_assoc],
    by rw [y.vBits, x.vBits, List.append_assoc], by rw [y.total, x.total, List.length_append, Nat.add_assoc],
    fun h => y.latch (x.latch h)⟩

theorem toNat_ofNat_bw (v : Word) : (BitVec.ofNat 32 (bw v)).toNat = bw v := by
  have := bw_le v
  rw [BitVec.toNat_ofNat]
  exact Nat.mod_eq_of_lt (by omega)

theorem Writing.latched {s : State} (h : Writing s) (i : Nat) (v : Word) :
    Writing ((s.atSeq .encField i).latchWidth v) := ⟨h.hInv, h.vInv, h.hOpen, h.vOpen⟩

theorem State.encodeField_eq (s : State) (i : Nat) (h : Byte) (v : Word) :
    s.encodeField i h v =
      if bw v = 0 then ((s.atSeq .encField i).latchWidth v).append .H 0#32 h.toNat false
      else if h.toNat < bw v then .raised (.valueTooWide v h) ((s.atSeq .encField i).latchWidth v)
      else ((s.atSeq .encField i).latchWidth v).encodeNonzero h v := rfl

theorem EncodeFrame.latched (s : State) (i : Nat) (v : Word) :
    EncodeFrame s ((s.atSeq .encField i).latchWidth v) :=
  (EncodeFrame.atSeq s _ _).trans (EncodeFrame.latchWidth _ v)

theorem EncodeFrame.addTotal (s : State) (n : Nat) : EncodeFrame s (s.addTotal n) :=
  ⟨s.hctx, s.vctx, s.t + n, s.w, s.seq, rfl⟩

/-- A header field appended to H. -/
theorem Appended.header {s : State} (h : Writing s) (bits : List Bool) :
    Appended s (s.setCtx .H (s.hctx.pushBits bits)) bits [] :=
  ⟨EncodeFrame.setCtx s .H _, ⟨Writer.pushBits_Inv _ _ h.hInv, h.vInv, (Writer.pushBits_finished _ _).trans h.hOpen, h.vOpen⟩,
    Writer.pushBits_bits _ _ h.hInv, (List.append_nil _).symm, rfl, id⟩

/-- A value field appended to V and counted in T. -/
theorem Appended.value {s : State} (h : Writing s) (bits : List Bool) (n : Nat) (hn : n = bits.length) :
    Appended s ((s.setCtx .V (s.vctx.pushBits bits)).addTotal n) [] bits :=
  ⟨(EncodeFrame.setCtx s .V _).trans (EncodeFrame.addTotal _ _),
    ⟨h.hInv, Writer.pushBits_Inv _ _ h.vInv, h.hOpen, (Writer.pushBits_finished _ _).trans h.vOpen⟩,
    (List.append_nil _).symm, Writer.pushBits_bits _ _ h.vInv, congrArg (s.t + ·) hn, id⟩

/-- SEQ moved and the width latched: nothing appended. -/
theorem Appended.latched {s : State} (h : Writing s) (i : Nat) (v : Word) :
    Appended s ((s.atSeq .encField i).latchWidth v) [] [] :=
  ⟨EncodeFrame.latched s i v, h.latched i v, (List.append_nil _).symm, (List.append_nil _).symm, rfl, fun _ => bw_le v⟩

/-- The non-zero field of width W: header, value bits, T (R151). -/
theorem State.encodeNonzero_eq (s : State) (h : Byte) (v : Word) (hs : Writing s) (h32 : h.toNat ≤ 32) (hz : s.w ≠ 0)
    (hw : s.w = bw v) :
    ∃ s', s.encodeNonzero h v = .ok s' ∧ Appended s s' (headerField (h, v)) (valueBits (h, v)) := by
  have hb := bw_le v
  have a₁ := Appended.header hs (bitsOf (BitVec.ofNat 32 s.w).toNat h.toNat)
  have a₂ := Appended.value a₁.writing (bitsOf v.toNat (s.w - 1)) (s.w - 1) (length_bitsOf _ _).symm
  have a := a₁.trans a₂
  have hh : bitsOf (BitVec.ofNat 32 s.w).toNat h.toNat ++ [] = headerField (h, v) := by
    rw [hw, toNat_ofNat_bw, List.append_nil]; rfl
  have hv : [] ++ bitsOf v.toNat (s.w - 1) = valueBits (h, v) := by rw [hw]; rfl
  rw [hh, hv] at a
  refine ⟨_, ?_, a⟩
  unfold State.encodeNonzero
  rw [State.append_H _ _ _ h32 hs.hOpen]
  simp only [Micro.andThen]
  rw [State.append_V_lb _ v _ (by simp only [State.setCtx_w]; omega) (by simpa using hz) a₁.writing.vOpen]
  simp only [State.setCtx_w]

/-- A field that fits appends its header field to H and its value field to V (R151). -/
theorem State.encodeField_fits (s : State) (i : Nat) (h : Byte) (v : Word) (hs : Writing s)
    (hf : fieldFits (h, v) = true) :
    ∃ s', s.encodeField i h v = .ok s' ∧ Appended s s' (headerField (h, v)) (valueBits (h, v)) := by
  simp only [fieldFits, Bool.and_eq_true, decide_eq_true_eq] at hf
  obtain ⟨hbw, h32⟩ := hf
  have a₀ := Appended.latched hs i v
  rw [State.encodeField_eq]
  by_cases hz : bw v = 0
  · rw [if_pos hz, State.append_H _ _ _ h32 a₀.writing.hOpen]
    have a := a₀.trans (Appended.header a₀.writing (bitsOf (0#32).toNat h.toNat))
    have hv : valueBits (h, v) = [] := by simp [valueBits, hz, bitsOf]
    have hh : headerField (h, v) = bitsOf (0#32).toNat h.toNat := by simp [headerField, hz]
    rw [hv, hh]
    exact ⟨_, rfl, a⟩
  · rw [if_neg hz, if_neg (by omega)]
    obtain ⟨s', e, a⟩ := State.encodeNonzero_eq _ h v a₀.writing h32 (by simpa using hz) (by simp)
    exact ⟨s', e, a₀.trans a⟩

/-- The fault of a field that does not fit (R153, R215). -/
def fieldFault (h : Byte) (v : Word) : Raise :=
  if h.toNat < bw v then .valueTooWide v h else .widthOutOfRange h.toNat

/-- A field that does not fit raises its fault at its index with nothing appended (R153, R215, R218). -/
theorem State.encodeField_unfit (s : State) (i : Nat) (h : Byte) (v : Word) (hf : fieldFits (h, v) = false) :
    s.encodeField i h v = .raised (fieldFault h v) ((s.atSeq .encField i).latchWidth v) := by
  have hbw := bw_le v
  simp only [fieldFits, Bool.and_eq_false_iff, decide_eq_false_iff_not] at hf
  rw [State.encodeField_eq]
  unfold fieldFault
  by_cases hz : bw v = 0
  · rw [if_pos hz, State.append_wide _ _ _ _ _ (by omega), if_neg (by omega)]
  · rw [if_neg hz]
    by_cases hlt : h.toNat < bw v
    · rw [if_pos hlt, if_pos hlt]
    · rw [if_neg hlt, if_neg hlt]
      unfold State.encodeNonzero
      rw [State.append_wide _ _ _ _ _ (by omega)]
      rfl

/-- A run of fields that fit appends all header fields and all value fields. -/
theorem State.encodeFields_fit (fields : List (Byte × Word)) (i : Nat) (s : State) (hs : Writing s)
    (hf : fields.all fieldFits = true) :
    ∃ s', State.encodeFields i fields s = .ok s' ∧
      Appended s s' (fields.flatMap headerField) (fields.flatMap valueBits) := by
  induction fields generalizing i s with
  | nil => exact ⟨s, rfl, Appended.refl hs⟩
  | cons f fields ih =>
    obtain ⟨h, v⟩ := f
    simp only [List.all_cons, Bool.and_eq_true] at hf
    obtain ⟨s₁, e₁, a₁⟩ := s.encodeField_fits i h v hs hf.1
    obtain ⟨s₂, e₂, a₂⟩ := ih (i + 1) s₁ a₁.writing hf.2
    refine ⟨s₂, ?_, by simpa using a₁.trans a₂⟩
    rw [State.encodeFields, e₁]
    exact e₂

/-- The first field that does not fit ends the run with its fault; fields after it are not looked at (R218). -/
theorem State.encodeFields_unfit (pre post : List (Byte × Word)) (h : Byte) (v : Word) (i : Nat) (s : State)
    (hs : Writing s) (hp : pre.all fieldFits = true) (hf : fieldFits (h, v) = false) :
    ∃ s', Appended s s' (pre.flatMap headerField) (pre.flatMap valueBits) ∧
      State.encodeFields i (pre ++ (h, v) :: post) s =
      .raised (fieldFault h v) ((s'.atSeq .encField (i + pre.length)).latchWidth v) := by
  induction pre generalizing i s with
  | nil =>
    refine ⟨s, Appended.refl hs, ?_⟩
    simp [State.encodeFields, s.encodeField_unfit i h v hf, Micro.andThen]
  | cons f pre ih =>
    obtain ⟨h', v'⟩ := f
    simp only [List.all_cons, Bool.and_eq_true] at hp
    obtain ⟨s₁, e₁, a₁⟩ := s.encodeField_fits i h' v' hs hp.1
    obtain ⟨s₂, a₂, e₂⟩ := ih (i + 1) s₁ a₁.writing hp.2
    refine ⟨s₂, by simpa using a₁.trans a₂, ?_⟩
    simp only [List.cons_append, State.encodeFields, e₁, Micro.andThen, e₂, List.length_cons]
    rw [show i + 1 + pre.length = i + (pre.length + 1) by omega]

theorem State.encodeInit_writing (s : State) : Writing s.encodeInit :=
  ⟨Writer.empty_Inv, Writer.empty_Inv, rfl, rfl⟩

/-- ENCODE after the last field, by what each of its three flush phases answers (R151). -/
theorem State.encodeTail_of_phases {s s₁ s₂ s₃ : State} (h₁ : (s.atSeq .encFlushV 0).finish .V = .ok s₁)
    (h₂ : (s₁.atSeq .encSplice 0).splice s₁.t = .ok s₂) (h₃ : (s₂.atSeq .encFlushH 0).finish .H = .ok s₃) :
    s.encodeTail = .ok { s₃ with data := Memory.ofBytes s₃.hctx.out } := by
  simp only [State.encodeTail, h₁, h₂, h₃, Micro.andThen]

/-- SPLICE after FINISH V carries exactly the bits of V, not its pad (R152). -/
theorem State.splice_after_finish {s s₁ : State} (hv : s₁.vctx = s.vctx.flush) (hh : s₁.hctx = s.hctx) (hs : Writing s)
    (ht : s₁.t = s.vctx.bits.length) :
    (s₁.atSeq .encSplice 0).splice s₁.t = .ok ((s₁.atSeq .encSplice 0).setCtx .H (s.hctx.pushBits s.vctx.bits)) := by
  have hsb := s.vctx.flush_streamBits hs.vInv
  have hlen := congrArg List.length hsb
  simp only [length_streamBits, List.length_append, List.length_replicate] at hlen
  rw [State.splice_eq _ _ (by rw [State.atSeq_vctx, hv]; omega) (by rw [State.atSeq_hctx, hh]; exact hs.hOpen),
    State.atSeq_vctx, State.atSeq_hctx, hv, hh, hsb, ht, List.take_left]

/-- FINISH in its phase: the context is flushed, the rest of ENCODE's working state but SEQ is as it was. -/
theorem State.finish_V_phase (s : State) (hf : s.vctx.finished = false) :
    ∃ s', (s.atSeq .encFlushV 0).finish .V = .ok s' ∧ EncodeFrame s s' ∧ s'.hctx = s.hctx ∧ s'.vctx = s.vctx.flush ∧
      s'.t = s.t ∧ s'.w = s.w :=
  ⟨_, (s.atSeq .encFlushV 0).finish_eq .V hf, (EncodeFrame.atSeq s _ _).trans (EncodeFrame.setCtx _ .V _),
    rfl, rfl, rfl, rfl⟩

theorem State.finish_H_phase (s : State) (hf : s.hctx.finished = false) :
    ∃ s', (s.atSeq .encFlushH 0).finish .H = .ok s' ∧ EncodeFrame s s' ∧ s'.hctx = s.hctx.flush ∧ s'.vctx = s.vctx ∧
      s'.t = s.t ∧ s'.w = s.w :=
  ⟨_, (s.atSeq .encFlushH 0).finish_eq .H hf, (EncodeFrame.atSeq s _ _).trans (EncodeFrame.setCtx _ .H _),
    rfl, rfl, rfl, rfl⟩

/-- After the last field: DATA gets the bits of H and then those of V, stored in bytes (R151, R152). -/
theorem State.encodeTail_eq (s : State) (hs : Writing s) (ht : s.t = s.vctx.bits.length) :
    ∃ s', EncodeFrame s s' ∧ s'.hctx = (s.hctx.pushBits s.vctx.bits).flush ∧ s'.vctx = s.vctx.flush ∧ s'.t = s.t ∧
      s'.w = s.w ∧ s.encodeTail = .ok { s' with data := Memory.ofBytes (bytesOf (s.hctx.bits ++ s.vctx.bits)) } := by
  obtain ⟨s₁, e₁, f₁, hh₁, hv₁, ht₁, hw₁⟩ := s.finish_V_phase hs.vOpen
  have e₂ := State.splice_after_finish hv₁ hh₁ hs (ht₁.trans ht)
  obtain ⟨s₃, e₃, f₃, hh₃, hv₃, ht₃, hw₃⟩ :=
    ((s₁.atSeq .encSplice 0).setCtx .H (s.hctx.pushBits s.vctx.bits)).finish_H_phase (by simpa using hs.hOpen)
  have f₂ := (EncodeFrame.atSeq s₁ .encSplice 0).trans (EncodeFrame.setCtx _ .H (s.hctx.pushBits s.vctx.bits))
  refine ⟨s₃, (f₁.trans f₂).trans f₃, by simpa using hh₃, by simpa [hv₁] using hv₃, by simpa [ht₁] using ht₃,
    by simpa [hw₁] using hw₃, ?_⟩
  rw [State.encodeTail_of_phases e₁ e₂ e₃, ← Writer.pushBits_bits _ _ hs.hInv,
    ← Writer.flush_out _ (Writer.pushBits_Inv s.hctx s.vctx.bits hs.hInv), hh₃]
  simp

theorem packedBits_length (hw : List Byte) (vals : List Word) (h : hw.length = vals.length) :
    (packedBits hw vals).length = packedLength hw vals := by
  unfold packedBits packedLength
  rw [List.length_append]
  congr 1
  · induction hw generalizing vals with
    | nil => simp
    | cons x hw ih =>
      cases vals with
      | nil => simp at h
      | cons v vals => simp at h; simp [headerField, ih vals h]
  · induction hw generalizing vals with
    | nil => cases vals with
      | nil => rfl
      | cons v vals => simp at h
    | cons x hw ih =>
      cases vals with
      | nil => simp at h
      | cons v vals =>
        simp at h
        simp only [List.zip_cons_cons, List.flatMap_cons, List.length_append, ih vals h, List.filter_cons]
        by_cases hv : v = 0#32
        · subst hv
          have : bw 0#32 = 0 := by decide
          simp [valueBits, this]
        · simp [valueBits, hv]

/-- The outcome of ENCODE on lists it can encode: DATA is the packed stream (R154). -/
theorem execEncode_encodable (s : State) (h : encodable s.hw s.vals = true) :
    ∃ s', EncodeFrame s s' ∧ s'.hctx.Inv ∧ s'.vctx.Inv ∧ s'.t = ((s.hw.zip s.vals).flatMap valueBits).length ∧
      (s.w ≤ 32 → s'.w ≤ 32) ∧ execEncode s = .next (State.complete .encode
        { s' with data := Memory.ofBytes (bytesOf (packedBits s.hw s.vals)) }) := by
  simp only [encodable, Bool.and_eq_true, decide_eq_true_eq] at h
  obtain ⟨s₁, e₁, a₁⟩ := State.encodeFields_fit _ 0 s.encodeInit s.encodeInit_writing h.2
  have hh : s₁.hctx.bits = (s.hw.zip s.vals).flatMap headerField := a₁.hBits
  have hv : s₁.vctx.bits = (s.hw.zip s.vals).flatMap valueBits := a₁.vBits
  have ht : s₁.t = ((s.hw.zip s.vals).flatMap valueBits).length := by simpa [State.encodeInit] using a₁.total
  obtain ⟨s₂, f₂, i₁, i₂, ht₂, hw₂, e₂⟩ := s₁.encodeTail_eq a₁.writing (by rw [ht, hv])
  have hH : s₂.hctx.Inv := i₁ ▸ Writer.flush_Inv _ (Writer.pushBits_Inv _ _ a₁.writing.hInv)
  have hV : s₂.vctx.Inv := i₂ ▸ Writer.flush_Inv _ a₁.writing.vInv
  have f₁ : EncodeFrame s s₁ := EncodeFrame.trans ⟨_, _, _, _, _, rfl⟩ a₁.frame
  refine ⟨s₂, f₁.trans f₂, hH, hV, ht₂.trans ht, fun h => hw₂ ▸ a₁.latch h, ?_⟩
  unfold execEncode
  rw [if_neg (by simpa using h.1), e₁]
  simp only [Micro.andThen]
  rw [e₂, hh, hv]
  rfl

/-- The outcome of ENCODE at the first field that does not fit (R218). -/
theorem execEncode_unfit (s : State) (pre post : List (Byte × Word)) (h : Byte) (v : Word)
    (hl : s.hw.length = s.vals.length) (hz : s.hw.zip s.vals = pre ++ (h, v) :: post)
    (hp : pre.all fieldFits = true) (hf : fieldFits (h, v) = false) :
    ∃ s', Appended s.encodeInit s' (pre.flatMap headerField) (pre.flatMap valueBits) ∧ execEncode s =
      .next (((s'.atSeq .encField pre.length).latchWidth v).raise .encode (fieldFault h v)) := by
  obtain ⟨s₁, a₁, e₁⟩ := State.encodeFields_unfit pre post h v 0 s.encodeInit s.encodeInit_writing hp hf
  refine ⟨s₁, a₁, ?_⟩
  unfold execEncode
  rw [if_neg (by simpa using hl), hz, e₁, Nat.zero_add]
  rfl

end Sys2Proof.Machine
end

