-- ==== Sys2Proof/Laws/Encoding.lean ====
section
/-! SUPPORT. The fields of an assembled operation word (R70, R75), and when a word has an operation's pattern (R72). -/

namespace Sys2Proof

/-- Every bit of an assembled word, by the field it stands in (R70). -/
theorem getLsbD_assemble (o : BitVec 4) (lb : Bool) (s : BitVec 1) (w : Byte) (v : Word) (i : Nat) :
    (assemble o lb s w v).getLsbD i =
      if i < 32 then v.getLsbD i else if i < 40 then w.getLsbD (i - 32) else if i < 42 then false
      else if i < 43 then s.getLsbD (i - 42) else if i < 44 then (lb && decide (i = 43)) else o.getLsbD (i - 44) := by
  unfold assemble
  simp only [BitVec.getLsbD_append, BitVec.getLsbD_ofBool]
  by_cases h1 : i < 32
  · simp [h1]
  by_cases h2 : i < 40
  · simp [h1, h2, show i - 32 < 8 by omega]
  by_cases h3 : i < 42
  · simp [h1, h2, h3, show ¬i - 32 < 8 by omega, show i - 32 - 8 < 2 by omega]
  by_cases h4 : i < 43
  · obtain rfl : i = 42 := by omega
    simp
  by_cases h5 : i < 44
  · obtain rfl : i = 43 := by omega
    simp
  · simp only [h1, h2, h3, h4, h5, show ¬i - 32 < 8 by omega, show ¬i - 32 - 8 < 2 by omega,
      show ¬i - 32 - 8 - 2 < 1 by omega, show ¬i - 32 - 8 - 2 - 1 < 1 by omega, if_false]
    congr 1

section
variable (o : BitVec 4) (lb : Bool) (s : BitVec 1) (w : Byte) (v : Word)

@[simp] theorem opcField_assemble : opcField (assemble o lb s w v) = o := by
  apply BitVec.eq_of_getLsbD_eq
  intro i hi
  rw [opcField, BitVec.getLsbD_extractLsb', getLsbD_assemble]
  repeat rw [if_neg (by omega)]
  simp [hi]

@[simp] theorem widthField_assemble : widthField (assemble o lb s w v) = w := by
  apply BitVec.eq_of_getLsbD_eq
  intro i hi
  rw [widthField, BitVec.getLsbD_extractLsb', getLsbD_assemble, if_neg (by omega), if_pos (by omega)]
  simp [hi]

@[simp] theorem valueField_assemble : valueField (assemble o lb s w v) = v := by
  apply BitVec.eq_of_getLsbD_eq
  intro i hi
  rw [valueField, BitVec.getLsbD_extractLsb', getLsbD_assemble, if_pos (by omega)]
  simp [hi]

@[simp] theorem maskField_assemble : maskField (assemble o lb s w v) = w.extractLsb' 0 4 := by
  apply BitVec.eq_of_getLsbD_eq
  intro i hi
  rw [maskField, BitVec.getLsbD_extractLsb', getLsbD_assemble, if_neg (by omega), if_pos (by omega)]
  simp [hi]

@[simp] theorem byteField_assemble : byteField (assemble o lb s w v) = v.extractLsb' 0 8 := by
  apply BitVec.eq_of_getLsbD_eq
  intro i hi
  rw [byteField, BitVec.getLsbD_extractLsb', getLsbD_assemble, if_pos (by omega)]
  simp [hi]

@[simp] theorem lbField_assemble : lbField (assemble o lb s w v) = lb := by
  rw [lbField, getLsbD_assemble]
  simp

@[simp] theorem strField_assemble (c : Ctx) : strField (assemble o lb c.str w v) = c := by
  rw [strField, getLsbD_assemble]
  cases c <;> simp [Ctx.str]

end

/-- The operation code of an operation names it (R71). -/
@[simp] theorem opOfOpc_opc (o : Op) : opOfOpc o.opc = some o := by cases o <;> rfl

/-- An OPC that names an operation is that operation's code (R71). -/
theorem opc_of_opOfOpc (c : BitVec 4) (o : Op) (h : opOfOpc c = some o) : c = o.opc := by
  revert h
  revert c o
  decide

/-- A word with an operation's pattern has its operation code (R72). -/
theorem opcField_of_names (o : Op) (w : OpWord) (h : o.names w = true) : opcField w = o.opc := by
  have hw : w &&& o.mask = o.pattern := by simpa [Op.names] using h
  have hop : opcField w = opcField (w &&& o.mask) := by
    apply BitVec.eq_of_getLsbD_eq
    intro i hi
    rw [opcField, opcField, BitVec.getLsbD_extractLsb', BitVec.getLsbD_extractLsb', BitVec.getLsbD_and]
    have hm : o.mask.getLsbD (44 + i) = true := by
      rcases i with _ | _ | _ | _ | i <;> first | omega | (cases o <;> decide)
    simp [hm]
  rw [hop, hw]
  cases o <;> decide

/-- A word names an operation when its bits under the mask are the pattern's (R72). -/
theorem names_of_bits (o : Op) (w : OpWord)
    (h : ∀ j, j < 48 → (w.getLsbD j && o.mask.getLsbD j) = o.pattern.getLsbD j) : o.names w = true := by
  rw [Op.names, beq_iff_eq]
  apply BitVec.eq_of_getLsbD_eq
  intro j hj
  simpa using h j hj

/-- The decoder reads exactly the words that name an operation (R72, R73). -/
theorem decode_ok_iff (w : OpWord) (i : Instr) :
    decode w = .ok i ↔ ∃ o : Op, o.names w = true ∧ i = o.instr w := by
  constructor
  · intro h
    unfold decode at h
    split at h
    · cases h
    · rename_i o ho
      split at h
      · rename_i hn
        cases h
        exact ⟨o, hn, rfl⟩
      · cases h
  · rintro ⟨o, hn, rfl⟩
    unfold decode
    rw [opcField_of_names o w hn, opOfOpc_opc]
    simp [hn]

@[simp] theorem op_instr (o : Op) (w : OpWord) : (o.instr w).op = o := by cases o <;> rfl

end Sys2Proof
end

