-- ==== Sys2Proof/Laws/Outcomes.lean ====
section
/-! SUPPORT. Everything ENCODE and DECODE can end in, one theorem each: a success, a fault before the first
micro-operation, or the first fault of a field (R153, R218). Later proofs split on these and never unfold the two. -/

namespace Sys2Proof.Machine

open Sys2Proof

/-- In a list of fields either all fit or there is a first that does not. -/
theorem fields_cases (fields : List (Byte × Word)) :
    fields.all fieldFits = true ∨
      ∃ pre h v post, fields = pre ++ (h, v) :: post ∧ pre.all fieldFits = true ∧ fieldFits (h, v) = false := by
  induction fields with
  | nil => exact .inl rfl
  | cons f fields ih =>
    obtain ⟨h, v⟩ := f
    by_cases hf : fieldFits (h, v) = true
    · rcases ih with ih | ⟨pre, h', v', post, rfl, hp, hf'⟩
      · exact .inl (by simp [hf, ih])
      · exact .inr ⟨(h, v) :: pre, h', v', post, rfl, by simp [hf, hp], hf'⟩
    · exact .inr ⟨[], h, v, fields, rfl, rfl, by simpa using hf⟩

/-- The three cases of ENCODE by its lists. -/
theorem encode_cases (hw : List Byte) (vals : List Word) :
    encodable hw vals = true ∨ hw.length ≠ vals.length ∨
      (hw.length = vals.length ∧ ∃ pre h v post, hw.zip vals = pre ++ (h, v) :: post ∧ pre.all fieldFits = true ∧
        fieldFits (h, v) = false) := by
  by_cases hl : hw.length = vals.length
  · rcases fields_cases (hw.zip vals) with h | h
    · exact .inl (by simp only [encodable, hl, h]; simp)
    · exact .inr (.inr ⟨hl, h⟩)
  · exact .inr (.inl hl)

/-- A value field has at most 31 bits (R30, R78). -/
theorem length_valueFields_le (fields : List (Byte × Word)) :
    (fields.flatMap valueBits).length ≤ 31 * fields.length := by
  induction fields with
  | nil => simp
  | cons f fields ih =>
    have := bw_le f.2
    simp only [List.flatMap_cons, List.length_append, List.length_cons, valueBits, length_bitsOf] at ih ⊢
    omega

/-- ENCODE's outcomes. -/
theorem execEncode_outcome (s : State) :
    (s.hw.length ≠ s.vals.length ∧ execEncode s = .next (s.raise .encode .fieldCountMismatch)) ∨
    ∃ s', EncodeFrame s s' ∧ s'.hctx.Inv ∧ s'.vctx.Inv ∧ s'.t ≤ 31 * s.hw.length ∧ (s.w ≤ 32 → s'.w ≤ 32) ∧
      ((encodable s.hw s.vals = true ∧ execEncode s = .next (State.complete .encode
          { s' with data := Memory.ofBytes (bytesOf (packedBits s.hw s.vals)) })) ∨
        (s'.seq.idx < s.hw.length ∧ ∃ h v, execEncode s = .next (s'.raise .encode (fieldFault h v)))) := by
  rcases encode_cases s.hw s.vals with he | hl | ⟨hl, pre, h, v, post, hz, hp, hf⟩
  · obtain ⟨s', f, i₁, i₂, ht, hw, e⟩ := execEncode_encodable s he
    refine .inr ⟨s', f, i₁, i₂, ?_, hw, .inl ⟨he, e⟩⟩
    rw [ht]
    exact (length_valueFields_le _).trans (by simp)
  · exact .inl ⟨hl, by unfold execEncode; rw [if_pos hl]⟩
  · obtain ⟨s', a, e⟩ := execEncode_unfit s pre post h v hl hz hp hf
    have hlen : pre.length < s.hw.length := by
      have := congrArg List.length hz
      simp at this
      omega
    have f : EncodeFrame s s' := EncodeFrame.trans ⟨_, _, _, _, _, rfl⟩ a.frame
    refine .inr ⟨(s'.atSeq .encField pre.length).latchWidth v,
      (f.trans (EncodeFrame.atSeq _ _ _)).trans (EncodeFrame.latchWidth _ v), a.writing.hInv,
      a.writing.vInv, ?_, fun _ => bw_le v, .inr ⟨hlen, h, v, e⟩⟩
    have ht : s'.t = (pre.flatMap valueBits).length := by simpa [State.encodeInit] using a.total
    have := length_valueFields_le pre
    show s'.t ≤ _
    omega

/-- In a list of header widths either all are at most 32 and there, or there is a first that is not (R218). -/
theorem headers_cases (total : Nat) (hs : List Byte) (p : Nat) (hp : p ≤ total) :
    ((∀ h ∈ hs, h.toNat ≤ 32) ∧ p + (hs.map BitVec.toNat).sum ≤ total) ∨
    ∃ pre h post, hs = pre ++ h :: post ∧ (∀ x ∈ pre, x.toNat ≤ 32) ∧ p + (pre.map BitVec.toNat).sum ≤ total ∧
      (32 < h.toNat ∨ total < p + (pre.map BitVec.toNat).sum + h.toNat) := by
  induction hs generalizing p with
  | nil => exact .inl (by simpa using hp)
  | cons h hs ih =>
    by_cases hb : 32 < h.toNat ∨ total < p + h.toNat
    · exact .inr ⟨[], h, hs, rfl, by simp, by simpa using hp, by simpa using hb⟩
    · rcases ih (p + h.toNat) (by omega) with ⟨h1, h2⟩ | ⟨pre, h', post, rfl, h1, h2, h3⟩
      · exact .inl ⟨List.forall_mem_cons.mpr ⟨by omega, h1⟩, by simp; omega⟩
      · exact .inr ⟨h :: pre, h', post, rfl, List.forall_mem_cons.mpr ⟨by omega, h1⟩, by simp; omega, by simp; omega⟩

/-- The same for the bit lengths of the value pass. -/
theorem values_cases (total : Nat) (ws : List Nat) (p : Nat) (hp : p ≤ total) :
    ((∀ w ∈ ws, w ≤ 32) ∧ p + valueSpan ws ≤ total) ∨
    ∃ pre w post, ws = pre ++ w :: post ∧ (∀ x ∈ pre, x ≤ 32) ∧ p + valueSpan pre ≤ total ∧
      (32 < w ∨ total < p + valueSpan pre + (w - 1)) := by
  induction ws generalizing p with
  | nil => exact .inl (by simpa using hp)
  | cons w ws ih =>
    by_cases hb : 32 < w ∨ total < p + (w - 1)
    · exact .inr ⟨[], w, ws, rfl, by simp, by simpa using hp, by simpa using hb⟩
    · rcases ih (p + (w - 1)) (by omega) with ⟨h1, h2⟩ | ⟨pre, w', post, rfl, h1, h2, h3⟩
      · exact .inl ⟨List.forall_mem_cons.mpr ⟨by omega, h1⟩, by simp; omega⟩
      · exact .inr ⟨w :: pre, w', post, rfl, List.forall_mem_cons.mpr ⟨by omega, h1⟩, by simp; omega, by simp; omega⟩

theorem decodedEnd_eq (bits : List Bool) (hw : List Byte) :
    decodedEnd bits hw = headerStart hw hw.length + valueSpan (lengthsOf bits hw) := by
  unfold decodedEnd valueStart valueSpan
  rw [List.take_of_length_le (by simp)]

@[simp] theorem length_valuesOf (bits : List Bool) (hw : List Byte) : (valuesOf bits hw).length = hw.length := by
  simp [valuesOf]

/-- A fault of POP in DECODE is one of the two of R132, with at most 32 bits short. -/
theorem popFault_cases (w n p total : Nat) (hn : n ≤ w) (hp : p ≤ total) (hf : 32 < w ∨ total < p + n) :
    (∃ k, popFault w n p total = .widthOutOfRange k) ∨
      ∃ b, 1 ≤ b ∧ b ≤ 32 ∧ popFault w n p total = .insufficientData b := by
  unfold popFault
  by_cases hw : 32 < w
  · rw [if_pos hw]; exact .inl ⟨w, rfl⟩
  · rw [if_neg hw]; exact .inr ⟨_, by omega, by omega, rfl⟩

/-- DECODE's outcomes. -/
theorem execDecode_outcome (s : State) (hd : s.data.wf = true) :
    (s.data.dlen = 0 ∧ execDecode s = .next (s.raise .decode .emptyInput)) ∨
    (s.data.dlen ≠ 0 ∧ ∃ s', DecodeFrame s s' ∧ s'.l.length ≤ s.hw.length ∧ s'.r.length ≤ s.hw.length ∧
      ((decodable (streamBits s.data.bytes) s.hw = true ∧
          decodedEnd (streamBits s.data.bytes) s.hw ≤ 8 * s.data.dlen ∧
          execDecode s = .next (State.complete .decode
            { s' with
              vals := valuesOf (streamBits s.data.bytes) s.hw
              rpos := decodedEnd (streamBits s.data.bytes) s.hw })) ∨
        (s'.seq.idx < s.hw.length ∧ s'.rdpos ≤ 8 * s.data.dlen ∧ ∃ r, execDecode s = .next (s'.raise .decode r) ∧
          ((∃ k, r = .widthOutOfRange k) ∨ ∃ b, 1 ≤ b ∧ b ≤ 32 ∧ r = .insufficientData b)))) := by
  by_cases h0 : s.data.dlen = 0
  · exact .inl ⟨h0, by unfold execDecode; rw [if_pos h0]⟩
  refine .inr ⟨h0, ?_⟩
  rcases headers_cases (8 * s.data.dlen) s.hw 0 (by omega) with ⟨h32, hp⟩ | ⟨pre, h, post, ha, hb, hc, hf⟩
  · rw [Nat.zero_add, ← headerStart_all] at hp
    rcases values_cases (8 * s.data.dlen) (lengthsOf (streamBits s.data.bytes) s.hw) _ hp with
      ⟨hv, hend⟩ | ⟨pre, w, post, ha, hb, hc, hf⟩
    · rw [← decodedEnd_eq] at hend
      have hdec : decodable (streamBits s.data.bytes) s.hw = true := by
        simp only [decodable, Bool.and_eq_true, decide_eq_true_eq, List.all_eq_true, length_streamBits,
          Memory.length_bytes]
        exact ⟨⟨⟨h32, hp⟩, hv⟩, hend⟩
      obtain ⟨s', f, hl, hr, e⟩ := execDecode_decodable s hd h0 hdec
      exact ⟨s', f, hl.le, by rw [hr, length_valuesOf], .inl ⟨hdec, hend, e⟩⟩
    · obtain ⟨s', f, hq, hseq, hl, hr, e⟩ := execDecode_valueFault s pre post w hd h0 h32 hp ha hb hc hf
      have hlen := congrArg List.length ha
      simp only [length_lengthsOf, List.length_append, List.length_cons] at hlen
      exact ⟨s', f, hl.le, by omega, .inr ⟨by rw [hseq]; show pre.length < _; omega, by omega, _, e,
        popFault_cases _ _ _ _ (by omega) hc hf⟩⟩
  · rw [Nat.zero_add] at hc hf
    obtain ⟨s', f, hq, hseq, hl, hr, e⟩ := execDecode_headerFault s pre post h hd h0 ha hb hc hf
    have hlen := congrArg List.length ha
    simp only [List.length_append, List.length_cons] at hlen
    exact ⟨s', f, by omega, by rw [hr]; simp, .inr ⟨by rw [hseq]; show pre.length < _; omega, by omega, _, e,
      popFault_cases _ _ _ _ le_rfl hc hf⟩⟩

end Sys2Proof.Machine
end

