-- ==== Sys2Proof/Laws/PerInstr.lean ====
section
/-! SUPPORT. Laws stated per instruction. EncodingMatches: the word the encoder gives has the instruction's own row of the
opcode table (R72): its operation code, and every must-be-zero bit zero. -/

namespace Sys2Proof.Laws.EncodingMatches

open Sys2Proof

/-- The encoded word names the instruction's operation. -/
def Statement (i : Instr) : Prop := i.op.names (Sys2Proof.encode i) = true

theorem clr (m : BitVec 4) : Statement (.clr m) := by
  apply names_of_bits
  intro j hj
  simp only [Sys2Proof.encode, Instr.op, getLsbD_assemble]
  interval_cases j <;> simp [Op.mask, Op.pattern, Op.opc]

theorem pushhw (h : Byte) : Statement (.pushhw h) := by
  apply names_of_bits
  intro j hj
  simp only [Sys2Proof.encode, Instr.op, getLsbD_assemble]
  interval_cases j <;> simp [Op.mask, Op.pattern, Op.opc]

theorem pushval (v : Word) : Statement (.pushval v) := by
  apply names_of_bits
  intro j hj
  simp only [Sys2Proof.encode, Instr.op, getLsbD_assemble]
  interval_cases j <;> simp [Op.mask, Op.pattern, Op.opc]

theorem pushb (b : Byte) : Statement (.pushb b) := by
  apply names_of_bits
  intro j hj
  simp only [Sys2Proof.encode, Instr.op, getLsbD_assemble]
  interval_cases j <;> simp [Op.mask, Op.pattern, Op.opc]

theorem encode : Statement (.encode) := by
  apply names_of_bits
  intro j hj
  simp only [Sys2Proof.encode, Instr.op, getLsbD_assemble]
  interval_cases j <;> simp [Op.mask, Op.pattern, Op.opc]

theorem decode : Statement (.decode) := by
  apply names_of_bits
  intro j hj
  simp only [Sys2Proof.encode, Instr.op, getLsbD_assemble]
  interval_cases j <;> simp [Op.mask, Op.pattern, Op.opc]

theorem bw (v : Word) : Statement (.bw v) := by
  apply names_of_bits
  intro j hj
  simp only [Sys2Proof.encode, Instr.op, getLsbD_assemble]
  interval_cases j <;> simp [Op.mask, Op.pattern, Op.opc]

theorem winit (c : Ctx) : Statement (.winit c) := by
  apply names_of_bits
  intro j hj
  simp only [Sys2Proof.encode, Instr.op, getLsbD_assemble]
  cases c <;> interval_cases j <;> simp [Op.mask, Op.pattern, Op.opc, Ctx.str]

theorem append (c : Ctx) (value : Word) (width : Byte) (lb : Bool) : Statement (.append c value width lb) := by
  apply names_of_bits
  intro j hj
  simp only [Sys2Proof.encode, Instr.op, getLsbD_assemble]
  cases c <;> interval_cases j <;> simp [Op.mask, Op.pattern, Op.opc, Ctx.str]

theorem finish (c : Ctx) : Statement (.finish c) := by
  apply names_of_bits
  intro j hj
  simp only [Sys2Proof.encode, Instr.op, getLsbD_assemble]
  cases c <;> interval_cases j <;> simp [Op.mask, Op.pattern, Op.opc, Ctx.str]

theorem splice (n : Nat) : Statement (.splice n) := by
  apply names_of_bits
  intro j hj
  simp only [Sys2Proof.encode, Instr.op, getLsbD_assemble]
  interval_cases j <;> simp [Op.mask, Op.pattern, Op.opc]

theorem rinit : Statement (.rinit) := by
  apply names_of_bits
  intro j hj
  simp only [Sys2Proof.encode, Instr.op, getLsbD_assemble]
  interval_cases j <;> simp [Op.mask, Op.pattern, Op.opc]

theorem pop (width : Nat) (lb : Bool) : Statement (.pop width lb) := by
  apply names_of_bits
  intro j hj
  simp only [Sys2Proof.encode, Instr.op, getLsbD_assemble]
  interval_cases j <;> simp [Op.mask, Op.pattern, Op.opc]

end Sys2Proof.Laws.EncodingMatches
end

