-- ==== Sys2Proof/Tests/Slice0.lean ====
section
/-! SUPPORT. Tests of one step or one instruction each, with the expected values of spec/95_test_vectors.md (its row ids are
named), and witnesses: states and operands that meet the hypotheses of each statement, clause by clause. -/

namespace Sys2Proof.Tests

open Sys2Proof Sys2Proof.Machine

/-! ## Helpers -/

/-- The reset state with the given lists. -/
def machine (hw : List Byte) (vals : List Word) (data : List Byte) : State :=
  { State.reset with hw := hw, vals := vals, data := Memory.ofBytes data }

/-- The reset state with finite capacities (MAXF = 1, MAXB = 8) and the given lists. -/
def small (hw : List Byte) (vals : List Word) (data : List Byte) : State :=
  { machine hw vals data with cfg := { maxF := some 1, maxB := some 8 } }

/-- The reset state with one input to come. -/
def given (i : Input) : State := { State.reset with inputs := [i] }

/-- What an outcome leaves, if it is a next state. -/
def after {α : Type} (o : Host.Outcome State Fault Refusal) (f : State → α) : Option α :=
  match o with
  | .next t => some (f t)
  | .fault _ => none
  | .refused _ => none

/-- The lists and the STATUS word. -/
def lists (t : State) : List Byte × List Word × List Byte × Word := (t.hw, t.vals, t.data.bytes, t.status.word)

/-- STATUS and the fault registers with RPOS, registers 0 to 5 as the host reads them. -/
def registers (t : State) : List Nat := (List.range 6).filterMap t.register

/-- The refusal an outcome is, if it is one. -/
def refusal (o : Host.Outcome State Fault Refusal) : Option Refusal :=
  match o with
  | .next _ => none
  | .fault _ => none
  | .refused r => some r

/-- A stream context: OUT, P, K. -/
def context (x : Writer) : List Byte × Byte × Nat := (x.out, x.p, x.k)

/-! ## Ill-formed instructions (R71, R131) -/

theorem test_illFormed_splice : (Instr.splice (2 ^ 32)).wellFormed = false := by decide

theorem test_illFormed_pop : (Instr.pop 256 false).wellFormed = false := by decide

/-! ## Words, written out from R70 to R72 (OPC, LB, STR, RSV, WIDTH, VALUE) -/

/-- OPC 1, M = 1010 in WIDTH[3:0]. -/
theorem test_decode_clr :
    decode 0b0001_0_0_00_00001010_00000000000000000000000000000000#48 = .ok (.clr 0b1010#4) := by decide
/-- OPC 2, WIDTH = 10000001. -/
theorem test_decode_pushhw :
    decode 0b0010_0_0_00_10000001_00000000000000000000000000000000#48 = .ok (.pushhw 0x81#8) := by decide
/-- OPC 3, VALUE with its first and last bit set. -/
theorem test_decode_pushval :
    decode 0b0011_0_0_00_00000000_10000000000000000000000000000001#48 = .ok (.pushval 0x80000001#32) := by decide
/-- OPC 4, VALUE[7:0] = 10000001. -/
theorem test_decode_pushb :
    decode 0b0100_0_0_00_00000000_00000000000000000000000010000001#48 = .ok (.pushb 0x81#8) := by decide
/-- OPC 5. -/
theorem test_decode_encode :
    decode 0b0101_0_0_00_00000000_00000000000000000000000000000000#48 = .ok .encode := by decide
/-- OPC 6. -/
theorem test_decode_decode :
    decode 0b0110_0_0_00_00000000_00000000000000000000000000000000#48 = .ok .decode := by decide
/-- OPC 8, VALUE = 32. -/
theorem test_decode_bw :
    decode 0b1000_0_0_00_00000000_00000000000000000000000000100000#48 = .ok (.bw 32#32) := by decide
/-- OPC 9, STR = 1. -/
theorem test_decode_winit :
    decode 0b1001_0_1_00_00000000_00000000000000000000000000000000#48 = .ok (.winit .V) := by decide
/-- X21: OPC A, LB = 1, STR = 1, WIDTH = 5, VALUE = 0x13. -/
theorem test_decode_append :
    decode 0b1010_1_1_00_00000101_00000000000000000000000000010011#48 = .ok (.append .V 0x13#32 5#8 true) := by decide
/-- OPC B, STR = 0. -/
theorem test_decode_finish :
    decode 0b1011_0_0_00_00000000_00000000000000000000000000000000#48 = .ok (.finish .H) := by decide
/-- X26: OPC C, VALUE = 31. -/
theorem test_decode_splice :
    decode 0b1100_0_0_00_00000000_00000000000000000000000000011111#48 = .ok (.splice 31) := by decide
/-- OPC D. -/
theorem test_decode_rinit :
    decode 0b1101_0_0_00_00000000_00000000000000000000000000000000#48 = .ok .rinit := by decide
/-- X22: OPC E, LB = 1, WIDTH = 3. -/
theorem test_decode_pop :
    decode 0b1110_1_0_00_00000011_00000000000000000000000000000000#48 = .ok (.pop 3 true) := by decide

/-- X2, X5, X6, X8, X10, X13, X14, X16: a must-be-zero field that is not zero. -/
theorem test_decode_fieldNotZero :
    [0x101000000000#48, 0x200200000001#48, 0x210200000000#48, 0x300100000005#48, 0x400000000100#48, 0x580000000000#48,
      0x540000000000#48, 0x600100000000#48].map (fun w => (decode w).toOption) = List.replicate 8 none := by decide
/-- X17, X18, X19: the reserved operation codes. -/
theorem test_decode_reserved :
    decode 0x000000000000#48 = .error (.reservedOpcode 0#4) ∧ decode 0x700000000000#48 = .error (.reservedOpcode 7#4) ∧
      decode 0xF00000000000#48 = .error (.reservedOpcode 15#4) := by decide

/-- P1's host words. -/
theorem test_callEncode :
    (callEncode [2#8, 1#8] [3#32, 1#32]).map encode =
      [0x100F00000000#48, 0x200200000000#48, 0x200100000000#48, 0x300000000003#48, 0x300000000001#48,
        0x500000000000#48] := by decide

/-! ## Host commands -/

/-- H6. -/
theorem test_clr_lists :
    after (exec (.clr 1#4) { machine [2#8] [3#32] [0xA0#8] with
      status := { state := .fault, fseen := true, lastop := 6#4, fcode := some .emptyInput } }) lists =
      some ([], [3#32], [0xA0#8], 0x15#32) := by decide
/-- H7. -/
theorem test_clr_status :
    after (exec (.clr 8#4) { machine [2#8] [3#32] [0xA0#8] with
      rpos := 9, fval := 4#32
      status := { state := .fault, fseen := true, lastop := 6#4, fcode := some .emptyInput } })
      (fun t => (lists t, registers t)) =
      some (([2#8], [3#32], [0xA0#8], 0#32), [0, 0, 0, 0, 0, 0]) := by decide
/-- P1, first PUSHHW; the second with the list full (H8). -/
theorem test_pushhw_appends : after (exec (.pushhw 1#8) (machine [2#8] [] [])) lists = some ([2#8, 1#8], [], [], 0x21#32) := by
  decide
theorem test_pushhw_full : after (exec (.pushhw 1#8) (small [2#8] [] [])) lists = some ([2#8], [], [], 0x726#32) := by decide
/-- H3, and PUSHVAL on a full list (R192). -/
theorem test_pushval_appends : after (exec (.pushval 0#32) (machine [] [] [])) lists = some ([], [0#32], [], 0x31#32) := by
  decide
theorem test_pushval_full : after (exec (.pushval 7#32) (small [] [5#32] [])) lists = some ([], [5#32], [], 0x736#32) := by
  decide
/-- H4, H9. -/
theorem test_pushb_appends : after (exec (.pushb 0xA0#8) (machine [] [] [])) lists = some ([], [], [0xA0#8], 0x41#32) := by
  decide
theorem test_pushb_full :
    after (exec (.pushb 0#8) (small [] [] (List.replicate 8 1#8))) lists =
      some ([], [], List.replicate 8 1#8, 0x746#32) := by decide
/-- E8. -/
theorem test_encode_packs :
    after (exec .encode (machine [3#8, 5#8, 2#8] [7#32, 19#32, 2#32] [0xFF#8])) lists =
      some ([3#8, 5#8, 2#8], [7#32, 19#32, 2#32], [0x65#8, 0xB3#8, 0x00#8], 0x51#32) := by decide
/-- E26. -/
theorem test_encode_valueTooWide :
    after (exec .encode (machine [4#8, 3#8] [9#32, 8#32] [0xFF#8])) (fun t => (t.data.bytes, registers t)) =
      some ([], [0x256, 8, 3, 0, 1, 0]) := by decide
/-- D19. -/
theorem test_decode_stream :
    after (exec .decode (machine [3#8, 5#8, 2#8] [1#32] [0x65#8, 0xB3#8, 0x00#8])) (fun t => (t.vals, registers t)) =
      some ([7#32, 19#32, 2#32], [0x61, 0, 0, 0, 0, 17]) := by decide
/-- D13. -/
theorem test_decode_short :
    after (exec .decode (machine [8#8] [1#32] [0x20#8, 0xFF#8, 0xFF#8, 0xFF#8])) (fun t => (t.vals, registers t)) =
      some ([], [0x366, 0, 0, 7, 0, 8]) := by decide

/-! ## Micro-operations -/

/-- B8, B15. -/
theorem test_bw : after (exec (.bw 19#32) State.reset) State.w = some 5 ∧
    after (exec (.bw 0x80000000#32) State.reset) State.w = some 32 := by decide
/-- R110. -/
theorem test_winit :
    after (exec (.winit .V) { State.reset with vctx := { out := [1#8], p := 0x80#8, k := 1, finished := true } })
      (fun t => context t.vctx) = some ([], 0#8, 0) := by decide
/-- W6. -/
theorem test_append_crosses :
    after (exec (.append .H 0x3F#32 6#8 false)
      { State.reset with hctx := { out := [], p := 0xA0#8, k := 3, finished := false } }) (fun t => context t.hctx) =
      some ([0xBF#8], 0x80#8, 1) := by decide
/-- W21. -/
theorem test_append_lb :
    after (exec (.append .V 1#32 3#8 true) State.reset) (fun t => context t.vctx) = some ([], 0x40#8, 2) := by decide
/-- W7, W23. -/
theorem test_finish_pads :
    after (exec (.finish .H) { State.reset with hctx := { out := [0xBF#8], p := 0x80#8, k := 1, finished := false } })
      (fun t => context t.hctx) = some ([0xBF#8, 0x80#8], 0#8, 0) := by decide
theorem test_finish_aligned :
    after (exec (.finish .V) { State.reset with vctx := { out := [0xFF#8], p := 0#8, k := 0, finished := false } })
      (fun t => context t.vctx) = some ([0xFF#8], 0#8, 0) := by decide
/-- U2: a second FINISH. -/
theorem test_finish_twice :
    refusal (exec (.finish .V) { State.reset with vctx := { out := [0xFF#8], p := 0#8, k := 0, finished := true } }) =
      some .finishAfterFinish := by decide
/-- P2, its SPLICE 7. -/
theorem test_splice :
    after (exec (.splice 7) { State.reset with
      hctx := { out := [0x65#8], p := 0x80#8, k := 2, finished := false }
      vctx := { out := [0xCC#8], p := 0#8, k := 0, finished := true } }) (fun t => context t.hctx) =
      some ([0x65#8, 0xB3#8], 0#8, 1) := by decide
/-- U11: more bits than V.OUT holds. -/
theorem test_splice_beyond : refusal (exec (.splice 1) State.reset) = some .spliceBeyondStream := by decide
/-- R130. -/
theorem test_rinit : after (exec .rinit { State.reset with rdpos := 5 }) State.rdpos = some 0 := by decide
/-- Q19. -/
theorem test_pop_lb :
    after (exec (.pop 32 true) { machine [] [] [0x12#8, 0x34#8, 0x56#8, 0x78#8, 0x9A#8] with rdpos := 7 })
      (fun t => (t.popped, t.rdpos)) = some (0x8D159E26#32, 38) := by decide
/-- Q6, in DECODE's header phase at field 1. -/
theorem test_pop_short :
    after (exec (.pop 9 false) { machine [8#8, 9#8] [] [0xB0#8] with seq := { phase := .decHdr, idx := 1 } }) registers =
      some [0x366, 0, 0, 1, 1, 0] := by decide

/-! ## The step and the host's view -/

/-- The word of an ENCODE, placed by withFetchWord, runs as the first step (P7: on empty lists). -/
theorem test_step_first : after (step (State.reset.withFetchWord 48 0x500000000000)) lists = some ([], [], [], 0x51#32) := by
  decide
/-- A POP issued with DATA empty is DECODE's InsufficientData (R213, R219). -/
theorem test_step_first_pop :
    after (step (State.reset.withFetchWord 48 0xE00800000000)) registers = some [0x366, 0, 0, 8, 0, 0] := by decide
/-- X20: a micro-operation from the host is illegal. -/
theorem test_step_illegal : after (step (given (.host 0xA00200000002#48))) lists = some ([], [], [], 0x6A6#32) := by decide
/-- The same word issued by SEQ runs (P1: H: OUT = [], P = 80, K = 2). -/
theorem test_step_micro :
    after (step (given (.seq 0xA00200000002#48))) (fun t => context t.hctx) = some ([], 0x80#8, 2) := by decide
/-- R197: register 8 is DLEN. -/
theorem test_read_dlen :
    after (step { machine [] [] [1#8, 2#8] with inputs := [.read .registers 8] }) State.answers = some [2] := by decide
/-- R24: there is no entry at DLEN. -/
theorem test_read_noEntry :
    refusal (step { machine [] [] [1#8, 2#8] with inputs := [.read .data 2] }) = some .readOfNoEntry := by decide

/-! ## Witnesses: hypotheses of the statements, met together, each clause at a boundary

The decoder's and step's statements. -/

theorem witness_EncodedInstructionDecodesBack :
    (Instr.splice (2 ^ 32 - 1)).wellFormed = true ∧ (Instr.pop 255 true).wellFormed = true := by decide
theorem witness_DecodedWordIsItsOnlyEncoding : decode 0xC000FFFFFFFF#48 = .ok (.splice (2 ^ 32 - 1)) := by decide
theorem witness_DecoderFollowsTheOpcodeTable :
    0xAFFFFFFFFFFF#48 &&& Op.append.mask ≠ Op.append.pattern ∧ 0xACFFFFFFFFFF#48 &&& Op.append.mask = Op.append.pattern := by
  decide
theorem witness_StepRunsThePresentedCommand :
    (given (.host 0x20FF00000000#48)).inputs = .host 0x20FF00000000#48 :: [] ∧
      decode 0x20FF00000000#48 = .ok (.pushhw 255#8) ∧ (Instr.pushhw 255#8).op.isHost = true := by decide
theorem witness_StepRunsTheIssuedMicroOperation :
    (given (.seq 0xE80300000000#48)).inputs = .seq 0xE80300000000#48 :: [] ∧
      decode 0xE80300000000#48 = .ok (.pop 3 true) ∧ (Instr.pop 3 true).op.isHost = false := by decide
theorem witness_StepWaitsForTheHost : State.reset.inputs = [] := by decide
theorem witness_IllegalHostWordOnlyRecordsTheFault :
    (given (.host 0x101000000000#48)).inputs = .host 0x101000000000#48 :: [] ∧
      ∀ o : Op, o.isHost = true → 0x101000000000#48 &&& o.mask ≠ o.pattern :=
  ⟨by decide, fun o => by cases o <;> decide⟩
theorem witness_LegalWordNeverRaisesIllegalCommand :
    Instr.decode.op.isHost = true ∧ (machine [8#8] [] [0x20#8]).data.wf = true := by decide
theorem witness_EveryHostCommandEnds :
    Instr.encode.op.isHost = true ∧ (machine [33#8] [1#32] [0x20#8]).data.wf = true ∧
      (machine [33#8] [1#32] [0x20#8]).seq.phase = .idle := by decide

/-- A state of the invariant that is not the reset state, with a command to come: full lists, a pending partial byte. -/
def busy : State :=
  { small [8#8] [7#32] (List.replicate 8 0x20#8) with
    inputs := [.host 0x500000000000#48]
    hctx := { out := [1#8], p := 0xFE#8, k := 7, finished := false }
    t := 31
    w := 32
    rpos := 64
    status := { state := .ok, fseen := true, lastop := 6#4, fcode := none } }

theorem busy_writer : Writer.Inv { out := [1#8], p := 0xFE#8, k := 7, finished := false } :=
  ⟨by decide, by decide⟩

theorem witness_EveryStepKeepsTheInvariant : busy.Inv ∧ ∃ t, step busy = .next t :=
  ⟨{  cfgWf := by decide
      dataWf := by decide
      hwFits := by decide
      valsFit := by decide
      dataFits := by decide
      fidxFits := by decide
      rposFits := by decide
      seqIdle := by decide
      idxFits := by decide
      hInv := busy_writer
      vInv := ⟨by decide, by decide⟩
      tFits := fun f hf => by cases hf; decide
      lFits := by decide
      rFits := by decide
      wFits := by decide
      statusInv := ⟨by decide, by decide, by decide, by decide, by decide, by decide⟩ }, _, rfl⟩

/-! Host commands. -/

theorem witness_ClrEmptiesWhatItsMaskSelects :
    (8#4).getLsbD 3 = true ∧ (7#4).getLsbD 3 = false ∧
      0x100F00000000#48 &&& 0xFFF0FFFFFFFF#48 = 0x100000000000#48 := by decide
theorem witness_PushhwAppendsOrFaults :
    (small [] [] []).cfg.maxF ≠ some (small [] [] []).hw.length ∧
      (small [2#8] [] []).cfg.maxF = some (small [2#8] [] []).hw.length ∧
      0x20FF00000000#48 &&& 0xFF00FFFFFFFF#48 = 0x200000000000#48 := by decide
theorem witness_PushvalAppendsOrFaults :
    (small [] [] []).cfg.maxF ≠ some (small [] [] []).vals.length ∧
      (small [] [2#32] []).cfg.maxF = some (small [] [2#32] []).vals.length ∧
      0x3000FFFFFFFF#48 &&& 0xFFFF00000000#48 = 0x300000000000#48 := by decide
theorem witness_PushbWritesOneByteOrFaults :
    (small [] [] (List.replicate 7 9#8)).data.wf = true ∧
      (small [] [] (List.replicate 7 9#8)).cfg.maxB ≠ some (small [] [] (List.replicate 7 9#8)).data.dlen ∧
      (small [] [] (List.replicate 8 9#8)).cfg.maxB = some (small [] [] (List.replicate 8 9#8)).data.dlen ∧
      0x4000000000FF#48 &&& 0xFFFFFFFFFF00#48 = 0x400000000000#48 := by decide

/-! ENCODE. -/

/-- E36. -/
theorem witness_EncodeOfUnequalListsFaults :
    (machine [33#8] [] []).hw.length ≠ (machine [33#8] [] []).vals.length := by decide
/-- E16: 63 bits, the position 62 the last of them, 63 the one pad bit. -/
theorem witness_EncodeProducesThePackedStream :
    encodable [32#8] [0xFFFFFFFF#32] = true ∧ (packedBits [32#8] [0xFFFFFFFF#32]).length = 63 ∧
      62 < (packedBits [32#8] [0xFFFFFFFF#32]).length ∧ (packedBits [32#8] [0xFFFFFFFF#32]).length ≤ 63 ∧
      after (exec .encode (machine [32#8] [0xFFFFFFFF#32] [])) (fun t => decide (63 < 8 * t.data.dlen)) = some true := by
  decide
/-- E26, with the field of index 1 the first that does not fit. -/
theorem witness_EncodeReportsTheFirstUnfitField_value :
    [4#8, 3#8].length = [9#32, 8#32].length ∧ [4#8, 3#8].zip [9#32, 8#32] = [(4#8, 9#32)] ++ (3#8, 8#32) :: [] ∧
      (∀ f ∈ [(4#8, 9#32)], bw f.2 ≤ f.1.toNat ∧ f.1.toNat ≤ 32) ∧ 8#32 ≠ 0#32 ∧ (3#8).toNat < bw 8#32 :=
  ⟨by decide, by decide, List.forall_mem_singleton.mpr (by decide), by decide, by decide⟩
/-- E22. -/
theorem witness_EncodeReportsTheFirstUnfitField_width :
    [33#8].length = [1#32].length ∧ [33#8].zip [1#32] = [] ++ (33#8, 1#32) :: [] ∧ 32 < (33#8).toNat := by decide
/-- E8 for the sum; E10 for the widths all 0. -/
theorem witness_EncodedLengthIsTheSumOfItsFields :
    encodable [3#8, 5#8, 2#8] [7#32, 19#32, 2#32] = true ∧ packedLength [3#8, 5#8, 2#8] [7#32, 19#32, 2#32] = 17 ∧
      encodable [0#8] [0#32] = true ∧ (∀ h ∈ [0#8], h = 0#8) ∧ (small [32#8] [0#32] []).cfg.wf = true ∧
      encodable [32#8] [0#32] = true ∧ Config.admits (small [32#8] [0#32] []).cfg.maxF [32#8].length = true := by decide
/-- E28, E23. -/
theorem witness_ZeroValuesEncodeToZeroBytes :
    [32#8].length = [0#32].length ∧ (∀ v ∈ [0#32], v = 0#32) ∧ (∀ h ∈ [32#8], h.toNat ≤ 32) ∧
      (∃ h ∈ [33#8], 32 < h.toNat) :=
  ⟨by decide, List.forall_mem_singleton.mpr rfl, by decide, by decide⟩
theorem witness_EncodeIsAFunctionOfItsLists :
    (machine [2#8] [3#32] [1#8]).hw = (machine [2#8] [3#32] []).hw ∧
      (machine [2#8] [3#32] [1#8]).vals = (machine [2#8] [3#32] []).vals := by decide

/-! DECODE. -/

theorem witness_DecodeOfEmptyDataFaults : (machine [8#8] [1#32] []).data = [] := by decide
/-- D26: the last bit read is the bit before the pad. -/
theorem witness_DecodeReadsTheStream :
    (machine [32#8] [] [0#8, 0#8, 0#8, 0x20#8, 0xFF#8, 0xFF#8, 0xFF#8, 0xFE#8]).data.wf = true ∧
      (machine [32#8] [] [0#8, 0#8, 0#8, 0x20#8, 0xFF#8, 0xFF#8, 0xFF#8, 0xFE#8]).data.dlen ≠ 0 ∧
      decodable (streamBits [0#8, 0#8, 0#8, 0x20#8, 0xFF#8, 0xFF#8, 0xFF#8, 0xFE#8]) [32#8] = true := by decide
/-- D21 and D20: the second header field is not there; the first is 33 bits wide. -/
theorem witness_DecodeReportsTheFirstHeaderFault :
    (machine [8#8, 8#8] [] [1#8]).data.wf = true ∧ (machine [8#8, 8#8] [] [1#8]).data.dlen ≠ 0 ∧
      [8#8, 8#8] = [8#8] ++ 8#8 :: [] ∧ (∀ x ∈ [8#8], x.toNat ≤ 32) ∧ 8 = ([8#8].map BitVec.toNat).sum ∧
      8 ≤ 8 * (machine [8#8, 8#8] [] [1#8]).data.dlen ∧
      ((8#8).toNat ≤ 32 ∧ 8 * (machine [8#8, 8#8] [] [1#8]).data.dlen < 8 + (8#8).toNat) ∧ 32 < (33#8).toNat := by decide
/-- D12. -/
theorem witness_DecodeReportsTheFirstValueFault_width :
    (machine [8#8] [] [0x21#8]).data.wf = true ∧ (machine [8#8] [] [0x21#8]).data.dlen ≠ 0 ∧
      (∀ h ∈ [8#8], h.toNat ≤ 32) ∧ headerStart [8#8] [8#8].length ≤ 8 * (machine [8#8] [] [0x21#8]).data.dlen ∧
      lengthsOf (streamBits [0x21#8]) [8#8] = [] ++ 33 :: [] ∧ 8 = valueStart [8#8] ([] ++ 33 :: []) 0 ∧
      8 ≤ 8 * (machine [8#8] [] [0x21#8]).data.dlen ∧ 32 < 33 := by decide
/-- D22: 6 bits needed, 4 left. -/
theorem witness_DecodeReportsTheFirstValueFault_short :
    (machine [4#8] [] [0x70#8]).data.wf = true ∧ (machine [4#8] [] [0x70#8]).data.dlen ≠ 0 ∧
      (∀ h ∈ [4#8], h.toNat ≤ 32) ∧ headerStart [4#8] [4#8].length ≤ 8 * (machine [4#8] [] [0x70#8]).data.dlen ∧
      lengthsOf (streamBits [0x70#8]) [4#8] = [] ++ 7 :: [] ∧ 4 = valueStart [4#8] ([] ++ 7 :: []) 0 ∧
      4 ≤ 8 * (machine [4#8] [] [0x70#8]).data.dlen ∧
      (7 ≤ 32 ∧ 8 * (machine [4#8] [] [0x70#8]).data.dlen < 4 + (7 - 1)) := by decide
/-- D3 and D24: three bits agree, what follows does not. -/
theorem witness_DecodeIgnoresWhatFollowsTheLastField :
    (machine [2#8] [] [0xA0#8]).data.wf = true ∧ (machine [2#8] [] [0xBF#8, 0xFF#8]).data.wf = true ∧
      (machine [2#8] [] [0xA0#8]).data.dlen ≠ 0 ∧ (machine [2#8] [] [0xBF#8, 0xFF#8]).data.dlen ≠ 0 ∧
      decodable (streamBits [0xA0#8]) [2#8] = true ∧
      decodedEnd (streamBits [0xA0#8]) [2#8] ≤ 8 * (machine [2#8] [] [0xBF#8, 0xFF#8]).data.dlen ∧
      (streamBits [0xBF#8, 0xFF#8]).take (decodedEnd (streamBits [0xA0#8]) [2#8]) =
        (streamBits [0xA0#8]).take (decodedEnd (streamBits [0xA0#8]) [2#8]) := by decide
theorem witness_DecodeIsAFunctionOfItsLists :
    (machine [2#8] [3#32] [0xA0#8]).data.wf = true ∧ (machine [2#8] [] [0xA0#8]).hw = (machine [2#8] [3#32] [0xA0#8]).hw ∧
      (machine [2#8] [] [0xA0#8]).data = (machine [2#8] [3#32] [0xA0#8]).data := by decide
/-- S6: the shortest stream there is. -/
theorem witness_DecodeInvertsEncode :
    encodable [1#8] [1#32] = true ∧ 1 ≤ ([1#8].map BitVec.toNat).sum ∧
      after (exec .encode (machine [1#8] [1#32] [])) State.data = some (machine [1#8] [] [0x80#8]).data := by decide

/-! The units. -/

theorem witness_BwLatchesTheBitWidth :
    0x80000000#32 ≠ 0#32 ∧ (0x80000000#32).getLsbD 31 = true ∧
      0x8000FFFFFFFF#48 &&& 0xFFFF00000000#48 = 0x800000000000#48 := by decide
theorem witness_BitWidthLaws : 1#32 ≠ 0#32 ∧ (1#32).toNat ≤ (0xFFFFFFFF#32).toNat ∧ bw 1#32 ≤ 1 ∧ 32 ≤ 32 := by decide
theorem witness_AppendAddsItsBits :
    (busy.ctx .H).Inv ∧ (busy.ctx .H).finished = false ∧ (32#8).toNat ≤ 32 ∧ (true = true → 32#8 ≠ 0#8) :=
  ⟨busy_writer, by decide⟩
theorem witness_AppendOfMoreThan32BitsRaises :
    32 < (33#8).toNat ∧ (machine [33#8] [1#32] []).seq.phase = .idle ∧
      ((machine [33#8] [1#32] []).atSeq .encField 0).seq.phase = .encField := by decide
/-- The reset state with context V finished. -/
def finishedV : State := { State.reset with vctx := { Writer.empty with finished := true } }

theorem witness_UndefinedAppendsAreRefused :
    (finishedV.ctx .V).finished = true ∧ (32#8).toNat ≤ 32 ∧ (true = true → 32#8 ≠ 0#8) := by decide
theorem witness_AppendGroupingDoesNotMatter : (busy.ctx .H).finished = false ∧ (31#8).toNat + (1#8).toNat ≤ 32 := by decide
theorem witness_FinishPadsToAByte :
    (busy.ctx .H).Inv ∧ (busy.ctx .H).finished = false ∧ (busy.ctx .H).k ≠ 0 ∧
      (busy.ctx .V).Inv ∧ (busy.ctx .V).finished = false ∧ (busy.ctx .V).k = 0 ∧ (finishedV.ctx .V).finished = true :=
  ⟨busy_writer, by decide, by decide, ⟨by decide, by decide⟩, by decide, by decide, by decide⟩
theorem witness_SpliceCarriesBitsOfV :
    busy.hctx.Inv ∧ busy.hctx.finished = false ∧ 0 ≤ 8 * busy.vctx.out.length ∧ 8 * busy.vctx.out.length < 1 :=
  ⟨busy_writer, by decide⟩
/-- Q5, Q7 (LB), Q14 (width 0). -/
theorem witness_PopReadsAField :
    (machine [] [] [0xB0#8]).data.wf = true ∧ 8 ≤ 32 ∧ 0 + 8 ≤ 8 * (machine [] [] [0xB0#8]).data.dlen ∧
      8 = (if 9 = 0 then 0 else if true then 9 - 1 else 9) ∧ 8 + 0 ≤ 8 * (machine [] [] [0xB0#8]).data.dlen := by decide
/-- Q33 and Q6, in DECODE's phases and with SEQ IDLE. -/
theorem witness_PopRaises :
    ((machine [9#8] [] [0xB0#8]).atSeq .decHdr 0).seq.phase = .decHdr ∧
      ((machine [9#8] [] [0xB0#8]).atSeq .decVal 0).seq.phase = .decVal ∧ (machine [9#8] [] [0xB0#8]).seq.phase = .idle ∧
      32 < 33 ∧ 33 < 2 ^ 32 ∧ 9 ≤ 32 ∧
      (machine [9#8] [] [0xB0#8]).rdpos ≤ 8 * (machine [9#8] [] [0xB0#8]).data.dlen ∧
      9 = (if false then 9 - 1 else 9) ∧
      8 * (machine [9#8] [] [0xB0#8]).data.dlen < (machine [9#8] [] [0xB0#8]).rdpos + 9 := by decide
theorem witness_PopInvertsAppend :
    (busy.ctx .H).Inv ∧ (busy.ctx .H).finished = false ∧ (32#8).toNat ≤ 32 ∧
      (false = false → (0xFFFFFFFF#32).toNat < 2 ^ (32#8).toNat) ∧
      (true = true → bw 0x80000000#32 = (32#8).toNat ∧ 32#8 ≠ 0#8) :=
  ⟨busy_writer, by decide⟩
/-- After the field 101 of width 3 a further bit 1 is appended (W6's context for the first three). -/
theorem witness_PopInvertsAppend_further :
    after (exec (.append .H 5#32 3#8 false) State.reset) (fun t => t.hctx.bits) = some [true, false, true] ∧
      Writer.Inv { out := [], p := 0xB0#8, k := 4, finished := false } ∧
      [true, false, true] <+: Writer.bits { out := [], p := 0xB0#8, k := 4, finished := false } :=
  ⟨by decide, ⟨by decide, by decide⟩, by decide⟩

/-! The host's view and the whole machine. -/

theorem witness_HostReadReturnsTheEntry :
    (given (.read .registers 8)).inputs = .read .registers 8 :: [] ∧ (given (.read .registers 8)).data.wf = true ∧
      [1, 2, 3, 4, 5, 6, 7, 8, 9][8]? = some 9 ∧ 9 ≤ 9 ∧ (machine [7#8] [6#32] [5#8]).hw[0]?.map BitVec.toNat = some 7 ∧
      (machine [7#8] [6#32] [5#8]).vals[0]?.map BitVec.toNat = some 6 ∧
      (machine [7#8] [6#32] [5#8]).data.bytes[0]?.map BitVec.toNat = some 5 ∧ (machine [7#8] [6#32] [5#8]).data.dlen ≤ 1 := by
  decide
/-- Q28: the last position of [12 34]. -/
theorem witness_StreamPositionsAreMostSignificantFirst :
    (machine [] [] [0x12#8, 0x34#8]).data.wf = true ∧
      (machine [] [] [0x12#8, 0x34#8]).data.read (15 / 8) = some 0x34#8 := by decide
theorem witness_FseenIsClearedByClrOnly : busy.status.fseen = true ∧ ∃ t, step busy = .next t := ⟨by decide, _, rfl⟩
theorem witness_MicroOperationsChangeNoInterfaceState :
    (Instr.bw 5#32).op.isHost = false ∧ busy.seq.phase = .idle ∧ busy.data.wf = true ∧
      ∃ t, exec (.bw 5#32) busy = .next t :=
  ⟨by decide, by decide, by decide, _, rfl⟩
theorem witness_EachListChangesByItsCommandsOnly :
    busy.seq.phase = .idle ∧ (∃ t, exec .encode busy = .next t) ∧ Instr.encode.op ≠ .pushhw ∧ Instr.encode.op ≠ .clr ∧
      Instr.encode.op ≠ .pushval ∧ Instr.encode.op ≠ .decode ∧ (∃ t, exec .decode busy = .next t) ∧
      Instr.decode.op ≠ .pushb ∧ Instr.decode.op ≠ .clr ∧ Instr.decode.op ≠ .encode :=
  ⟨by decide, ⟨_, rfl⟩, by decide, by decide, by decide, by decide, ⟨_, rfl⟩, by decide, by decide, by decide⟩
theorem witness_RposIsWrittenByDecodeAndClrOnly :
    busy.seq.phase = .idle ∧ (∃ t, exec (.clr 7#4) busy = .next t) ∧ Instr.clr 7#4 ≠ .decode ∧
      (∀ m, Instr.clr 7#4 = .clr m → m.getLsbD 3 = false) :=
  ⟨by decide, ⟨_, rfl⟩, by decide, fun m hm => by cases hm; decide⟩
/-- E26, D13: both end in a fault. -/
theorem witness_FaultsLeaveNoPartialResult :
    (machine [4#8, 3#8] [9#32, 8#32] []).data.wf = true ∧
      (machine [8#8] [] [0x20#8, 0xFF#8, 0xFF#8, 0xFF#8]).data.wf = true ∧
      after (exec .encode (machine [4#8, 3#8] [9#32, 8#32] [])) (fun t => t.status.state) = some .fault ∧
      after (exec .decode (machine [8#8] [] [0x20#8, 0xFF#8, 0xFF#8, 0xFF#8])) (fun t => t.status.state) =
        some .fault := by decide
/-- E16: 63 bits, one field with MAXF = 1: V.OUT is 3 bytes with 7 bits pending and 4 = VCAP bytes after FINISH V. -/
theorem witness_StreamsStayWithinTheirCapacities :
    Instr.encode.op.isHost = true ∧ busy.cfg.wf = true ∧ busy.cfg.vCap = some 4 ∧ busy.vctx.out.length ≤ 4 ∧
      busy.hctx.out.length ≤ 8 ∧ Config.admits busy.cfg.maxF busy.hw.length = true ∧
      (match State.encodeFields 0 ([32#8].zip [0xFFFFFFFF#32]) busy.encodeInit with
        | .ok u => (u.vctx.out.length, u.vctx.k, u.vctx.flush.out.length)
        | .raised _ _ | .stuck _ | .refuse _ => (0, 0, 0)) = (3, 7, 4) := by decide
/-- Two states that differ in the working state; a register is read, and a list entry that is not there. -/
theorem witness_InterfaceStateDecidesWhatTheHostSees :
    SameInterface State.reset finishedV ∧ finishedV ≠ State.reset ∧ State.reset.data.wf = true ∧
      (given (.read .registers 8)).inputs = .read .registers 8 :: [] ∧
      (given (.read .hw 0)).inputs = .read .hw 0 :: [] ∧
      (given (.host 0x500000000000#48)).inputs = .host 0x500000000000#48 :: [] :=
  ⟨⟨⟨rfl, rfl, rfl⟩, ⟨rfl, rfl, rfl, rfl, rfl, rfl⟩, rfl, rfl, rfl⟩, by decide, by decide, rfl, rfl, rfl⟩

end Sys2Proof.Tests
end

section
/-! PROOFS. Shared by the proofs about steps: what one step can do, what ends a list of micro-operations, and what DECODE's
passes leave from any state. -/

namespace Sys2Proof.Machine

open Sys2Proof

/-! ## One step -/

/-- A host command the host presents is executed (R12, R63). -/
theorem step_host {s : State} {w : OpWord} {rest : List Input} {i : Instr} (hin : s.inputs = .host w :: rest)
    (hd : decode w = .ok i) (hi : i.op.isHost = true) : step s = exec i { s with inputs := rest } := by
  simp only [step, hin, hostWord, hd, hi, if_true]

/-- What one step that answers a next state has done: waited, executed a command of the host or a micro-operation of SEQ,
recorded an illegal word, or answered a read (R12, R74, R194, R197, R240). -/
theorem step_cases {s t : State} (h : step s = .next t) :
    (s.inputs = [] ∧ t = s) ∨ ∃ rest : List Input,
      (∃ w i, s.inputs = .host w :: rest ∧ decode w = .ok i ∧ i.op.isHost = true ∧
        exec i { s with inputs := rest } = .next t) ∨
      (∃ w i, s.inputs = .seq w :: rest ∧ decode w = .ok i ∧ i.op.isHost = false ∧
        exec i { s with inputs := rest } = .next t) ∨
      (∃ w, s.inputs = .host w :: rest ∧
        t = State.raise (.illegal (opcField w)) .illegalCommand { s with inputs := rest }) ∨
      ∃ sp i v, s.inputs = .read sp i :: rest ∧ s.readValue sp i = some v ∧
        t = { s with inputs := rest, answers := s.answers ++ [v] } := by
  unfold step at h
  split at h
  next hin => exact .inl ⟨hin, (Host.Outcome.next.inj h).symm⟩
  next w rest hin =>
    refine .inr ⟨rest, ?_⟩
    unfold hostWord at h
    split at h
    next i hd =>
      split at h
      next hi => exact .inl ⟨w, i, hin, hd, hi, h⟩
      next => exact .inr (.inr (.inl ⟨w, hin, (Host.Outcome.next.inj h).symm⟩))
    next => exact .inr (.inr (.inl ⟨w, hin, (Host.Outcome.next.inj h).symm⟩))
  next w rest hin =>
    refine .inr ⟨rest, .inr (.inl ?_)⟩
    unfold seqWord at h
    split at h
    next i hd =>
      split at h
      next => cases h
      next hi => exact ⟨w, i, hin, hd, by simpa using hi, h⟩
    next => cases h
  next sp i rest hin =>
    refine .inr ⟨rest, .inr (.inr (.inr ?_))⟩
    unfold hostRead at h
    split at h
    next v hv => exact ⟨sp, i, v, hin, hv, (Host.Outcome.next.inj h).symm⟩
    next => cases h

/-- A PUSH on a full list faults, on any other it completes (R191 to R193, R217). -/
theorem push_next {c : Command} {full : Prop} [Decidable full] {s u t : State}
    (e : (if full then Host.Outcome.next (s.raise c .capacityExceeded) else .next (u.complete c) :
      Host.Outcome State Fault Refusal) = .next t) :
    (full ∧ t = s.raise c .capacityExceeded) ∨ (¬full ∧ t = u.complete c) := by
  split at e
  next hfull => exact .inl ⟨hfull, (Host.Outcome.next.inj e).symm⟩
  next hroom => exact .inr ⟨hroom, (Host.Outcome.next.inj e).symm⟩

/-! ## Sequences of micro-operations -/

/-- A sequence of micro-operations that comes to its end has come to the end of its first part. -/
theorem Micro.andThen_ok {m : Micro} {f : State → Micro} {t : State} (h : m.andThen f = .ok t) :
    ∃ s, m = .ok s ∧ f s = .ok t := by
  cases m with
  | ok s => exact ⟨s, rfl, h⟩
  | raised r s => cases h
  | stuck e => cases h
  | refuse e => cases h

/-- A host command's micro-operations end in the status update or in the fault entry (R198, R219). -/
theorem Micro.endCommand_next {c : Command} {m : Micro} {t : State} (h : m.endCommand c = .next t) :
    (∃ s, m = .ok s ∧ t = s.complete c) ∨ ∃ r s, m = .raised r s ∧ t = s.raise c r := by
  cases m with
  | ok s => exact .inl ⟨s, rfl, (Host.Outcome.next.inj h).symm⟩
  | raised r s => exact .inr ⟨r, s, rfl, (Host.Outcome.next.inj h).symm⟩
  | stuck e => cases h
  | refuse e => cases h

/-- A micro-operation issued with SEQ IDLE that answers a next state has not raised (R219). -/
theorem Micro.endMicro_next_of_idle {m : Micro} {t : State} (hidle : ∀ r s, m = .raised r s → s.seq.phase = .idle)
    (h : m.endMicro = .next t) : m = .ok t := by
  cases m with
  | ok s => exact congrArg Micro.ok (Host.Outcome.next.inj h)
  | raised r s =>
    have hs := hidle r s rfl
    simp only [Micro.endMicro, hs, Phase.call] at h
    cases h
  | stuck e => cases h
  | refuse e => cases h

/-! ## DECODE's passes from any state -/

theorem DecodeFrame.atSeq (s : State) (p : Phase) (i : Nat) : DecodeFrame s (s.atSeq p i) :=
  ⟨s.rdpos, s.popped, s.l, s.r, { phase := p, idx := i }, rfl⟩

theorem DecodeFrame.of_pop {s s' : State} {width : Nat} {lb : Bool} (h : s.pop width lb = .ok s') :
    DecodeFrame s s' := by
  obtain ⟨-, x, rfl, -⟩ := s.pop_ok s' width lb h
  exact ⟨_, _, _, _, _, rfl⟩

theorem DecodeFrame.of_decodeHeaders {hs : List Byte} {i : Nat} {s t : State}
    (h : State.decodeHeaders i hs s = .ok t) : DecodeFrame s t := by
  induction hs generalizing i s with
  | nil => cases h; exact DecodeFrame.refl _
  | cons b hs ih =>
    obtain ⟨s₁, hpop, hrest⟩ := Micro.andThen_ok h
    have f₁ : DecodeFrame s s₁ := (DecodeFrame.atSeq s _ _).trans (DecodeFrame.of_pop hpop)
    have f₂ : DecodeFrame s₁ { s₁ with l := s₁.l ++ [s₁.popped] } := ⟨_, _, _, _, _, rfl⟩
    exact (f₁.trans f₂).trans (ih hrest)

theorem DecodeFrame.of_decodeValue {i : Nat} {w : Word} {s t : State} (h : s.decodeValue i w = .ok t) :
    DecodeFrame s t := by
  unfold State.decodeValue at h
  split at h
  next => cases h; exact ⟨_, _, _, _, _, rfl⟩
  next =>
    obtain ⟨s₁, hpop, hok⟩ := Micro.andThen_ok h
    cases hok
    have f₁ : DecodeFrame s s₁ := (DecodeFrame.atSeq s _ _).trans (DecodeFrame.of_pop hpop)
    exact f₁.trans ⟨_, _, _, _, _, rfl⟩

theorem DecodeFrame.of_decodeValues {ws : List Word} {i : Nat} {s t : State}
    (h : State.decodeValues i ws s = .ok t) : DecodeFrame s t := by
  induction ws generalizing i s with
  | nil => cases h; exact DecodeFrame.refl _
  | cons w ws ih =>
    obtain ⟨s₁, hv, hrest⟩ := Micro.andThen_ok h
    exact (DecodeFrame.of_decodeValue hv).trans (ih hrest)

/-- DECODE from any state, DATA in canonical form or not: it completes with the writer as it was, or it raises. -/
theorem execDecode_next {s t : State} (h : execDecode s = .next t) :
    (∃ s', t = State.complete .decode s' ∧ s'.cfg = s.cfg ∧ s'.hctx = s.hctx ∧ s'.vctx = s.vctx) ∨
      ∃ r s', t = State.raise .decode r s' := by
  unfold execDecode at h
  split at h
  next => exact .inr ⟨_, _, (Host.Outcome.next.inj h).symm⟩
  next =>
    rcases Micro.endCommand_next h with ⟨s₃, hok, rfl⟩ | ⟨r, s₃, -, rfl⟩
    · obtain ⟨s₂, hpasses, htail⟩ := Micro.andThen_ok hok
      obtain ⟨s₁, hheaders, hvalues⟩ := Micro.andThen_ok hpasses
      cases htail
      have f₀ : DecodeFrame s s.decodeInit := ⟨_, _, _, _, _, rfl⟩
      obtain ⟨P, X, L, R, Q, rfl⟩ :=
        (f₀.trans (DecodeFrame.of_decodeHeaders hheaders)).trans (DecodeFrame.of_decodeValues hvalues)
      exact .inl ⟨_, rfl, rfl, rfl, rfl⟩
    · exact .inr ⟨r, s₃, rfl⟩

/-! ## Capacities (R5) -/

theorem Config.admits_iff (cap : Option Nat) (n : Nat) : Config.admits cap n = true ↔ ∀ m, cap = some m → n ≤ m := by
  cases cap <;> simp [Config.admits]

theorem Config.admits_mono {cap : Option Nat} {m n : Nat} (h : Config.admits cap n = true) (hmn : m ≤ n) :
    Config.admits cap m = true := by
  rw [Config.admits_iff] at h ⊢
  exact fun k hk => hmn.trans (h k hk)

@[simp] theorem Config.admits_zero (cap : Option Nat) : Config.admits cap 0 = true := by
  simp [Config.admits_iff]

/-- A list that is not at its capacity has room for one entry more. -/
theorem Config.admits_succ {cap : Option Nat} {n : Nat} (h : Config.admits cap n = true) (hroom : cap ≠ some n) :
    Config.admits cap (n + 1) = true := by
  rw [Config.admits_iff] at h ⊢
  intro m hm
  have hle := h m hm
  have hne : n ≠ m := fun e => hroom (e ▸ hm)
  omega

/-- MAXB holds the bytes of 63 bits a field (R5). -/
theorem Config.admits_maxB {c : Config} {n b : Nat} (hc : c.wf = true) (hn : Config.admits c.maxF n = true)
    (hb : b ≤ (63 * n + 7) / 8) : Config.admits c.maxB b = true := by
  rw [Config.admits_iff] at hn ⊢
  intro m hm
  cases hf : c.maxF with
  | none => simp [Config.wf, hf, hm] at hc
  | some f =>
    have hfm : (63 * f + 7) / 8 ≤ m := by simpa [Config.wf, hf, hm] using hc
    have hnf : n ≤ f := hn f hf
    omega

/-- VCAP holds the bytes of 31 bits a field (R5). -/
theorem Config.admits_vCap {c : Config} {n b : Nat} (hn : Config.admits c.maxF n = true)
    (hb : b ≤ (31 * n + 7) / 8) : Config.admits c.vCap b = true := by
  rw [Config.admits_iff] at hn ⊢
  intro m hm
  obtain ⟨f, hf, rfl⟩ := Option.map_eq_some_iff.mp hm
  have hnf : n ≤ f := hn f hf
  omega

/-- The header fields of fields that fit have at most 32 bits each (R77, R215). -/
theorem length_headerFields_le {fields : List (Byte × Word)} (hf : fields.all fieldFits = true) :
    (fields.flatMap headerField).length ≤ 32 * fields.length := by
  induction fields with
  | nil => simp
  | cons f fields ih =>
    simp only [List.all_cons, Bool.and_eq_true, fieldFits, decide_eq_true_eq] at hf
    obtain ⟨⟨-, h32⟩, hrest⟩ := hf
    have := ih hrest
    simp only [List.flatMap_cons, List.length_append, List.length_cons, headerField, length_bitsOf] at this ⊢
    omega

/-- The packed stream has at most 63 bits a field (R155). -/
theorem length_packedBits_le {hw : List Byte} {vals : List Word} (h : encodable hw vals = true) :
    (packedBits hw vals).length ≤ 63 * hw.length := by
  simp only [encodable, Bool.and_eq_true] at h
  have hh := length_headerFields_le h.2
  have hv := length_valueFields_le (hw.zip vals)
  have hz : (hw.zip vals).length ≤ hw.length := by simp
  rw [packedBits, List.length_append]
  omega

end Sys2Proof.Machine
end

section
/-! PROOFS. The invariant: its parts, what keeps each, and the step (R5, R21 to R34, R198). -/

namespace Sys2Proof.Machine

open Sys2Proof

/-! ## The parts of the invariant -/

/-- The lists are within their capacities, DATA is in canonical form (R5, R21 to R24). -/
structure ListsFit (s : State) : Prop where
  cfgWf : s.cfg.wf = true
  dataWf : s.data.wf = true
  hwFits : Config.admits s.cfg.maxF s.hw.length = true
  valsFit : Config.admits s.cfg.maxF s.vals.length = true
  dataFits : Config.admits s.cfg.maxB s.data.dlen = true

/-- RPOS is at most 8 * MAXB (R26). -/
def RposFits (s : State) : Prop := Config.admits s.cfg.maxB ((s.rpos + 7) / 8) = true

theorem State.Inv.listsFit {s : State} (h : s.Inv) : ListsFit s :=
  ⟨h.cfgWf, h.dataWf, h.hwFits, h.valsFit, h.dataFits⟩

theorem State.Inv.workingFits {s : State} (h : s.Inv) : WorkingFits s :=
  ⟨h.hInv, h.vInv, h.tFits, h.lFits, h.rFits, h.wFits, h.seqIdle, h.idxFits⟩

/-- The invariant from its parts. -/
theorem State.Inv.of_parts {s : State} (hl : ListsFit s)
    (hx : s.fidx = 0 ∨ Config.admits s.cfg.maxF (s.fidx + 1) = true) (hp : RposFits s) (hw : WorkingFits s)
    (hs : s.StatusInv) : s.Inv :=
  { cfgWf := hl.cfgWf, dataWf := hl.dataWf, hwFits := hl.hwFits, valsFit := hl.valsFit, dataFits := hl.dataFits,
    fidxFits := hx, rposFits := hp, seqIdle := hw.phaseIdle, idxFits := hw.idxFits, hInv := hw.hInv, vInv := hw.vInv,
    tFits := hw.tFits, lFits := hw.lFits, rFits := hw.rFits, wFits := hw.wFits, statusInv := hs }

theorem WorkingFits.of_same {s t : State} (h : WorkingFits s) (hw : SameWorking s t) (hq : t.seq = s.seq)
    (hc : t.cfg = s.cfg) : WorkingFits t := by
  obtain ⟨hh, hv, ht, -, -, hl, hr, hwid⟩ := hw
  constructor <;> simp only [hh, hv, ht, hl, hr, hwid, hq, hc]
  exacts [h.hInv, h.vInv, h.tFits, h.lFits, h.rFits, h.wFits, h.phaseIdle, h.idxFits]

theorem State.StatusInv.of_same {s t : State} (h : s.StatusInv) (hs : SameStatus s t) : t.StatusInv := by
  obtain ⟨hstatus, hfval, hfwid, hfbits, hfidx, hrpos⟩ := hs
  constructor <;> simp only [hstatus, hfval, hfwid, hfbits, hfidx, hrpos]
  exacts [h.fcodeOfFault, h.fseenOfFault, h.idleIsZero, h.noWidth, h.noField, h.bitsShort]

/-- A change of the working state alone keeps the invariant when it keeps the working state's limits. -/
theorem State.Inv.of_working {s t : State} (h : s.Inv) (hl : SameLists s t) (hs : SameStatus s t) (hc : t.cfg = s.cfg)
    (hw : WorkingFits t) : t.Inv := by
  refine State.Inv.of_parts ?lists ?fidx ?rpos hw (h.statusInv.of_same hs)
  case lists =>
    obtain ⟨hhw, hvals, hdata⟩ := hl
    constructor <;> simp only [hhw, hvals, hdata, hc]
    exacts [h.cfgWf, h.dataWf, h.hwFits, h.valsFit, h.dataFits]
  all_goals obtain ⟨-, -, -, -, hfidx, hrpos⟩ := hs
  case fidx => rw [hfidx, hc]; exact h.fidxFits
  case rpos => rw [RposFits, hrpos, hc]; exact h.rposFits

/-- The model's own input and answer lists are no part of the invariant. -/
theorem State.Inv.with_io {s : State} (h : s.Inv) (inputs : List Input) (answers : List Nat) :
    State.Inv { s with inputs := inputs, answers := answers } :=
  h.of_working ⟨rfl, rfl, rfl⟩ ⟨rfl, rfl, rfl, rfl, rfl, rfl⟩ rfl
    (h.workingFits.of_same ⟨rfl, rfl, rfl, rfl, rfl, rfl, rfl, rfl⟩ rfl rfl)

/-! ## The end of a command (R198, R219) -/

theorem State.complete_statusInv (s : State) (c : Command) : (s.complete c).StatusInv := by
  constructor <;> simp

/-- A command that completes keeps the invariant, its lists and its working state being within their limits. -/
theorem State.complete_Inv {s : State} {c : Command} (hl : ListsFit s) (hp : RposFits s)
    (hw : WorkingFits (s.complete c)) : (s.complete c).Inv := by
  refine State.Inv.of_parts ?_ (.inl (by simp)) (by simpa [RposFits] using hp) hw (s.complete_statusInv c)
  constructor <;> simp only [State.complete_cfg, State.complete_hw, State.complete_vals, State.complete_data]
  exacts [hl.cfgWf, hl.dataWf, hl.hwFits, hl.valsFit, hl.dataFits]

/-- The bits a fault reports missing are 1 to 32 (R213). -/
def Raise.ShortBitsInRange (r : Raise) : Prop := ∀ b, r = .insufficientData b → 1 ≤ b ∧ b ≤ 32

/-- The field index a fault records is SEQ's, or 0 (R212 to R217). -/
theorem Raise.fidx_cases (r : Raise) (s : State) : r.fidx s = 0 ∨ r.fidx s = s.seq.idx := by
  cases r <;> simp [Raise.fidx]

theorem State.raise_statusInv (s : State) (c : Command) (r : Raise) (hb : r.ShortBitsInRange) :
    (s.raise c r).StatusInv := by
  constructor
  case bitsShort =>
    cases r with
    | insufficientData b =>
      obtain ⟨h1, h32⟩ := hb b rfl
      simp only [State.raise_status, Raise.kind, State.raise_fbits, Raise.fbits, if_true, BitVec.toNat_ofNat]
      omega
    | _ => simp [Raise.kind, Raise.fbits]
  case noWidth => cases r <;> simp [Raise.kind, Raise.fval, Raise.fwid, FaultKind.recordsWidth]
  case noField => cases r <;> simp [Raise.kind, Raise.fidx, FaultKind.recordsField]
  all_goals simp

theorem ListsFit.raise {s : State} (hl : ListsFit s) (c : Command) (r : Raise) : ListsFit (s.raise c r) := by
  constructor <;> simp only [State.raise_cfg, State.raise_hw, State.raise_vals, State.raise_data]
  case cfgWf => exact hl.cfgWf
  case hwFits => exact hl.hwFits
  case dataWf => split; exacts [Memory.wf_nil, hl.dataWf]
  case valsFit => split; exacts [Config.admits_zero _, hl.valsFit]
  case dataFits => split; exacts [Config.admits_zero _, hl.dataFits]

/-- A fault keeps the invariant: the field index it records is one of a field, the bits short are in range, RPOS is a
position of DATA and the working state is within its limits. -/
theorem State.raise_Inv {s : State} {c : Command} {r : Raise} (hl : ListsFit s)
    (hx : r.fidx s = 0 ∨ s.seq.idx < s.hw.length) (hp : RposFits (s.raise c r)) (hb : r.ShortBitsInRange)
    (hw : WorkingFits (s.raise c r)) : (s.raise c r).Inv := by
  refine State.Inv.of_parts (hl.raise c r) ?_ hp hw (s.raise_statusInv c r hb)
  rw [State.raise_fidx, State.raise_cfg]
  rcases hx with h0 | hlt
  · exact .inl h0
  · rcases r.fidx_cases s with h0 | hidx
    · exact .inl h0
    · exact .inr (hidx ▸ Config.admits_mono hl.hwFits hlt)

/-! ## CLR and the PUSH commands (R190 to R193) -/

theorem State.Inv.listsFit_clearLists {s : State} (h : s.Inv) (m : BitVec 4) : ListsFit (s.clearLists m) := by
  constructor <;> simp only [State.clearLists_cfg, State.clearLists_hw, State.clearLists_vals, State.clearLists_data]
  case cfgWf => exact h.cfgWf
  case dataWf => split; exacts [Memory.wf_nil, h.dataWf]
  case hwFits => split; exacts [Config.admits_zero _, h.hwFits]
  case valsFit => split; exacts [Config.admits_zero _, h.valsFit]
  case dataFits => split; exacts [Config.admits_zero _, h.dataFits]

/-- A command that is no call keeps the invariant when it leaves the lists within their capacities. -/
theorem State.Inv.complete_lists {s : State} (h : s.Inv) (c : Command) (he : c ≠ .encode) (hd : c ≠ .decode)
    {hw : List Byte} {vals : List Word} {data : Memory}
    (hl : ListsFit { s with hw := hw, vals := vals, data := data }) :
    (State.complete c { s with hw := hw, vals := vals, data := data }).Inv := by
  refine State.complete_Inv hl h.rposFits ?_
  cases c with
  | encode => exact absurd rfl he
  | decode => exact absurd rfl hd
  | clr | pushhw | pushval | pushb | illegal opc =>
    exact h.workingFits.of_same ⟨rfl, rfl, rfl, rfl, rfl, rfl, rfl, rfl⟩ rfl rfl

theorem State.clearStatus_statusInv (s : State) : s.clearStatus.StatusInv := by
  constructor <;> simp [Status.zero]

theorem execClr_keeps_Inv {s t : State} {m : BitVec 4} (h : s.Inv) (e : execClr m s = .next t) : t.Inv := by
  have hl := h.listsFit_clearLists m
  unfold execClr at e
  split at e <;> cases e
  · exact State.Inv.of_parts ⟨hl.cfgWf, hl.dataWf, hl.hwFits, hl.valsFit, hl.dataFits⟩ (.inl rfl)
      (by simp [RposFits]) (h.workingFits.of_same ⟨rfl, rfl, rfl, rfl, rfl, rfl, rfl, rfl⟩ rfl rfl)
      (State.clearStatus_statusInv _)
  · exact h.complete_lists .clr nofun nofun hl

/-- The fault of a PUSH on a full list keeps the invariant. -/
theorem State.Inv.raise_capacityExceeded {s : State} (h : s.Inv) {c : Command} (hi : ∀ o, c ≠ .illegal o)
    (hd : c ≠ .decode) : (s.raise c .capacityExceeded).Inv :=
  State.raise_Inv h.listsFit (.inl rfl) (by simpa [RposFits, hd] using h.rposFits) nofun
    (s.raise_working c _ hi)

theorem execPushhw_keeps_Inv {s t : State} {b : Byte} (h : s.Inv) (e : execPushhw b s = .next t) : t.Inv := by
  rcases push_next e with ⟨-, rfl⟩ | ⟨hroom, rfl⟩
  · exact h.raise_capacityExceeded nofun nofun
  · have hfits : Config.admits s.cfg.maxF (s.hw ++ [b]).length = true := by
      simpa using Config.admits_succ h.hwFits hroom
    exact h.complete_lists .pushhw nofun nofun { h.listsFit with hwFits := hfits }

theorem execPushval_keeps_Inv {s t : State} {v : Word} (h : s.Inv) (e : execPushval v s = .next t) : t.Inv := by
  rcases push_next e with ⟨-, rfl⟩ | ⟨hroom, rfl⟩
  · exact h.raise_capacityExceeded nofun nofun
  · have hfits : Config.admits s.cfg.maxF (s.vals ++ [v]).length = true := by
      simpa using Config.admits_succ h.valsFit hroom
    exact h.complete_lists .pushval nofun nofun { h.listsFit with valsFit := hfits }

theorem execPushb_keeps_Inv {s t : State} {b : Byte} (h : s.Inv) (e : execPushb b s = .next t) : t.Inv := by
  rcases push_next e with ⟨-, rfl⟩ | ⟨hroom, rfl⟩
  · exact h.raise_capacityExceeded nofun nofun
  · have hfits : Config.admits s.cfg.maxB (s.data.push b).dlen = true := by
      simpa using Config.admits_succ h.dataFits hroom
    exact h.complete_lists .pushb nofun nofun
      { h.listsFit with dataWf := Memory.wf_push _ _ h.dataWf, dataFits := hfits }

/-! ## ENCODE and DECODE -/

theorem fieldFault_shortBitsInRange (h : Byte) (v : Word) : (fieldFault h v).ShortBitsInRange := by
  intro b hb
  unfold fieldFault at hb
  split at hb <;> cases hb

theorem execEncode_keeps_Inv {s t : State} (h : s.Inv) (e : execEncode s = .next t) : t.Inv := by
  rcases execEncode_outcome s with ⟨-, e'⟩ | ⟨s', f, -, -, -, -, ⟨henc, e'⟩ | ⟨hidx, b, v, e'⟩⟩ <;>
    cases e.symm.trans e'
  case inl => exact State.raise_Inv h.listsFit (.inl rfl) h.rposFits nofun (s.raise_working _ _ nofun)
  all_goals obtain ⟨H, V, T, W, Q, rfl⟩ := f
  case inr.inl =>
    have hlen := length_packedBits_le henc
    have hfits := Config.admits_maxB (b := ((packedBits s.hw s.vals).length + 7) / 8) h.cfgWf h.hwFits (by omega)
    exact State.complete_Inv ⟨h.cfgWf, Memory.wf_ofBytes _, h.hwFits, h.valsFit, by simpa using hfits⟩ h.rposFits
      (State.complete_encode_working _ h.lFits h.rFits)
  case inr.inr =>
    exact State.raise_Inv ⟨h.cfgWf, h.dataWf, h.hwFits, h.valsFit, h.dataFits⟩ (.inr hidx) h.rposFits
      (fieldFault_shortBitsInRange b v) (State.raise_working _ _ _ nofun)

/-- A position of DATA is within 8 * MAXB. -/
theorem State.Inv.position_fits {s : State} (h : s.Inv) {p : Nat} (hp : p ≤ 8 * s.data.dlen) :
    Config.admits s.cfg.maxB ((p + 7) / 8) = true :=
  Config.admits_mono h.dataFits (by omega)

theorem execDecode_keeps_Inv {s t : State} (h : s.Inv) (e : execDecode s = .next t) : t.Inv := by
  rcases execDecode_outcome s h.dataWf with
    ⟨-, e'⟩ | ⟨-, s', f, -, -, ⟨-, hend, e'⟩ | ⟨hidx, hpos, r, e', hr⟩⟩ <;> cases e.symm.trans e'
  case inl =>
    exact State.raise_Inv h.listsFit (.inl rfl) (by simp [RposFits, Raise.rpos]) nofun (s.raise_working _ _ nofun)
  all_goals obtain ⟨P, X, L, R, Q, rfl⟩ := f
  case inr.inl =>
    exact State.complete_Inv ⟨h.cfgWf, h.dataWf, h.hwFits, by simpa using h.hwFits, h.dataFits⟩
      (h.position_fits hend) (State.complete_decode_working _ h.hInv h.vInv h.tFits h.wFits)
  case inr.inr =>
    refine State.raise_Inv ⟨h.cfgWf, h.dataWf, h.hwFits, h.valsFit, h.dataFits⟩ (.inr hidx) ?rpos ?bits
      (State.raise_working _ _ _ nofun)
    all_goals rcases hr with ⟨k, rfl⟩ | ⟨b, h1, h32, rfl⟩
    case rpos.inl => exact h.position_fits hpos
    case rpos.inr => exact h.position_fits hpos
    case bits.inl => nofun
    case bits.inr => rintro _ ⟨⟩; exact ⟨h1, h32⟩

/-! ## The micro-operations -/

/-- A written context that meets R29 keeps the invariant. -/
theorem State.Inv.setCtx {s : State} (h : s.Inv) (c : Ctx) {x : Writer} (hx : x.Inv) : (s.setCtx c x).Inv := by
  cases c with
  | H => exact h.of_working ⟨rfl, rfl, rfl⟩ ⟨rfl, rfl, rfl, rfl, rfl, rfl⟩ rfl { h.workingFits with hInv := hx }
  | V => exact h.of_working ⟨rfl, rfl, rfl⟩ ⟨rfl, rfl, rfl, rfl, rfl, rfl⟩ rfl { h.workingFits with vInv := hx }

/-- Either context meets R29. -/
theorem State.Inv.ctx {s : State} (h : s.Inv) (c : Ctx) : (s.ctx c).Inv := by
  cases c with
  | H => exact h.hInv
  | V => exact h.vInv

theorem State.Inv.latchWidth {s : State} (h : s.Inv) (v : Word) : (s.latchWidth v).Inv :=
  h.of_working ⟨rfl, rfl, rfl⟩ ⟨rfl, rfl, rfl, rfl, rfl, rfl⟩ rfl { h.workingFits with wFits := bw_le v }

/-- RD.POS and the POP latch have no limits to keep. -/
theorem State.Inv.with_reader {s : State} (h : s.Inv) (p : Nat) (x : Word) :
    State.Inv { s with rdpos := p, popped := x } :=
  h.of_working ⟨rfl, rfl, rfl⟩ ⟨rfl, rfl, rfl, rfl, rfl, rfl⟩ rfl
    ⟨h.hInv, h.vInv, h.tFits, h.lFits, h.rFits, h.wFits, h.seqIdle, h.idxFits⟩

theorem execAppend_keeps_Inv {s t : State} {c : Ctx} {v : Word} {width : Byte} {lb : Bool} (h : s.Inv)
    (e : execAppend c v width lb s = .next t) : t.Inv := by
  have hok := Micro.endMicro_next_of_idle (m := s.append c v width.toNat lb)
    (fun r s' hr => (s.append_raised s' c v _ lb r hr).2.2 ▸ h.seqIdle) e
  obtain ⟨-, -, -, rfl⟩ := s.append_ok t c v _ lb hok
  exact h.setCtx c (Writer.pushBits_Inv _ _ (h.ctx c))

theorem execFinish_keeps_Inv {s t : State} {c : Ctx} (h : s.Inv) (e : execFinish c s = .next t) : t.Inv := by
  have hok := Micro.endMicro_next_of_idle (m := s.finish c)
    (fun r s' hr => absurd hr (s.finish_not_raised s' c r)) e
  obtain ⟨-, rfl⟩ := s.finish_ok t c hok
  exact h.setCtx c (Writer.flush_Inv _ (h.ctx c))

theorem execSplice_keeps_Inv {s t : State} {n : Nat} (h : s.Inv) (e : execSplice n s = .next t) : t.Inv := by
  have hok := Micro.endMicro_next_of_idle (m := s.splice n)
    (fun r s' hr => absurd hr (s.splice_not_raised n s' r)) e
  obtain ⟨-, rfl⟩ := s.splice_ok n t hok
  exact h.setCtx .H (Writer.pushBits_Inv _ _ h.hInv)

theorem execPop_keeps_Inv {s t : State} {width : Nat} {lb : Bool} (h : s.Inv) (e : execPop width lb s = .next t) :
    t.Inv := by
  have hok := Micro.endMicro_next_of_idle (m := s.pop width lb)
    (fun r s' hr => (s.pop_raised s' width lb r hr).1 ▸ h.seqIdle) e
  obtain ⟨-, x, rfl, -⟩ := s.pop_ok t width lb hok
  exact h.with_reader _ x

/-! ## Every step -/

/-- Every instruction, a host command or a micro-operation, keeps the invariant. -/
theorem exec_keeps_Inv {s t : State} {i : Instr} (h : s.Inv) (e : exec i s = .next t) : t.Inv := by
  cases i with
  | clr m => exact execClr_keeps_Inv h e
  | pushhw b => exact execPushhw_keeps_Inv h e
  | pushval v => exact execPushval_keeps_Inv h e
  | pushb b => exact execPushb_keeps_Inv h e
  | encode => exact execEncode_keeps_Inv h e
  | decode => exact execDecode_keeps_Inv h e
  | bw v => cases e; exact h.latchWidth v
  | winit c => cases e; exact h.setCtx c Writer.empty_Inv
  | append c v width lb => exact execAppend_keeps_Inv h e
  | finish c => exact execFinish_keeps_Inv h e
  | splice n => exact execSplice_keeps_Inv h e
  | rinit => cases e; exact h.with_reader 0 s.popped
  | pop width lb => exact execPop_keeps_Inv h e

/-- An illegal word keeps the invariant: only the fault is recorded, and SEQ put at (IDLE, 0) (R194). -/
theorem State.Inv.raise_illegal {s : State} (h : s.Inv) (opc : BitVec 4) :
    (s.raise (.illegal opc) .illegalCommand).Inv :=
  State.raise_Inv h.listsFit (.inl rfl) h.rposFits nofun
    { h.workingFits with phaseIdle := rfl, idxFits := Config.admits_zero _ }

/-- Settles O13, by the cases of a step and of the instruction it executes. -/
theorem everyStepKeepsTheInvariant : Obligations.EveryStepKeepsTheInvariant := by
  intro s t h e
  rcases step_cases e with ⟨-, rfl⟩ | ⟨rest, ⟨w, i, -, -, -, e⟩ | ⟨w, i, -, -, -, e⟩ | ⟨w, -, rfl⟩ |
    ⟨sp, i, v, -, -, rfl⟩⟩
  · exact h
  · exact exec_keeps_Inv (h.with_io rest s.answers) e
  · exact exec_keeps_Inv (h.with_io rest s.answers) e
  · exact (h.with_io rest s.answers).raise_illegal (opcField w)
  · exact h.with_io rest (s.answers ++ [v])

end Sys2Proof.Machine
end

section
/-! PROOFS. The streams' capacities (R5, R28, R155), stream positions (R8) and the presented command (R12). -/

namespace Sys2Proof.Machine

open Sys2Proof

/-! ## The streams under the host commands -/

theorem State.StreamsFit.of_same {s t : State} (h : s.StreamsFit) (hc : t.cfg = s.cfg) (hh : t.hctx = s.hctx)
    (hv : t.vctx = s.vctx) : t.StreamsFit :=
  ⟨hc ▸ hh ▸ h.hFits, hc ▸ hv ▸ h.vFits⟩

/-- A fault of a host command abandons the writer within the capacities (R219). -/
theorem State.raise_streamsFit (s : State) {c : Command} (r : Raise) (hc : ∀ o, c ≠ .illegal o) :
    (s.raise c r).StreamsFit := by
  have habandoned := ((s.recordFault c r).emptyDestination c r).abandonWriter_streamsFit
  cases c with
  | illegal o => exact absurd rfl (hc o)
  | clr | pushhw | pushval | pushb | encode | decode => exact habandoned.of_same rfl rfl rfl

/-- So does the end of an ENCODE (U6). -/
theorem State.complete_encode_streamsFit (s : State) : (s.complete .encode).StreamsFit :=
  (s.recordOk .encode).abandonWriter_streamsFit.of_same rfl rfl rfl

/-- A host command faults, or ends an ENCODE, or leaves both streams as they were (R28, R115, R190, R219). -/
theorem exec_host_writer {s t : State} {i : Instr} (hi : i.op.isHost = true) (e : exec i s = .next t) :
    (∃ c r s', (∀ o, c ≠ .illegal o) ∧ t = State.raise c r s') ∨ (∃ s', t = State.complete .encode s') ∨
      (t.cfg = s.cfg ∧ t.hctx = s.hctx ∧ t.vctx = s.vctx) := by
  cases i with
  | clr m =>
    simp only [exec, execClr] at e
    split at e <;> cases e <;> exact .inr (.inr ⟨rfl, rfl, rfl⟩)
  | pushhw b =>
    rcases push_next e with ⟨-, rfl⟩ | ⟨-, rfl⟩
    · exact .inl ⟨.pushhw, _, _, nofun, rfl⟩
    · exact .inr (.inr ⟨rfl, rfl, rfl⟩)
  | pushval v =>
    rcases push_next e with ⟨-, rfl⟩ | ⟨-, rfl⟩
    · exact .inl ⟨.pushval, _, _, nofun, rfl⟩
    · exact .inr (.inr ⟨rfl, rfl, rfl⟩)
  | pushb b =>
    rcases push_next e with ⟨-, rfl⟩ | ⟨-, rfl⟩
    · exact .inl ⟨.pushb, _, _, nofun, rfl⟩
    · exact .inr (.inr ⟨rfl, rfl, rfl⟩)
  | encode =>
    rcases execEncode_outcome s with ⟨-, e'⟩ | ⟨s', -, -, -, -, -, ⟨-, e'⟩ | ⟨-, b, v, e'⟩⟩ <;> cases e.symm.trans e'
    · exact .inl ⟨.encode, _, _, nofun, rfl⟩
    · exact .inr (.inl ⟨_, rfl⟩)
    · exact .inl ⟨.encode, _, _, nofun, rfl⟩
  | decode =>
    rcases execDecode_next e with ⟨s', rfl, hc, hh, hv⟩ | ⟨r, s', rfl⟩
    · exact .inr (.inr ⟨by simpa using hc, by simpa using hh, by simpa using hv⟩)
    · exact .inl ⟨.decode, _, _, nofun, rfl⟩
  | bw | winit | append | finish | splice | rinit | pop => cases hi

theorem exec_host_keeps_streamsFit {s t : State} {i : Instr} (hi : i.op.isHost = true) (h : s.StreamsFit)
    (e : exec i s = .next t) : t.StreamsFit := by
  rcases exec_host_writer hi e with ⟨c, r, s', hc, rfl⟩ | ⟨s', rfl⟩ | ⟨hc, hh, hv⟩
  · exact s'.raise_streamsFit r hc
  · exact s'.complete_encode_streamsFit
  · exact h.of_same hc hh hv

/-! ## The streams inside an ENCODE -/

/-- A run of fields that comes to its end has appended every field (R151, R218). -/
theorem State.encodeFields_ok {fields : List (Byte × Word)} {i : Nat} {s u : State} (hs : Writing s)
    (e : State.encodeFields i fields s = .ok u) :
    fields.all fieldFits = true ∧ Appended s u (fields.flatMap headerField) (fields.flatMap valueBits) := by
  rcases fields_cases fields with hall | ⟨pre, h, v, post, rfl, hp, hf⟩
  · obtain ⟨s', e', a⟩ := State.encodeFields_fit fields i s hs hall
    cases e.symm.trans e'
    exact ⟨hall, a⟩
  · obtain ⟨s', -, e'⟩ := State.encodeFields_unfit pre post h v i s hs hp hf
    cases e.symm.trans e'

/-- ENCODE's writer after fields that number at most `n`, within MAXF: at most 32 bits a field in H, at most 31 in V. -/
structure WriterBounded (u : State) (n : Nat) : Prop where
  cfgWf : u.cfg.wf = true
  room : Config.admits u.cfg.maxF n = true
  writing : Writing u
  hBits : u.hctx.bits.length ≤ 32 * n
  vBits : u.vctx.bits.length ≤ 31 * n
  total : u.t = u.vctx.bits.length

theorem State.encodeFields_bounded {s u : State} {fields : List (Byte × Word)} {n : Nat} (hc : s.cfg.wf = true)
    (hn : Config.admits s.cfg.maxF n = true) (hlen : fields.length ≤ n)
    (e : State.encodeFields 0 fields s.encodeInit = .ok u) : WriterBounded u n := by
  obtain ⟨hall, a⟩ := State.encodeFields_ok s.encodeInit_writing e
  have hh : u.hctx.bits = fields.flatMap headerField := a.hBits
  have hv : u.vctx.bits = fields.flatMap valueBits := a.vBits
  have ht : u.t = 0 + (fields.flatMap valueBits).length := a.total
  have hcfg : u.cfg = s.cfg := by obtain ⟨H, V, T, W, Q, rfl⟩ := a.frame; rfl
  have hb := length_headerFields_le hall
  have vb := length_valueFields_le fields
  exact ⟨hcfg ▸ hc, hcfg ▸ hn, a.writing, by rw [hh]; omega, by rw [hv]; omega, by rw [ht, hv, Nat.zero_add]⟩

theorem Writer.length_flush_out (x : Writer) (h : x.Inv) : x.flush.out.length = (x.bits.length + 7) / 8 := by
  rw [x.flush_out h, length_bytesOf]

theorem WriterBounded.hFits {u : State} {n : Nat} (b : WriterBounded u n) :
    Config.admits u.cfg.maxB u.hctx.out.length = true := by
  have := b.hBits
  exact Config.admits_maxB b.cfgWf b.room (by rw [Writer.length_out _ b.writing.hInv]; omega)

/-- The capacities hold after the fields (R28). -/
theorem WriterBounded.streamsFit {u : State} {n : Nat} (b : WriterBounded u n) : u.StreamsFit := by
  have := b.vBits
  exact ⟨b.hFits, Config.admits_vCap b.room (by rw [Writer.length_out _ b.writing.vInv]; omega)⟩

/-- The flushed V is within VCAP (R5, R113). -/
theorem WriterBounded.flush_vFits {u : State} {n : Nat} (b : WriterBounded u n) :
    Config.admits u.cfg.vCap u.vctx.flush.out.length = true := by
  have := b.vBits
  exact Config.admits_vCap b.room (by rw [Writer.length_flush_out _ b.writing.vInv]; omega)

/-- The capacities hold after FINISH V. -/
theorem WriterBounded.finish_V_streamsFit {u v : State} {n : Nat} (b : WriterBounded u n)
    (e : u.finish .V = .ok v) : v.StreamsFit := by
  obtain ⟨-, rfl⟩ := u.finish_ok v .V e
  exact ⟨b.hFits, b.flush_vFits⟩

/-- H with the bits of V spliced in and flushed has at most 63 bits a field and its pad (R155). -/
theorem WriterBounded.spliced_hFits {u : State} {n : Nat} (b : WriterBounded u n) :
    Config.admits u.cfg.maxB (u.hctx.pushBits u.vctx.bits).flush.out.length = true := by
  have hh := b.hBits
  have hv := b.vBits
  refine Config.admits_maxB b.cfgWf b.room ?_
  rw [Writer.length_flush_out _ (Writer.pushBits_Inv _ _ b.writing.hInv), Writer.pushBits_bits _ _ b.writing.hInv,
    List.length_append]
  omega

/-- The capacities hold at the end of ENCODE. -/
theorem WriterBounded.encodeTail_streamsFit {u v : State} {n : Nat} (b : WriterBounded u n)
    (e : u.encodeTail = .ok v) : v.StreamsFit := by
  obtain ⟨s', f, hh, hv, -, -, e'⟩ := u.encodeTail_eq b.writing b.total
  cases e.symm.trans e'
  have hcfg : s'.cfg = u.cfg := by obtain ⟨H, V, T, W, Q, rfl⟩ := f; rfl
  exact ⟨hcfg ▸ hh ▸ b.spliced_hFits, hcfg ▸ hv ▸ b.flush_vFits⟩

/-- Settles O53: the host commands by how they leave the writer, the inside of ENCODE by counting the bits of its fields. -/
theorem streamsStayWithinTheirCapacities : Obligations.StreamsStayWithinTheirCapacities := by
  refine ⟨fun _ _ _ hi h e => exec_host_keeps_streamsFit hi h e,
    fun s hc hn => ⟨fun k u e => ?_, fun u v e etail => ?_⟩⟩
  · have b := State.encodeFields_bounded hc hn (by simp) e
    exact ⟨b.streamsFit, fun v => b.finish_V_streamsFit⟩
  · exact (State.encodeFields_bounded hc hn (by simp) e).encodeTail_streamsFit etail

/-! ## Stream positions and the presented command -/

/-- Settles O47: a read of canonical DATA is its byte list, whose bit string has position p in byte p div 8. -/
theorem streamPositionsAreMostSignificantFirst : Obligations.StreamPositionsAreMostSignificantFirst := by
  intro m p b hm hread
  have hbyte : m.bytes[p / 8]? = some b := by rw [← Memory.read_eq m hm, hread]
  have hbit : (streamBits m.bytes)[p]? = some (b.getLsbD (7 - p % 8)) := by
    rw [getElem?_streamBits, hbyte, Option.map_some, byteBit]
  have hlt : p / 8 < m.dlen := by
    rw [← Memory.length_bytes]
    exact (List.getElem?_eq_some_iff.mp hbyte).1
  exact ⟨(Memory.bit_eq m hm p).trans hbit, hbit, hbyte, by omega⟩

/-- Settles O5: the host port executes what the word decodes to (`step_host`). -/
theorem stepRunsThePresentedCommand : Obligations.StepRunsThePresentedCommand :=
  fun _ _ _ _ hin hd hi => step_host hin hd hi

end Sys2Proof.Machine
end

section
/-! PROOFS. Reset and the host's view: what the registers, the STATUS word and a host read return (R24, R26, R36, R197). -/

namespace Sys2Proof.Machine

open Sys2Proof

/-! ## Reset (R36) -/

/-- Settles O11, register by register. -/
theorem resetLeavesEverythingZero : Obligations.ResetLeavesEverythingZero := by
  refine ⟨rfl, rfl, rfl, fun i hi => ?_, rfl⟩
  interval_cases i <;> rfl

theorem State.reset_listsFit : ListsFit State.reset := ⟨rfl, Memory.wf_nil, rfl, rfl, rfl⟩

theorem State.reset_workingFits : WorkingFits State.reset :=
  ⟨Writer.empty_Inv, Writer.empty_Inv, nofun, rfl, rfl, Nat.zero_le 32, rfl, rfl⟩

theorem State.reset_statusInv : State.reset.StatusInv :=
  { fcodeOfFault := by decide, fseenOfFault := by decide, idleIsZero := fun _ => ⟨rfl, rfl⟩,
    noWidth := fun _ => ⟨rfl, rfl⟩, noField := fun _ => rfl, bitsShort := by decide }

/-- Settles O12, from the invariant's parts. -/
theorem resetMeetsTheInvariant : Obligations.ResetMeetsTheInvariant :=
  ⟨State.Inv.of_parts State.reset_listsFit (.inl rfl) rfl State.reset_workingFits State.reset_statusInv, rfl, rfl⟩

/-! ## STATUS (R26) -/

theorem Status.word_state (st : Status) : st.word.extractLsb' 0 2 = st.state.code :=
  (BitVec.extractLsb'_append_eq_of_add_le (by decide)).trans BitVec.extractLsb'_eq_self

theorem Status.word_fseen (st : Status) : st.word.getLsbD 2 = st.fseen := by
  simp only [Status.word, BitVec.getLsbD_append]
  simp

theorem Status.word_reserved (st : Status) : st.word.getLsbD 3 = false := by
  simp only [Status.word, BitVec.getLsbD_append]
  simp

/-- A field of STATUS from bit 4 on lies above STATE, FSEEN and the reserved bit. -/
theorem Status.word_above (st : Status) (n len : Nat) :
    st.word.extractLsb' (4 + n) len = (0#21 ++ fcodeBits st.fcode ++ st.lastop).extractLsb' n len := by
  refine (BitVec.extractLsb'_append_eq_of_le (w := 2) (by omega)).trans <|
    (BitVec.extractLsb'_append_eq_of_le (w := 1) (by omega)).trans <|
    (BitVec.extractLsb'_append_eq_of_le (w := 1) (by omega)).trans ?_
  congr 1
  omega

theorem Status.word_lastop (st : Status) : st.word.extractLsb' 4 4 = st.lastop :=
  (st.word_above 0 4).trans <|
    (BitVec.extractLsb'_append_eq_of_add_le (by decide)).trans BitVec.extractLsb'_eq_self

theorem Status.word_fcode (st : Status) : st.word.extractLsb' 8 3 = fcodeBits st.fcode :=
  (st.word_above 4 3).trans <| (BitVec.extractLsb'_append_eq_of_le (w := 4) (by decide)).trans <|
    (BitVec.extractLsb'_append_eq_of_add_le (by decide)).trans BitVec.extractLsb'_eq_self

theorem Status.word_top (st : Status) : st.word.extractLsb' 11 21 = 0#21 :=
  (st.word_above 7 21).trans <| (BitVec.extractLsb'_append_eq_of_le (w := 4) (by decide)).trans <|
    (BitVec.extractLsb'_append_eq_of_le (w := 3) (by decide)).trans BitVec.extractLsb'_eq_self

/-- Settles O45, field by field; the codes of R26 and R210 are read off their tables. -/
theorem statusWordLayout : Obligations.StatusWordLayout := by
  intro st
  refine ⟨st.word_state.trans ?state, st.word_fseen, st.word_reserved, st.word_lastop, st.word_fcode.trans ?fcode,
    st.word_top⟩
  case state => cases st.state <;> rfl
  case fcode =>
    cases st.fcode with
    | none => rfl
    | some k => cases k <;> rfl

/-! ## Host reads (R197) -/

/-- Registers 0 to 8 as the list R26 numbers them in. -/
theorem State.register_eq_getElem? (s : State) (i : Nat) :
    s.register i = [s.status.word.toNat, s.fval.toNat, s.fwid.toNat, s.fbits.toNat, s.fidx, s.rpos, s.hw.length,
      s.vals.length, s.data.dlen][i]? := by
  rcases i with _ | _ | _ | _ | _ | _ | _ | _ | _ | i <;> rfl

theorem step_read {s : State} {sp : Space} {i : Nat} {rest : List Input} (hin : s.inputs = .read sp i :: rest) :
    step s = hostRead sp i { s with inputs := rest } := by
  simp only [step, hin]

theorem hostRead_some {s : State} {sp : Space} {i v : Nat} (hv : s.readValue sp i = some v) :
    hostRead sp i s = .next { s with answers := s.answers ++ [v] } := by
  simp only [hostRead, hv]

theorem hostRead_none {s : State} {sp : Space} {i : Nat} (hv : s.readValue sp i = none) :
    hostRead sp i s = .refused .readOfNoEntry := by
  simp only [hostRead, hv]

/-- Settles O46: what the read port finds in each space, an entry or none. -/
theorem hostReadReturnsTheEntry : Obligations.HostReadReturnsTheEntry := by
  intro s sp i rest hin hd
  rw [step_read hin]
  refine ⟨fun v hv => hostRead_some ?_, fun hi => hostRead_none ?_⟩
  · cases sp with
    | registers => exact (s.register_eq_getElem? i).trans hv
    | hw | vals => exact hv
    | data => rw [State.readValue, Memory.read_eq _ hd]; exact hv
  · cases sp with
    | registers => exact (s.register_eq_getElem? i).trans (List.getElem?_eq_none hi)
    | hw | vals => simpa [State.readValue] using hi
    | data => simpa [State.readValue, Memory.read_eq _ hd] using hi

end Sys2Proof.Machine
end

section
/-! PROOFS. The interface state, all that the host can read and that is carried from command to command (R35): what
micro-operations and host commands do to it, and that the working state has no part in it (R115, R134). -/

namespace Sys2Proof.Machine

open Sys2Proof

/-! ## States with the same interface state -/

/-- The interface state of `s` with the working state of `u`. -/
def State.withWorkingOf (s u : State) : State :=
  { s with
    hctx := u.hctx, vctx := u.vctx, t := u.t, rdpos := u.rdpos, popped := u.popped, l := u.l, r := u.r, w := u.w
    seq := u.seq, fresh := u.fresh }

theorem SameInterface.withWorkingOf (s u : State) : SameInterface s (s.withWorkingOf u) :=
  ⟨⟨rfl, rfl, rfl⟩, ⟨rfl, rfl, rfl, rfl, rfl, rfl⟩, rfl, rfl, rfl⟩

theorem SameInterface.eq_withWorkingOf {s t : State} (h : SameInterface s t) : t = s.withWorkingOf t := by
  obtain ⟨⟨hhw, hvals, hdata⟩, ⟨hstatus, hfval, hfwid, hfbits, hfidx, hrpos⟩, hcfg, hinputs, hanswers⟩ := h
  simp only [State.withWorkingOf, ← hhw, ← hvals, ← hdata, ← hstatus, ← hfval, ← hfwid, ← hfbits, ← hfidx, ← hrpos,
    ← hcfg, ← hinputs, ← hanswers]

theorem sameInterface_iff {s t : State} : SameInterface s t ↔ ∃ u, t = s.withWorkingOf u :=
  ⟨fun h => ⟨t, h.eq_withWorkingOf⟩, fun ⟨u, hu⟩ => hu ▸ SameInterface.withWorkingOf s u⟩

theorem SameInterface.symm {s t : State} (h : SameInterface s t) : SameInterface t s := by
  obtain ⟨u, rfl⟩ := sameInterface_iff.mp h
  exact SameInterface.withWorkingOf (s.withWorkingOf u) s

theorem SameInterface.trans {s t u : State} (h : SameInterface s t) (k : SameInterface t u) : SameInterface s u := by
  obtain ⟨t', rfl⟩ := sameInterface_iff.mp h
  obtain ⟨u', rfl⟩ := sameInterface_iff.mp k
  exact SameInterface.withWorkingOf s u'

theorem SameInterface.hw_eq {s t : State} (h : SameInterface s t) : t.hw = s.hw := h.1.1

theorem SameInterface.inputs_eq {s t : State} (h : SameInterface s t) : t.inputs = s.inputs := by
  obtain ⟨-, -, -, hinputs, -⟩ := h
  exact hinputs

theorem SameInterface.setCtx (s : State) (c : Ctx) (x : Writer) : SameInterface s (s.setCtx c x) := by
  cases c with
  | H => exact SameInterface.withWorkingOf s { s with hctx := x }
  | V => exact SameInterface.withWorkingOf s { s with vctx := x }

theorem EncodeFrame.sameInterface {s t : State} (f : EncodeFrame s t) : SameInterface s t := by
  obtain ⟨H, V, T, W, Q, rfl⟩ := f
  exact SameInterface.withWorkingOf s { s with hctx := H, vctx := V, t := T, w := W, seq := Q }

theorem DecodeFrame.sameInterface {s t : State} (f : DecodeFrame s t) : SameInterface s t := by
  obtain ⟨P, X, L, R, Q, rfl⟩ := f
  exact SameInterface.withWorkingOf s { s with rdpos := P, popped := X, l := L, r := R, seq := Q }

/-! ## What a micro-operation and a host command do to the lists (R21 to R23, R74) -/

/-- With SEQ IDLE a micro-operation changes working state only (R35, R74). -/
theorem exec_micro_sameInterface {s t : State} {i : Instr} (hi : i.op.isHost = false) (hq : s.seq.phase = .idle)
    (e : exec i s = .next t) : SameInterface s t := by
  cases i with
  | clr | pushhw | pushval | pushb | encode | decode => cases hi
  | bw v => cases e; exact SameInterface.withWorkingOf s (s.latchWidth v)
  | winit c => cases e; exact SameInterface.setCtx s c _
  | append c v width lb =>
    have hok := Micro.endMicro_next_of_idle (m := s.append c v width.toNat lb)
      (fun r s' hr => (s.append_raised s' c v _ lb r hr).2.2 ▸ hq) e
    obtain ⟨-, -, -, rfl⟩ := s.append_ok t c v _ lb hok
    exact SameInterface.setCtx s c _
  | finish c =>
    have hok := Micro.endMicro_next_of_idle (m := s.finish c)
      (fun r s' hr => absurd hr (s.finish_not_raised s' c r)) e
    obtain ⟨-, rfl⟩ := s.finish_ok t c hok
    exact SameInterface.setCtx s c _
  | splice n =>
    have hok := Micro.endMicro_next_of_idle (m := s.splice n)
      (fun r s' hr => absurd hr (s.splice_not_raised n s' r)) e
    obtain ⟨-, rfl⟩ := s.splice_ok n t hok
    exact SameInterface.setCtx s .H _
  | rinit => cases e; exact SameInterface.withWorkingOf s s.rinit
  | pop width lb =>
    have hok := Micro.endMicro_next_of_idle (m := s.pop width lb)
      (fun r s' hr => (s.pop_raised s' width lb r hr).1 ▸ hq) e
    exact (DecodeFrame.of_pop hok).sameInterface

/-- The state a sequence of micro-operations leaves, or raises in, if it does either. -/
def Micro.EndsIn (p : State → Prop) (m : Micro) : Prop :=
  match m with
  | .ok s | .raised _ s => p s
  | .stuck _ | .refuse _ => True

theorem Micro.EndsIn.mono {p q : State → Prop} {m : Micro} (h : m.EndsIn p) (hpq : ∀ s, p s → q s) : m.EndsIn q := by
  cases m with
  | ok s | raised r s => exact hpq s h
  | stuck e | refuse e => trivial

theorem Micro.EndsIn.andThen {p : State → Prop} {m : Micro} {f : State → Micro} (h : m.EndsIn p)
    (hf : ∀ s, p s → (f s).EndsIn p) : (m.andThen f).EndsIn p := by
  cases m with
  | ok s => exact hf s h
  | raised r s => exact h
  | stuck e | refuse e => trivial

theorem Micro.EndsIn.endCommand_next {p : State → Prop} {m : Micro} {c : Command} {t : State} (h : m.EndsIn p)
    (e : m.endCommand c = .next t) : (∃ s, p s ∧ t = s.complete c) ∨ ∃ r s, p s ∧ t = s.raise c r := by
  rcases Micro.endCommand_next e with ⟨s, rfl, ht⟩ | ⟨r, s, rfl, ht⟩
  · exact .inl ⟨s, h, ht⟩
  · exact .inr ⟨r, s, h, ht⟩

theorem State.pop_endsIn (s : State) (width : Nat) (lb : Bool) : (s.pop width lb).EndsIn (DecodeFrame s) := by
  cases h : s.pop width lb with
  | ok s' => exact DecodeFrame.of_pop h
  | raised r s' => exact (s.pop_raised s' width lb r h).1 ▸ DecodeFrame.refl s
  | stuck e | refuse e => trivial

/-- The header pass ends or raises with only the reader's working state changed. -/
theorem State.decodeHeaders_endsIn {s₀ s : State} (hs : List Byte) (i : Nat) (f : DecodeFrame s₀ s) :
    (State.decodeHeaders i hs s).EndsIn (DecodeFrame s₀) := by
  induction hs generalizing i s with
  | nil => exact f
  | cons h hs ih =>
    have f₁ := f.trans (DecodeFrame.atSeq s .decHdr i)
    exact (((s.atSeq .decHdr i).pop_endsIn _ _).mono fun _ => f₁.trans).andThen
      fun s₁ f₂ => ih (i + 1) (f₂.trans ⟨_, _, _, _, _, rfl⟩)

theorem State.decodeValue_endsIn {s₀ s : State} (i : Nat) (w : Word) (f : DecodeFrame s₀ s) :
    (s.decodeValue i w).EndsIn (DecodeFrame s₀) := by
  have f₁ := f.trans (DecodeFrame.atSeq s .decVal i)
  unfold State.decodeValue
  split
  · exact f₁.trans ⟨_, _, _, _, _, rfl⟩
  · exact (((s.atSeq .decVal i).pop_endsIn _ _).mono fun _ => f₁.trans).andThen
      fun s₁ f₂ => f₂.trans ⟨_, _, _, _, _, rfl⟩

/-- So does the value pass. -/
theorem State.decodeValues_endsIn {s₀ s : State} (ws : List Word) (i : Nat) (f : DecodeFrame s₀ s) :
    (State.decodeValues i ws s).EndsIn (DecodeFrame s₀) := by
  induction ws generalizing i s with
  | nil => exact f
  | cons w ws ih => exact (State.decodeValue_endsIn i w f).andThen fun s₁ f₁ => ih (i + 1) f₁

/-- ENCODE leaves its source lists (R150, R219). -/
theorem execEncode_sources {s t : State} (e : execEncode s = .next t) : t.hw = s.hw ∧ t.vals = s.vals := by
  rcases execEncode_outcome s with ⟨-, e'⟩ | ⟨s', f, -, -, -, -, ⟨-, e'⟩ | ⟨-, b, v, e'⟩⟩ <;> cases e.symm.trans e'
  case inl => exact ⟨by simp, by simp⟩
  all_goals obtain ⟨hhw, hvals, -⟩ := f.sameInterface.1
  case inr.inl => exact ⟨by simpa using hhw, by simpa using hvals⟩
  case inr.inr => exact ⟨by simpa using hhw, by simpa using hvals⟩

/-- DECODE from any state, DATA in canonical form or not, leaves its source lists (R170, R219). -/
theorem execDecode_sources {s t : State} (e : execDecode s = .next t) : t.hw = s.hw ∧ t.data = s.data := by
  unfold execDecode at e
  split at e
  next => cases e; exact ⟨by simp, by simp⟩
  next =>
    have f₀ : DecodeFrame s s.decodeInit := ⟨_, _, _, _, _, rfl⟩
    have hpasses := (State.decodeHeaders_endsIn s.hw 0 f₀).andThen fun s₁ f₁ => State.decodeValues_endsIn s₁.l 0 f₁
    have hend := (hpasses.mono fun u f => And.intro f.sameInterface.hw_eq f.data).andThen
      (f := State.decodeTail) fun _ h => h
    rcases hend.endCommand_next e with ⟨s', ⟨hhw, hdata⟩, rfl⟩ | ⟨r, s', ⟨hhw, hdata⟩, rfl⟩ <;> simp [hhw, hdata]

/-- A host command leaves every list but those it is for (R21 to R23, R190 to R193, R219). -/
theorem exec_host_lists {s t : State} {i : Instr} (hi : i.op.isHost = true) (e : exec i s = .next t) :
    (i.op ≠ .pushhw → i.op ≠ .clr → t.hw = s.hw) ∧
    (i.op ≠ .pushval → i.op ≠ .clr → i.op ≠ .decode → t.vals = s.vals) ∧
    (i.op ≠ .pushb → i.op ≠ .clr → i.op ≠ .encode → t.data = s.data) := by
  cases i with
  | clr m => exact ⟨fun _ h => absurd rfl h, fun _ h => absurd rfl h, fun _ h => absurd rfl h⟩
  | pushhw b => rcases push_next e with ⟨-, rfl⟩ | ⟨-, rfl⟩ <;> simp [Instr.op]
  | pushval v => rcases push_next e with ⟨-, rfl⟩ | ⟨-, rfl⟩ <;> simp [Instr.op]
  | pushb b => rcases push_next e with ⟨-, rfl⟩ | ⟨-, rfl⟩ <;> simp [Instr.op]
  | encode =>
    obtain ⟨hhw, hvals⟩ := execEncode_sources e
    exact ⟨fun _ _ => hhw, fun _ _ _ => hvals, fun _ _ h => absurd rfl h⟩
  | decode =>
    obtain ⟨hhw, hdata⟩ := execDecode_sources e
    exact ⟨fun _ _ => hhw, fun _ _ h => absurd rfl h, fun _ _ _ => hdata⟩
  | bw | winit | append | finish | splice | rinit | pop => cases hi

/-- Settles O50: a host command by its own lists, a micro-operation outside a call by the interface state. -/
theorem eachListChangesByItsCommandsOnly : Obligations.EachListChangesByItsCommandsOnly := by
  intro s t i hq e
  cases hi : i.op.isHost with
  | true =>
    obtain ⟨hhw, hvals, hdata⟩ := exec_host_lists hi e
    exact ⟨hhw, hvals, fun h₁ h₂ h₃ => ⟨hdata h₁ h₂ h₃, fun a => by rw [hdata h₁ h₂ h₃]⟩⟩
  | false =>
    obtain ⟨⟨hhw, hvals, hdata⟩, -, -⟩ := exec_micro_sameInterface hi hq e
    exact ⟨fun _ _ => hhw, fun _ _ _ => hvals, fun _ _ _ => ⟨hdata, fun a => by rw [hdata]⟩⟩

/-- A host command keeps DATA in canonical form (R24). -/
theorem exec_host_keeps_dataWf {s t : State} {i : Instr} (hi : i.op.isHost = true) (hd : s.data.wf = true)
    (e : exec i s = .next t) : t.data.wf = true := by
  obtain ⟨-, -, hsame⟩ := exec_host_lists hi e
  cases i with
  | clr m =>
    have hlists : (s.clearLists m).data.wf = true := by
      rw [State.clearLists_data]
      split
      exacts [Memory.wf_nil, hd]
    cases e
    split
    · exact hlists
    · rw [State.complete_data]; exact hlists
  | pushb b =>
    rcases push_next e with ⟨-, rfl⟩ | ⟨-, rfl⟩
    · simpa using hd
    · simpa using Memory.wf_push _ _ hd
  | encode =>
    rcases execEncode_outcome s with ⟨-, e'⟩ | ⟨s', f, -, -, -, -, ⟨-, e'⟩ | ⟨-, b, v, e'⟩⟩ <;>
      cases e.symm.trans e' <;> simp
  | pushhw | pushval | decode => rw [hsame nofun nofun nofun]; exact hd
  | bw | winit | append | finish | splice | rinit | pop => cases hi

/-! ## Ends of commands from two states with the same interface state -/

theorem SameInterface.with_inputs {s t : State} (h : SameInterface s t) (rest : List Input) :
    SameInterface { s with inputs := rest } { t with inputs := rest } := by
  obtain ⟨u, rfl⟩ := sameInterface_iff.mp h
  exact SameInterface.withWorkingOf _ u

theorem SameInterface.with_lists {s t : State} (h : SameInterface s t) (hw : List Byte) (vals : List Word)
    (data : Memory) (rpos : Nat) :
    SameInterface { s with hw := hw, vals := vals, data := data, rpos := rpos }
      { t with hw := hw, vals := vals, data := data, rpos := rpos } := by
  obtain ⟨u, rfl⟩ := sameInterface_iff.mp h
  exact SameInterface.withWorkingOf _ u

theorem SameInterface.clearStatus {s t : State} (h : SameInterface s t) : SameInterface s.clearStatus t.clearStatus := by
  obtain ⟨u, rfl⟩ := sameInterface_iff.mp h
  exact SameInterface.withWorkingOf _ u

theorem SameInterface.complete {s t : State} (h : SameInterface s t) (c : Command) :
    SameInterface (s.complete c) (t.complete c) := by
  obtain ⟨u, rfl⟩ := sameInterface_iff.mp h
  cases c <;> exact ⟨⟨rfl, rfl, rfl⟩, ⟨rfl, rfl, rfl, rfl, rfl, rfl⟩, rfl, rfl, rfl⟩

/-- What a fault leaves for the host is the same when its record is: the field index, the header width, and DECODE's
position (R198, R219). -/
theorem SameInterface.raise {s t : State} (h : SameInterface s t) (c : Command) (r : Raise)
    (hx : r.fidx t = r.fidx s) (hw : r.fwid t = r.fwid s) (hp : c = .decode → r.rpos t = r.rpos s) :
    SameInterface (s.raise c r) (t.raise c r) := by
  obtain ⟨u, rfl⟩ := sameInterface_iff.mp h
  cases c with
  | decode => exact ⟨⟨rfl, rfl, rfl⟩, ⟨rfl, rfl, hw, rfl, hx, hp rfl⟩, rfl, rfl, rfl⟩
  | clr | pushhw | pushval | pushb | encode | illegal o =>
    exact ⟨⟨rfl, rfl, rfl⟩, ⟨rfl, rfl, hw, rfl, hx, rfl⟩, rfl, rfl, rfl⟩

/-- The record of a fault of a field is the same at the same place of SEQ and, for DECODE, of the reader (R212 to R215). -/
theorem SameInterface.raise_field {s t : State} (h : SameInterface s t) (c : Command) (r : Raise) (hq : t.seq = s.seq)
    (hp : c = .decode → t.rdpos = s.rdpos) : SameInterface (s.raise c r) (t.raise c r) := by
  refine h.raise c r ?_ ?_ fun hc => ?_
  · cases r <;> simp [Raise.fidx, hq]
  · cases r <;> simp [Raise.fwid, hwAt, hq, h.hw_eq]
  · cases r <;> simp [Raise.rpos, hp hc]

/-! ## A word from two states with the same interface state (R35, R115, R134) -/

/-- Both outcomes are next states, and they have the same interface state. -/
def SameAnswer (o p : Host.Outcome State Fault Refusal) : Prop :=
  ∃ u v, o = .next u ∧ p = .next v ∧ SameInterface u v

theorem SameAnswer.next {u v : State} (h : SameInterface u v) : SameAnswer (.next u) (.next v) := ⟨u, v, rfl, rfl, h⟩

/-- A PUSH faults from both states or completes from both (R191 to R193). -/
theorem SameAnswer.push {c : Command} {full : Prop} [Decidable full] {s t s' t' : State} (hc : c ≠ .decode)
    (h : SameInterface s t) (h' : SameInterface s' t') :
    SameAnswer (if full then .next (s.raise c .capacityExceeded) else .next (s'.complete c))
      (if full then .next (t.raise c .capacityExceeded) else .next (t'.complete c)) := by
  split
  · exact .next (h.raise c _ rfl rfl fun hd => absurd hd hc)
  · exact .next (h'.complete c)

theorem execEncode_unequal {s : State} (h : s.hw.length ≠ s.vals.length) :
    execEncode s = .next (s.raise .encode .fieldCountMismatch) := if_pos h

theorem execDecode_empty {s : State} (h : s.data.dlen = 0) :
    execDecode s = .next (s.raise .decode .emptyInput) := if_pos h

/-- ENCODE answers by HW and VAL alone: the stream, or the first fault (R115, R157, R218). -/
theorem SameInterface.execEncode {s t : State} (h : SameInterface s t) :
    SameAnswer (execEncode s) (execEncode t) := by
  obtain ⟨u, rfl⟩ := sameInterface_iff.mp h
  rcases encode_cases s.hw s.vals with henc | hlen | ⟨hlen, pre, b, v, post, hz, hp, hf⟩
  · obtain ⟨s', f, -, -, -, -, e⟩ := execEncode_encodable s henc
    obtain ⟨t', g, -, -, -, -, e'⟩ := execEncode_encodable (s.withWorkingOf u) henc
    obtain ⟨x, rfl⟩ := sameInterface_iff.mp ((f.sameInterface.symm.trans h).trans g.sameInterface)
    exact ⟨_, _, e, e', (SameInterface.withWorkingOf _ x).complete .encode⟩
  · exact ⟨_, _, execEncode_unequal hlen, execEncode_unequal hlen, h.raise _ _ rfl rfl nofun⟩
  · obtain ⟨s', a, e⟩ := execEncode_unfit s pre post b v hlen hz hp hf
    obtain ⟨t', a', e'⟩ := execEncode_unfit (s.withWorkingOf u) pre post b v hlen hz hp hf
    have f := (a.frame.trans (EncodeFrame.latched s' pre.length v)).sameInterface
    have g := (a'.frame.trans (EncodeFrame.latched t' pre.length v)).sameInterface
    have hinit : SameInterface s.encodeInit (s.withWorkingOf u).encodeInit :=
      SameInterface.withWorkingOf s.encodeInit (s.withWorkingOf u).encodeInit
    exact ⟨_, _, e, e', ((f.symm.trans hinit).trans g).raise_field _ _ rfl nofun⟩

/-- DECODE answers by HW and DATA alone: the values, or the first fault (R134, R173, R218). -/
theorem SameInterface.execDecode {s t : State} (h : SameInterface s t) (hd : s.data.wf = true) :
    SameAnswer (execDecode s) (execDecode t) := by
  obtain ⟨u, rfl⟩ := sameInterface_iff.mp h
  by_cases h0 : s.data.dlen = 0
  · exact ⟨_, _, execDecode_empty h0, execDecode_empty h0, h.raise _ _ rfl rfl fun _ => rfl⟩
  rcases headers_cases (8 * s.data.dlen) s.hw 0 (by omega) with ⟨h32, hp⟩ | ⟨pre, b, post, ha, hb, hc, hf⟩
  case inr =>
    rw [Nat.zero_add] at hc hf
    obtain ⟨s', f, hpos, hseq, -, -, e⟩ := execDecode_headerFault s pre post b hd h0 ha hb hc hf
    obtain ⟨t', g, hpos', hseq', -, -, e'⟩ := execDecode_headerFault (s.withWorkingOf u) pre post b hd h0 ha hb hc hf
    exact ⟨_, _, e, e', ((f.sameInterface.symm.trans h).trans g.sameInterface).raise_field _ _
      (hseq'.trans hseq.symm) fun _ => hpos'.trans hpos.symm⟩
  rw [Nat.zero_add, ← headerStart_all] at hp
  rcases values_cases (8 * s.data.dlen) (lengthsOf (streamBits s.data.bytes) s.hw) _ hp with
    ⟨hv, hend⟩ | ⟨pre, w, post, ha, hb, hc, hf⟩
  case inr =>
    obtain ⟨s', f, hpos, hseq, -, -, e⟩ := execDecode_valueFault s pre post w hd h0 h32 hp ha hb hc hf
    obtain ⟨t', g, hpos', hseq', -, -, e'⟩ :=
      execDecode_valueFault (s.withWorkingOf u) pre post w hd h0 h32 hp ha hb hc hf
    exact ⟨_, _, e, e', ((f.sameInterface.symm.trans h).trans g.sameInterface).raise_field _ _
      (hseq'.trans hseq.symm) fun _ => hpos'.trans hpos.symm⟩
  rw [← decodedEnd_eq] at hend
  have hdec : decodable (streamBits s.data.bytes) s.hw = true := by
    simp only [decodable, Bool.and_eq_true, decide_eq_true_eq, List.all_eq_true, length_streamBits,
      Memory.length_bytes]
    exact ⟨⟨⟨h32, hp⟩, hv⟩, hend⟩
  obtain ⟨s', f, -, -, e⟩ := execDecode_decodable s hd h0 hdec
  obtain ⟨t', g, -, -, e'⟩ := execDecode_decodable (s.withWorkingOf u) hd h0 hdec
  obtain ⟨x, rfl⟩ := sameInterface_iff.mp ((f.sameInterface.symm.trans h).trans g.sameInterface)
  exact ⟨_, _, e, e', (SameInterface.withWorkingOf _ x).complete .decode⟩

/-- A host command from two states with the same interface state. -/
theorem SameInterface.exec_host {s t : State} (h : SameInterface s t) (hd : s.data.wf = true) {i : Instr}
    (hi : i.op.isHost = true) : SameAnswer (exec i s) (exec i t) := by
  obtain ⟨u, rfl⟩ := sameInterface_iff.mp h
  cases i with
  | clr m =>
    have hlists := h.with_lists (s.clearLists m).hw (s.clearLists m).vals (s.clearLists m).data s.rpos
    refine .next ?_
    split
    · exact hlists.clearStatus
    · exact hlists.complete .clr
  | pushhw b => exact .push nofun h (h.with_lists (s.hw ++ [b]) s.vals s.data s.rpos)
  | pushval v => exact .push nofun h (h.with_lists s.hw (s.vals ++ [v]) s.data s.rpos)
  | pushb b => exact .push nofun h (h.with_lists s.hw s.vals (s.data.push b) s.rpos)
  | encode => exact h.execEncode
  | decode => exact h.execDecode hd
  | bw | winit | append | finish | splice | rinit | pop => cases hi

/-- An illegal word only records its fault (R194). -/
theorem SameInterface.illegalWord {s t : State} (h : SameInterface s t) (w : OpWord) :
    SameAnswer (illegalWord w s) (illegalWord w t) :=
  .next (h.raise _ _ rfl rfl nofun)

theorem SameInterface.hostWord {s t : State} (h : SameInterface s t) (hd : s.data.wf = true) (w : OpWord) :
    SameAnswer (hostWord w s) (hostWord w t) := by
  unfold Machine.hostWord
  split
  next i hdec =>
    split
    next hi => exact h.exec_host hd hi
    next => exact h.illegalWord w
  next => exact h.illegalWord w

/-- A word of the host keeps DATA in canonical form (R24). -/
theorem hostWord_keeps_dataWf {s t : State} {w : OpWord} (hd : s.data.wf = true) (e : hostWord w s = .next t) :
    t.data.wf = true := by
  have hillegal (e : Machine.illegalWord w s = .next t) : t.data.wf = true := by cases e; simpa using hd
  unfold Machine.hostWord at e
  split at e
  next i hdec =>
    split at e
    next hi => exact exec_host_keeps_dataWf hi hd e
    next => exact hillegal e
  next => exact hillegal e

/-- Any list of words leaves the same interface state from two states that have the same. -/
theorem SameInterface.afterWords {s t : State} (h : SameInterface s t) (hd : s.data.wf = true) (words : List OpWord) :
    ∃ u v, s.afterWords words = some u ∧ t.afterWords words = some v ∧ SameInterface u v := by
  induction words generalizing s t with
  | nil => exact ⟨s, t, rfl, rfl, h⟩
  | cons w words ih =>
    obtain ⟨s', t', es, et, h'⟩ := h.hostWord hd w
    simp only [State.afterWords, es, et]
    exact ih h' (hostWord_keeps_dataWf hd es)

/-- Settles O49: a micro-operation with SEQ IDLE leaves the interface state, which decides all later words' effect. -/
theorem microOperationsChangeNoInterfaceState : Obligations.MicroOperationsChangeNoInterfaceState := by
  intro s t i hi hq e
  have h := exec_micro_sameInterface hi hq e
  exact ⟨h, fun hd words => h.afterWords hd words⟩

theorem SameInterface.readValue {s t : State} (h : SameInterface s t) (sp : Space) (i : Nat) :
    t.readValue sp i = s.readValue sp i := by
  obtain ⟨u, rfl⟩ := sameInterface_iff.mp h
  rfl

/-- A read from two states with the same interface state is refused in both or answered alike (R197). -/
theorem SameInterface.hostRead {s t : State} (h : SameInterface s t) (sp : Space) (i : Nat) :
    (hostRead sp i s = .refused .readOfNoEntry ∧ hostRead sp i t = .refused .readOfNoEntry) ∨
      SameAnswer (hostRead sp i s) (hostRead sp i t) := by
  cases hv : s.readValue sp i with
  | none => exact .inl ⟨hostRead_none hv, hostRead_none ((h.readValue sp i).trans hv)⟩
  | some v =>
    refine .inr ⟨_, _, hostRead_some hv, hostRead_some ((h.readValue sp i).trans hv), ?_⟩
    obtain ⟨u, rfl⟩ := sameInterface_iff.mp h
    exact SameInterface.withWorkingOf _ u

/-- Settles O54, a word and a read each by the port that serves it. -/
theorem interfaceStateDecidesWhatTheHostSees : Obligations.InterfaceStateDecidesWhatTheHostSees := by
  intro s t h hd
  refine ⟨fun w rest hin => ?_, fun sp i rest hin => ?_⟩
  · simp only [step, h.inputs_eq, hin]
    exact (h.with_inputs rest).hostWord hd w
  · rw [step_read hin, step_read (h.inputs_eq.trans hin)]
    exact (h.with_inputs rest).hostRead sp i

end Sys2Proof.Machine
end

section
/-! PROOFS. The operation word (R70 to R75): encode and decode are inverse to each other, the decoder follows the opcode
table, and SEQ's port executes what a micro-operation word decodes to. -/

namespace Sys2Proof

/-! ## From an instruction to its word and back (R70, R71) -/

theorem Op.names_iff (o : Op) (w : OpWord) : o.names w = true ↔ w &&& o.mask = o.pattern := beq_iff_eq

/-- The word of an instruction has its operation's pattern (R72): the per-instruction laws, gathered. -/
theorem names_encode (i : Instr) : i.op.names (encode i) = true := by
  cases i with
  | clr m => exact Laws.EncodingMatches.clr m
  | pushhw h => exact Laws.EncodingMatches.pushhw h
  | pushval v => exact Laws.EncodingMatches.pushval v
  | pushb b => exact Laws.EncodingMatches.pushb b
  | encode => exact Laws.EncodingMatches.encode
  | decode => exact Laws.EncodingMatches.decode
  | bw v => exact Laws.EncodingMatches.bw v
  | winit c => exact Laws.EncodingMatches.winit c
  | append c v width lb => exact Laws.EncodingMatches.append c v width lb
  | finish c => exact Laws.EncodingMatches.finish c
  | splice n => exact Laws.EncodingMatches.splice n
  | rinit => exact Laws.EncodingMatches.rinit
  | pop width lb => exact Laws.EncodingMatches.pop width lb

/-- The operands are read back from the word of a well-formed instruction (R71, R75). -/
theorem instr_encode {i : Instr} (hi : i.wellFormed = true) : i.op.instr (encode i) = i := by
  cases i with
  | clr | pushb => simp [encode, Instr.op, Op.instr, BitVec.extractLsb'_setWidth_of_le]
  | splice n =>
    have hn : n < 2 ^ 32 := of_decide_eq_true hi
    simpa [encode, Instr.op, Op.instr] using hn
  | pop width lb =>
    have hw : width < 2 ^ 8 := of_decide_eq_true hi
    simpa [encode, Instr.op, Op.instr] using hw
  | encode | decode | rinit => rfl
  | pushhw | pushval | bw | winit | append | finish => simp [encode, Instr.op, Op.instr]

/-- Settles O1: the word has the pattern of its instruction's operation, and its fields give the operands back. -/
theorem encodedInstructionDecodesBack : Obligations.EncodedInstructionDecodesBack :=
  fun i hi => (decode_ok_iff _ _).mpr ⟨i.op, names_encode i, (instr_encode hi).symm⟩

/-! ## From a word to its instruction and back (R72, R73) -/

/-- Every decoded instruction is well-formed: its naturals come from fields of the word (R71, R131). -/
theorem wellFormed_instr (o : Op) (w : OpWord) : (o.instr w).wellFormed = true := by
  cases o with
  | splice => exact decide_eq_true (valueField w).isLt
  | pop => exact decide_eq_true (widthField w).isLt
  | clr | pushhw | pushval | pushb | encode | decode | bw | winit | append | finish | rinit => rfl

/-- Words with the same bit field have the same bits in it. -/
theorem getLsbD_of_field_eq {w w' : OpWord} {a n j : Nat} (h : w.extractLsb' a n = w'.extractLsb' a n)
    (hj : a ≤ j ∧ j < a + n) : w.getLsbD j = w'.getLsbD j := by
  have hbit := congrArg (BitVec.getLsbD · (j - a)) h
  simpa [BitVec.getLsbD_extractLsb', show j - a < n by omega, Nat.add_sub_cancel' hj.1] using hbit

theorem strField_eq_V_iff (w : OpWord) : strField w = .V ↔ w.getLsbD 42 = true := by
  simp [strField]

/-- Words that select the same context have the same STR bit (R70). -/
theorem getLsbD_of_strField_eq {w w' : OpWord} (h : strField w = strField w') : w.getLsbD 42 = w'.getLsbD 42 := by
  rw [Bool.eq_iff_iff, ← strField_eq_V_iff, ← strField_eq_V_iff, h]

/-- The bits outside an operation's mask are its operands' bits, so the instruction determines them (R71, R72). -/
theorem getLsbD_of_instr_eq (o : Op) {w w' : OpWord} (h : o.instr w = o.instr w') (j : Fin 48)
    (hm : o.mask.getLsbD j = false) : w.getLsbD j = w'.getLsbD j := by
  cases o with
  | clr => exact getLsbD_of_field_eq (Instr.clr.inj h) (by revert j; decide)
  | pushhw => exact getLsbD_of_field_eq (Instr.pushhw.inj h) (by revert j; decide)
  | pushval => exact getLsbD_of_field_eq (Instr.pushval.inj h) (by revert j; decide)
  | pushb => exact getLsbD_of_field_eq (Instr.pushb.inj h) (by revert j; decide)
  | bw => exact getLsbD_of_field_eq (Instr.bw.inj h) (by revert j; decide)
  | splice => exact getLsbD_of_field_eq (BitVec.eq_of_toNat_eq (Instr.splice.inj h)) (by revert j; decide)
  | winit =>
    obtain rfl : j = 42 := by revert j; decide
    exact getLsbD_of_strField_eq (Instr.winit.inj h)
  | finish =>
    obtain rfl : j = 42 := by revert j; decide
    exact getLsbD_of_strField_eq (Instr.finish.inj h)
  | pop =>
    obtain ⟨hwidth, hlb⟩ := Instr.pop.inj h
    have hj : (32 ≤ j.val ∧ j.val < 32 + 8) ∨ j = 43 := by revert j; decide
    rcases hj with hj | rfl
    · exact getLsbD_of_field_eq (BitVec.eq_of_toNat_eq hwidth) hj
    · exact hlb
  | append =>
    obtain ⟨hstr, hvalue, hwidth, hlb⟩ := Instr.append.inj h
    have hj : (0 ≤ j.val ∧ j.val < 0 + 32) ∨ (32 ≤ j.val ∧ j.val < 32 + 8) ∨ j = 42 ∨ j = 43 := by
      revert j; decide
    rcases hj with hj | hj | rfl | rfl
    · exact getLsbD_of_field_eq hvalue hj
    · exact getLsbD_of_field_eq hwidth hj
    · exact getLsbD_of_strField_eq hstr
    · exact hlb
  | encode | decode | rinit => exact absurd hm (by revert j; decide)

/-- An operation and its operands determine the word: the mask fixes all other bits (R72). -/
theorem eq_of_names_of_instr_eq {o : Op} {w w' : OpWord} (hw : o.names w = true) (hw' : o.names w' = true)
    (h : o.instr w = o.instr w') : w = w' := by
  have hmask : w &&& o.mask = w' &&& o.mask := ((o.names_iff w).mp hw).trans ((o.names_iff w').mp hw').symm
  apply BitVec.eq_of_getLsbD_eq
  intro j hj
  cases hm : o.mask.getLsbD j with
  | false => exact getLsbD_of_instr_eq o h ⟨j, hj⟩ hm
  | true => simpa [hm] using congrArg (BitVec.getLsbD · j) hmask

/-- Settles O2: the word and the encoding of what it decodes to have one operation and the same operands. -/
theorem decodedWordIsItsOnlyEncoding : Obligations.DecodedWordIsItsOnlyEncoding := by
  intro w i h
  obtain ⟨o, hn, rfl⟩ := (decode_ok_iff w i).mp h
  have hwf := wellFormed_instr o w
  have hne := names_encode (o.instr w)
  have hie := instr_encode hwf
  rw [op_instr] at hne hie
  exact ⟨hwf, eq_of_names_of_instr_eq hne hn hie⟩

/-! ## The opcode table (R71, R72) -/

/-- The decoder reads an operation exactly from the words of its pattern (R72). -/
theorem decode_op_iff (w : OpWord) (o : Op) : (∃ i, decode w = .ok i ∧ i.op = o) ↔ w &&& o.mask = o.pattern := by
  rw [← Op.names_iff]
  constructor
  · rintro ⟨i, hd, rfl⟩
    obtain ⟨o, hn, rfl⟩ := (decode_ok_iff w i).mp hd
    rwa [op_instr]
  · exact fun hn => ⟨o.instr w, (decode_ok_iff _ _).mpr ⟨o, hn, rfl⟩, op_instr o w⟩

/-- A word names at most one operation: the operation codes differ (R72). -/
theorem op_unique_of_names {w : OpWord} {o o' : Op} (h : o.names w = true) (h' : o'.names w = true) : o = o' := by
  have hopc : o.opc = o'.opc := (opcField_of_names o w h).symm.trans (opcField_of_names o' w h')
  simpa using congrArg opOfOpc hopc

/-- Settles O3: each row written out is its operation's pattern and mask, from which the decoder reads it. -/
theorem decoderFollowsTheOpcodeTable : Obligations.DecoderFollowsTheOpcodeTable := by
  constructor
  · intro row hrow w
    have hcols : row.2.1 = row.1.pattern ∧ row.2.2 = row.1.mask := by revert row; decide
    rw [hcols.1, hcols.2]
    exact decode_op_iff w row.1
  · exact fun w o o' h h' => op_unique_of_names ((o.names_iff w).mpr h) ((o'.names_iff w).mpr h')

/-- Settles O4: the thirteen words are closed, and the decoder runs on each. -/
theorem wordsOfTheSpecDecode : Obligations.WordsOfTheSpecDecode := by
  unfold Obligations.WordsOfTheSpecDecode
  decide

end Sys2Proof

namespace Sys2Proof.Machine

open Sys2Proof

/-- A micro-operation SEQ issues is executed (R74). -/
theorem step_seq {s : State} {w : OpWord} {rest : List Input} {i : Instr} (hin : s.inputs = .seq w :: rest)
    (hd : decode w = .ok i) (hi : i.op.isHost = false) : step s = exec i { s with inputs := rest } := by
  simp only [step, hin, seqWord, hd, hi, Bool.false_eq_true, if_false]

/-- Settles O6: SEQ's port executes what the word decodes to (`step_seq`). -/
theorem stepRunsTheIssuedMicroOperation : Obligations.StepRunsTheIssuedMicroOperation :=
  fun _ _ _ _ hin hd hi => step_seq hin hd hi

end Sys2Proof.Machine
end

section
/-! PROOFS. ENCODE and DECODE on lists they can serve: the packed stream in DATA (R76 to R79), the values and the reader's
position (R80, R81), and what each leaves unchanged. -/

namespace Sys2Proof.Machine

open Sys2Proof

/-- DATA that stores a bit string reads as the string followed by its zero pad (R8, R79). -/
theorem Memory.bit_ofBytes_bytesOf (bits : List Bool) (p : Nat) :
    (Memory.ofBytes (bytesOf bits)).bit p = (bits ++ List.replicate (padLength bits.length) false)[p]? := by
  rw [Memory.bit_eq _ (Memory.wf_ofBytes _), Memory.bytes_ofBytes, streamBits_bytesOf]

/-- The stored bits of the string (R76). -/
theorem Memory.bit_stored {bits : List Bool} {p : Nat} (hp : p < bits.length) :
    (Memory.ofBytes (bytesOf bits)).bit p = bits[p]? := by
  rw [Memory.bit_ofBytes_bytesOf, List.getElem?_append_left hp]

/-- The pad after the string is zero bits (R79). -/
theorem Memory.bit_pad {bits : List Bool} {p : Nat} (hp : bits.length ≤ p)
    (hend : p < 8 * (Memory.ofBytes (bytesOf bits)).dlen) : (Memory.ofBytes (bytesOf bits)).bit p = some false := by
  rw [Memory.dlen_ofBytes, length_bytesOf] at hend
  have hpad : p - bits.length < padLength bits.length := by unfold padLength; omega
  rw [Memory.bit_ofBytes_bytesOf, List.getElem?_append_right hp, List.getElem?_replicate, if_pos hpad]

/-- Settles O20: the writer's outcome on encodable lists (`execEncode_encodable`), read bit by bit. -/
theorem encodeProducesThePackedStream : Obligations.EncodeProducesThePackedStream := by
  intro s h
  obtain ⟨s', f, -, -, -, -, e⟩ := execEncode_encodable s h
  obtain ⟨H, V, T, W, Q, rfl⟩ := f
  refine ⟨_, e, rfl, fun _ => Memory.bit_stored, fun _ => Memory.bit_pad, ?_⟩
  simp [StatusIsOk, SameModelParts, Command.opc]

/-- Settles O26: the reader's outcome on decodable lists (`execDecode_decodable`) and its frame. -/
theorem decodeReadsTheStream : Obligations.DecodeReadsTheStream := by
  intro s hd h0 h
  obtain ⟨s', f, -, -, e⟩ := execDecode_decodable s hd h0 h
  obtain ⟨P, X, L, R, Q, rfl⟩ := f
  refine ⟨_, e, rfl, rfl, ?_⟩
  simp [StatusIsOk, SameModelParts, Command.opc]

end Sys2Proof.Machine
end

section
/-! PROOFS. The bit width (R100, R102): the laws of bw, and the unit that latches it. -/

namespace Sys2Proof.Machine

open Sys2Proof

/-! ## The laws of bw (R102) -/

theorem bw_ne_zero {v : Word} (h : v ≠ 0#32) : bw v ≠ 0 := (bw_eq_zero_iff v).not.mpr h

/-- The bit at position bw - 1 is set (R102). -/
theorem getLsbD_bw_sub_one {v : Word} (h : v ≠ 0#32) : v.getLsbD (bw v - 1) = true :=
  bwBelow_top v 32 (bw_ne_zero h)

/-- No bit from position bw on is set (R102). -/
theorem getLsbD_of_bw_le {v : Word} {j : Nat} (h : bw v ≤ j) : v.getLsbD j = false :=
  (BitVec.testBit_toNat v).symm.trans (Nat.testBit_lt_two_pow ((lt_two_pow_iff_bw_le v j).mpr h))

/-- A larger value has no smaller bit width (R102). -/
theorem bw_mono {v u : Word} (h : v.toNat ≤ u.toNat) : bw v ≤ bw u :=
  (lt_two_pow_iff_bw_le v (bw u)).mp (h.trans_lt (lt_two_pow_bw u))

/-- Settles O33: each law from the bounds `two_pow_le_of_bw` and `lt_two_pow_iff_bw_le` or from the bits around bw. -/
theorem bitWidthLaws : Obligations.BitWidthLaws := fun v =>
  ⟨bw_le v, bw_eq_zero_iff v,
    fun h => ⟨two_pow_le_of_bw v (bw_ne_zero h), lt_two_pow_bw v⟩,
    fun h => ⟨getLsbD_bw_sub_one h, fun _ => getLsbD_of_bw_le⟩,
    fun _ => bw_mono,
    fun k _ => lt_two_pow_iff_bw_le v k⟩

/-! ## The operation BW (R100) -/

/-- The width is one plus the position of the highest set bit (R100). -/
theorem bw_highest_set_bit {v : Word} (h : v ≠ 0#32) :
    ∃ j, v.getLsbD j = true ∧ (∀ i, j < i → v.getLsbD i = false) ∧ bw v = 1 + j := by
  have hpos := bw_ne_zero h
  exact ⟨bw v - 1, getLsbD_bw_sub_one h, fun i hi => getLsbD_of_bw_le (by omega), by omega⟩

/-- BW changes the latch alone (R100). -/
theorem exec_bw (s : State) (v : Word) : exec (.bw v) s = .next { s with w := bw v } := rfl

/-- A word with BW's pattern decodes to BW of its value field (R71, R72). -/
theorem decode_bw {w : OpWord} (h : w &&& Op.bw.mask = Op.bw.pattern) : decode w = .ok (.bw (valueField w)) :=
  (decode_ok_iff _ _).mpr ⟨.bw, (Op.names_iff .bw w).mpr h, rfl⟩

/-- Settles O32: the latch takes bw, which the highest set bit determines (`bw_highest_set_bit`). -/
theorem bwLatchesTheBitWidth : Obligations.BwLatchesTheBitWidth := by
  refine ⟨fun s v => ⟨bw v, exec_bw s v, (bw_eq_zero_iff v).mpr, bw_highest_set_bit, bw_le v⟩,
    fun w => decode_bw, fun v => rfl, ?cornerCases⟩
  decide

end Sys2Proof.Machine
end

section
/-! PROOFS. The bit writer BWR: WINIT, APPEND and FINISH on a context (R110 to R114), and a raise inside and outside a
call (R219). -/

namespace Sys2Proof.Machine

open Sys2Proof

/-! ## A raise by a micro-operation (R198, R219) -/

/-- In a phase of a call the raise is taken (R219). -/
theorem Micro.endMicro_raised_of_call {s : State} {c : Command} (r : Raise) (h : s.seq.phase.call = some c) :
    (Micro.raised r s).endMicro = .next (s.raise c r) := by
  simp only [Micro.endMicro, h]

/-- With SEQ IDLE there is no call for the raise to end. -/
theorem Micro.endMicro_raised_of_idle {s : State} (r : Raise) (h : s.seq.phase = .idle) :
    (Micro.raised r s).endMicro = .fault (.raisedOutsideCall r) := by
  simp only [Micro.endMicro, h, Phase.call]

/-- The fault registers hold the raise's own record (R198). -/
theorem State.raise_statusIsFault (s : State) (c : Command) (r : Raise) :
    StatusIsFault c.opc r.kind r.fval (r.fwid s) r.fbits.toNat (r.fidx s) (s.raise c r) :=
  ⟨s.raise_status c r, s.raise_fval c r, s.raise_fwid c r, congrArg BitVec.toNat (s.raise_fbits c r), s.raise_fidx c r⟩

theorem State.raise_sameModelParts (s : State) (c : Command) (r : Raise) : SameModelParts s (s.raise c r) :=
  ⟨s.raise_cfg c r, s.raise_inputs c r, s.raise_answers c r⟩

/-! ## WINIT (R110) -/

/-- Settles O34: WINIT writes the empty context; the word is closed. -/
theorem winitMakesTheContextEmpty : Obligations.WinitMakesTheContextEmpty :=
  ⟨fun _ => rfl, fun _ => rfl, by decide⟩

/-! ## APPEND (R111 to R114) -/

theorem exec_append (s : State) (c : Ctx) (value : Word) (width : Byte) (lb : Bool) :
    exec (.append c value width lb) s = (s.append c value width.toNat lb).endMicro := rfl

/-- LB with width 0 is refused, whether the context is finished or not (R112 (b)). -/
theorem State.append_leadingBitOfWidthZero (s : State) (c : Ctx) (value : Word) :
    s.append c value 0 true = .refuse .appendLeadingBitOfWidthZero := rfl

/-- An APPEND on a finished context, no other test having stopped it, is refused (R113). -/
theorem State.append_finished (s : State) (c : Ctx) (value : Word) {width : Nat} {lb : Bool} (hw : width ≤ 32)
    (hlb : lb = true → width ≠ 0) (hf : (s.ctx c).finished = true) :
    s.append c value width lb = .refuse .appendAfterFinish := by
  have hwide : ¬ wMax < width := Nat.not_lt.mpr hw
  rw [State.append, if_neg hwide, if_neg fun h => hlb h.1 h.2, if_pos hf]

/-- The instruction APPEND, where it has bits to append: the context alone changes (R111). -/
theorem exec_append_unfinished {s : State} {c : Ctx} (value : Word) {width : Byte} {lb : Bool}
    (hf : (s.ctx c).finished = false) (hw : width.toNat ≤ 32) (hlb : lb = true → width ≠ 0#8) :
    exec (.append c value width lb) s =
      .next (s.setCtx c ((s.ctx c).pushBits (bitsOf value.toNat (effWidth width.toNat lb)))) := by
  rw [exec_append, s.append_eq c value _ lb hw (fun h => BitVec.toNat_ne.mp (hlb h)) hf, Micro.endMicro]

/-- The instruction APPEND without LB appends as many bits as its width says (R111). -/
theorem exec_append_plain {s : State} {c : Ctx} (value : Word) {width : Byte} (hf : (s.ctx c).finished = false)
    (hw : width.toNat ≤ 32) :
    exec (.append c value width false) s =
      .next (s.setCtx c ((s.ctx c).pushBits (bitsOf value.toNat width.toNat))) :=
  exec_append_unfinished value hf hw nofun

/-- K counts the bits beyond the whole bytes (R29). -/
theorem Writer.k_eq (x : Writer) (h : x.Inv) : x.k = x.bits.length % 8 := by
  have hlen := x.length_bits h
  have hk := h.1
  omega

/-- Settles O35: the context after the APPEND is the one with the field's bits pushed. -/
theorem appendAddsItsBits : Obligations.AppendAddsItsBits := by
  intro s c value width lb hinv hf hw hlb
  have hx := (s.ctx c).pushBits_Inv (bitsOf value.toNat (effWidth width.toNat lb)) hinv
  exact ⟨_, exec_append_unfinished value hf hw hlb, Writer.pushBits_bits _ _ hinv, hx, Writer.k_eq _ hx,
    Writer.length_out _ hx, (Writer.pushBits_finished _ _).trans hf⟩

/-- Settles O36: the width test comes first, and SEQ's phase decides what the raise does. -/
theorem appendOfMoreThan32BitsRaises : Obligations.AppendOfMoreThan32BitsRaises := by
  intro s c value width lb hw
  rw [exec_append, s.append_wide c value _ lb hw]
  refine ⟨fun hphase => ?_, Micro.endMicro_raised_of_idle _⟩
  have hcall : s.seq.phase.call = some .encode := by rw [hphase]; rfl
  exact ⟨_, Micro.endMicro_raised_of_call _ hcall, s.raise_statusIsFault _ _, s.raise_data _ _, s.raise_hw _ _,
    s.raise_vals _ _, s.raise_rpos _ _, s.raise_sameModelParts _ _, s.raise_seq _ _⟩

/-- Settles O37: the width test passes, and the first test that fails names the refusal. -/
theorem undefinedAppendsAreRefused : Obligations.UndefinedAppendsAreRefused := by
  refine ⟨fun s c value => ?_, fun s c value width lb hw hlb hf => ?_⟩
  · rw [exec_append, BitVec.toNat_zero, s.append_leadingBitOfWidthZero, Micro.endMicro]
  · rw [exec_append, s.append_finished c value hw (fun h => BitVec.toNat_ne.mp (hlb h)) hf, Micro.endMicro]

/-! ## Two fields in one APPEND (R114 (d)) -/

/-- The bits of two fields, one after the other, are the bits of the number that holds both. -/
theorem bitsOf_concat (a b m n : Nat) :
    bitsOf (a % 2 ^ m * 2 ^ n + b % 2 ^ n) (m + n) = bitsOf a m ++ bitsOf b n := by
  have h := bitsOf_numberOf (bitsOf a m ++ bitsOf b n)
  rwa [numberOf_append, numberOf_bitsOf, numberOf_bitsOf, List.length_append, length_bitsOf, length_bitsOf] at h

/-- The number that holds two fields has no more bits than both. -/
theorem concat_lt_two_pow (a b m n : Nat) : a % 2 ^ m * 2 ^ n + b % 2 ^ n < 2 ^ (m + n) := by
  have h := numberOf_lt (bitsOf a m ++ bitsOf b n)
  rwa [numberOf_append, numberOf_bitsOf, numberOf_bitsOf, List.length_append, length_bitsOf, length_bitsOf] at h

/-- The second of two writes of a context is the one that counts. -/
theorem State.setCtx_setCtx (s : State) (c : Ctx) (x y : Writer) : (s.setCtx c x).setCtx c y = s.setCtx c y := by
  cases c <;> rfl

/-- Settles O38: pushing the bits of one field and then those of the other is pushing the bits of both. -/
theorem appendGroupingDoesNotMatter : Obligations.AppendGroupingDoesNotMatter := by
  intro s c a b m n hf hmn
  have hwidth : (m + n).toNat = m.toNat + n.toNat := BitVec.toNat_add_of_lt (by omega)
  have hvalue := Nat.mod_eq_of_lt
    ((concat_lt_two_pow a.toNat b.toNat m.toNat n.toNat).trans_le (Nat.pow_le_pow_right Nat.two_pos hmn))
  refine ⟨_, _, exec_append_plain a hf (by omega), exec_append_plain b (by simpa using hf) (by omega), ?_⟩
  rw [exec_append_plain _ hf (hwidth.trans_le hmn), BitVec.toNat_ofNat, hvalue, hwidth, bitsOf_concat,
    Writer.pushBits_append, State.ctx_setCtx_same, State.setCtx_setCtx]

/-! ## FINISH (R113, R114 (c)) -/

theorem exec_finish (s : State) (c : Ctx) : exec (.finish c) s = (s.finish c).endMicro := rfl

/-- FINISH of whole bytes adds none. -/
theorem Writer.flush_out_aligned {x : Writer} (h : x.k = 0) : x.flush.out = x.out := by
  rw [Writer.flush, if_pos h]

/-- FINISH stores the partial byte. -/
theorem Writer.flush_out_partial {x : Writer} (h : x.k ≠ 0) : x.flush.out = x.out ++ [x.p] := by
  rw [Writer.flush, if_neg h]

/-- Settles O39: the flushed context by the laws of `Writer.flush`, a finished one by its mark. -/
theorem finishPadsToAByte : Obligations.FinishPadsToAByte := by
  refine ⟨fun s c hinv hf => ⟨(s.ctx c).flush, ?_, Writer.flush_k _, Writer.flush_Inv _ hinv, Writer.flush_finished _,
    Writer.flush_streamBits _ hinv, Writer.length_flush_out _ hinv, Writer.flush_out_aligned, Writer.flush_out_partial⟩,
    fun s c hf => ?_⟩
  · rw [exec_finish, s.finish_eq c hf, Micro.endMicro]
  · rw [exec_finish, s.finish_finished c hf, Micro.endMicro]

end Sys2Proof.Machine
end

section
/-! PROOFS. The bit reader BRD: RINIT and POP (R130 to R133), and the faults by which a POP ends DECODE (R213, R215,
R218, R219). -/

namespace Sys2Proof.Machine

open Sys2Proof

/-! ## The end of DECODE by a fault (R198, R219) -/

/-- What a fault of POP leaves of a DECODE entered in `s`: the record of the fault, RPOS at the position of the failing
field, VAL empty and DECODE's sources as they were (R219). -/
def DecodeFaultedAt (s : State) (k : FaultKind) (fval : Word) (fwid : Byte) (fbits fidx p : Nat) (t : State) : Prop :=
  StatusIsFault 0x6#4 k fval fwid fbits fidx t ∧ t.vals = [] ∧ t.rpos = p ∧ t.hw = s.hw ∧ t.data = s.data ∧
    SameModelParts s t

/-- WidthOutOfRange records the width operand and the header width of the field SEQ is at (R215). -/
theorem DecodeFrame.raise_widthOutOfRange {s s' : State} (f : DecodeFrame s s') (w : Nat) :
    DecodeFaultedAt s .widthOutOfRange (BitVec.ofNat 32 w) (s.hw[s'.seq.idx]?.getD 0#8) 0 s'.seq.idx s'.rdpos
      (s'.raise .decode (.widthOutOfRange w)) := by
  obtain ⟨P, X, L, R, Q, rfl⟩ := f
  exact ⟨State.raise_statusIsFault _ _ _, State.raise_vals _ _ _, State.raise_rpos _ _ _, State.raise_hw _ _ _,
    State.raise_data _ _ _, State.raise_sameModelParts _ _ _⟩

/-- InsufficientData records how many bits are missing, at most as many as FBITS holds (R213). -/
theorem DecodeFrame.raise_insufficientData {s s' : State} (f : DecodeFrame s s') {b : Nat} (hb : b ≤ 32) :
    DecodeFaultedAt s .insufficientData 0#32 0#8 b s'.seq.idx s'.rdpos
      (s'.raise .decode (.insufficientData b)) := by
  obtain ⟨P, X, L, R, Q, rfl⟩ := f
  have hrecord := State.raise_statusIsFault { s with rdpos := P, popped := X, l := L, r := R, seq := Q } .decode
    (.insufficientData b)
  have hbits : (BitVec.ofNat 6 b).toNat = b := by rw [BitVec.toNat_ofNat]; omega
  simp only [Raise.fbits, hbits] at hrecord
  exact ⟨hrecord, State.raise_vals _ _ _, State.raise_rpos _ _ _, State.raise_hw _ _ _,
    State.raise_data _ _ _, State.raise_sameModelParts _ _ _⟩

/-- A field too wide, whichever pass meets it (R215, R218). -/
theorem DecodeFrame.raise_popFault_wide {s s' : State} (f : DecodeFrame s s') {ph : Phase} {i p w : Nat} (n total : Nat)
    (hpos : s'.rdpos = p) (hseq : s'.seq = { phase := ph, idx := i }) (hw : 32 < w) :
    DecodeFaultedAt s .widthOutOfRange (BitVec.ofNat 32 w) (s.hw[i]?.getD 0#8) 0 i p
      (s'.raise .decode (popFault w n p total)) := by
  have hfault := f.raise_widthOutOfRange w
  rw [hpos, hseq] at hfault
  rwa [popFault, if_pos hw]

/-- A field that is not there, whichever pass meets it (R213, R218). -/
theorem DecodeFrame.raise_popFault_short {s s' : State} (f : DecodeFrame s s') {ph : Phase} {i p w n total : Nat}
    (hpos : s'.rdpos = p) (hseq : s'.seq = { phase := ph, idx := i }) (hw : w ≤ 32) (hn : n ≤ w)
    (hp : p ≤ total) :
    DecodeFaultedAt s .insufficientData 0#32 0#8 (p + n - total) i p
      (s'.raise .decode (popFault w n p total)) := by
  have hmissing : p + n - total ≤ 32 := by omega
  have hfault := f.raise_insufficientData hmissing
  rw [hpos, hseq] at hfault
  rwa [popFault, if_neg (Nat.not_lt.mpr hw)]

/-! ## The first fault of DECODE (R218) -/

/-- Settles O27: the outcome of DECODE at a fault of the header pass (`execDecode_headerFault`), by its two kinds. -/
theorem decodeReportsTheFirstHeaderFault : Obligations.DecodeReportsTheFirstHeaderFault := by
  rintro s pre post h _ hd h0 hw h32 rfl hp
  have outcome := execDecode_headerFault s pre post h hd h0 hw h32 hp
  refine ⟨fun hwide => ?wide, fun ⟨hle, hend⟩ => ?short⟩
  case wide =>
    obtain ⟨s', f, hpos, hseq, -, -, e⟩ := outcome (.inl hwide)
    have hfault := f.raise_popFault_wide h.toNat (8 * s.data.dlen) hpos hseq hwide
    have hfailing : s.hw[pre.length]?.getD 0#8 = h := by simp [hw]
    rw [hfailing] at hfault
    exact ⟨_, e, hfault⟩
  case short =>
    obtain ⟨s', f, hpos, hseq, -, -, e⟩ := outcome (.inr hend)
    exact ⟨_, e, f.raise_popFault_short hpos hseq hle le_rfl hp⟩

/-- Where the value field after those of bit lengths `pre` starts (R81). -/
theorem valueStart_append (hw : List Byte) (pre post : List Nat) :
    valueStart hw (pre ++ post) pre.length = headerStart hw hw.length + valueSpan pre := by
  simp [valueStart, valueSpan]

/-- A header field of at most 32 bits holds a bit length that fits a word (R32). -/
theorem lt_of_mem_lengthsOf {bits : List Bool} {hw : List Byte} {w : Nat} (h32 : ∀ h ∈ hw, h.toNat ≤ 32)
    (hw' : w ∈ lengthsOf bits hw) : w < 2 ^ 32 := by
  obtain ⟨i, hi, rfl⟩ := List.mem_map.mp hw'
  have hlt : i < hw.length := List.mem_range.mp hi
  rw [List.getElem?_eq_getElem hlt, Option.getD_some]
  exact (fieldAt_lt _ _ _).trans_le (Nat.pow_le_pow_right Nat.two_pos (h32 _ (List.getElem_mem hlt)))

/-- Settles O28: the outcome of DECODE at a fault of the value pass (`execDecode_valueFault`), by its two kinds. -/
theorem decodeReportsTheFirstValueFault : Obligations.DecodeReportsTheFirstValueFault := by
  rintro s pre post w _ hd h0 h32 hhdr hls hpre rfl hp
  rw [valueStart_append] at hp ⊢
  have outcome := execDecode_valueFault s pre post w hd h0 h32 hhdr hls hpre hp
  refine ⟨fun hwide => ?wide, fun ⟨hle, hend⟩ => ?short⟩
  case wide =>
    obtain ⟨s', f, hpos, hseq, -, -, e⟩ := outcome (.inl hwide)
    obtain ⟨hrecord, hrest⟩ := f.raise_popFault_wide (w - 1) (8 * s.data.dlen) hpos hseq hwide
    have ⟨_, hfval, _⟩ := hrecord
    have hmem : w ∈ lengthsOf (streamBits s.data.bytes) s.hw := by simp [hls]
    have hword : (BitVec.ofNat 32 w).toNat = w := by
      rw [BitVec.toNat_ofNat, Nat.mod_eq_of_lt (lt_of_mem_lengthsOf h32 hmem)]
    exact ⟨_, e, hrecord, by rw [hfval, hword], hrest⟩
  case short =>
    obtain ⟨s', f, hpos, hseq, -, -, e⟩ := outcome (.inr hend)
    exact ⟨_, e, f.raise_popFault_short hpos hseq hle (Nat.sub_le w 1) hp⟩

/-! ## RINIT (R130) -/

/-- Settles O41: RINIT writes RD.POS; its word is closed. -/
theorem rinitPositionsTheReader : Obligations.RinitPositionsTheReader :=
  ⟨fun _ => rfl, by decide, by decide⟩

/-! ## POP of a field that is there (R131, R132) -/

theorem exec_pop (s : State) (width : Nat) (lb : Bool) : exec (.pop width lb) s = (s.pop width lb).endMicro := rfl

/-- Width 0 has no bits to read, with LB or without (R132 (a)). -/
@[simp] theorem effWidth_zero (lb : Bool) : effWidth 0 lb = 0 := by cases lb <;> rfl

theorem effWidth_le (width : Nat) (lb : Bool) : effWidth width lb ≤ width := by
  unfold effWidth; split <;> omega

/-- The case of width 0 taken out of the effective width (R131). -/
theorem effWidth_eq_ite (width : Nat) (lb : Bool) :
    effWidth width lb = if width = 0 then 0 else if lb then width - 1 else width := by
  by_cases h0 : width = 0
  · rw [if_pos h0, h0, effWidth_zero]
  · rw [if_neg h0, effWidth]

/-- The highest power of two that a value reaches tells its bit width (R102). -/
theorem bw_eq_of_bounds {v : Word} {n : Nat} (hlo : 2 ^ (n - 1) ≤ v.toNat) (hhi : v.toNat < 2 ^ n) :
    bw v = n := by
  have hle := (lt_two_pow_iff_bw_le v n).mp hhi
  have hgt := (lt_two_pow_iff_bw_le v (n - 1)).not.mp (Nat.not_lt.mpr hlo)
  omega

/-- With the leading bit set the value takes the whole width (R131). -/
theorem two_pow_add_lt {n b : Nat} (hn : n ≠ 0) (hb : b < 2 ^ (n - 1)) : 2 ^ (n - 1) + b < 2 ^ n := by
  have hdouble := Nat.two_pow_pred_add_two_pow_pred (Nat.pos_of_ne_zero hn)
  omega

/-- Settles O42: width 0 by `State.pop_zero`, any other by `State.pop_eq`, with and without the leading bit. -/
theorem popReadsAField : Obligations.PopReadsAField := by
  intro s width lb n hd h32 hn hp
  obtain rfl : n = effWidth width lb := hn.trans (effWidth_eq_ite width lb).symm
  by_cases h0 : width = 0
  · subst h0
    rw [exec_pop, s.pop_zero, effWidth_zero]
    exact ⟨0#32, rfl, rfl, by decide, fun _ => by decide⟩
  have hfield := fieldAt_lt (streamBits s.data.bytes) s.rdpos (effWidth width lb)
  have hx := popResult_toNat _ width lb h32 hfield
  rw [exec_pop, s.pop_eq width lb hd h0 h32 (by omega)]
  refine ⟨_, rfl, by rw [if_neg h0, hx], ?_⟩
  cases lb with
  | false => exact ⟨hx.trans_lt hfield, nofun⟩
  | true =>
    have hlt := hx.trans_lt (two_pow_add_lt h0 hfield)
    exact ⟨hlt, fun _ => bw_eq_of_bounds (hx ▸ Nat.le_add_right _ _) hlt⟩

/-! ## POP of a field that is not there (R132, R213, R215) -/

/-- POP that runs past the end of DATA is short of the bits beyond it (R213). -/
theorem State.pop_past_end {s : State} {width : Nat} {lb : Bool} (hw : width ≤ 32) (hp : s.rdpos ≤ 8 * s.data.dlen)
    (hend : 8 * s.data.dlen < s.rdpos + effWidth width lb) :
    s.pop width lb = .raised (.insufficientData (s.rdpos + effWidth width lb - 8 * s.data.dlen)) s := by
  have h0 : width ≠ 0 := by rintro rfl; simp at hend; omega
  rw [s.pop_short width lb h0 hw (by omega)]
  congr 2
  omega

/-- Both passes of DECODE are phases of DECODE (R33). -/
theorem Phase.call_decode {p : Phase} (h : p = .decHdr ∨ p = .decVal) : p.call = some .decode := by
  rcases h with rfl | rfl <;> rfl

/-- Settles O43: the two raises of POP, each taken in a phase of DECODE and stopped with SEQ IDLE. -/
theorem popRaises : Obligations.PopRaises := by
  intro s width lb n hn
  obtain rfl : n = effWidth width lb := hn
  have hle := effWidth_le width lb
  refine ⟨fun hphase hw _ => ?_, fun hphase hw hp hend => ?_, fun hidle hw => ?_, fun hidle hw hp hend => ?_⟩
  · rw [exec_pop, s.pop_wide width lb hw, Micro.endMicro_raised_of_call _ (Phase.call_decode hphase)]
    exact ⟨_, rfl, (DecodeFrame.refl s).raise_widthOutOfRange width⟩
  · rw [exec_pop, State.pop_past_end hw hp hend, Micro.endMicro_raised_of_call _ (Phase.call_decode hphase)]
    exact ⟨_, rfl, (DecodeFrame.refl s).raise_insufficientData (by omega)⟩
  · rw [exec_pop, s.pop_wide width lb hw, Micro.endMicro_raised_of_idle _ hidle]
  · rw [exec_pop, State.pop_past_end hw hp hend, Micro.endMicro_raised_of_idle _ hidle]

/-! ## POP after APPEND (R133 (c)) -/

/-- The bits that stand in a bit string after others are the field at the position where those end. -/
theorem fieldAt_of_isPrefix {before field bits : List Bool} (h : before ++ field <+: bits) :
    fieldAt bits before.length field.length = numberOf field := by
  obtain ⟨after, rfl⟩ := h
  simp [fieldAt]

/-- A value without its leading bit, the leading bit put back (R78, R80). -/
theorem two_pow_add_mod {v : Word} (h : bw v ≠ 0) : 2 ^ (bw v - 1) + v.toNat % 2 ^ (bw v - 1) = v.toNat := by
  have hlo := two_pow_le_of_bw v h
  have hdouble := Nat.two_pow_pred_add_two_pow_pred (Nat.pos_of_ne_zero h)
  have hhi := lt_two_pow_bw v
  rw [Nat.mod_eq_sub_mod hlo, Nat.mod_eq_of_lt (by omega)]
  omega

/-- What POP returns of the bits an APPEND wrote is the value appended (R131, R133). -/
theorem poppedValue_eq {value : Word} {width : Nat} {lb : Bool} (hplain : lb = false → value.toNat < 2 ^ width)
    (hlead : lb = true → bw value = width ∧ width ≠ 0) :
    (if width = 0 then 0
      else if lb then 2 ^ (width - 1) + value.toNat % 2 ^ effWidth width lb
      else value.toNat % 2 ^ effWidth width lb) = value.toNat := by
  cases lb with
  | false =>
    have hlt := hplain rfl
    by_cases h0 : width = 0
    · subst h0
      rw [if_pos rfl]
      omega
    · rw [if_neg h0]
      exact Nat.mod_eq_of_lt hlt
  | true =>
    obtain ⟨rfl, h0⟩ := hlead rfl
    rw [if_neg h0]
    exact two_pow_add_mod h0

/-- DATA that is a context flushed by FINISH begins with the context's bits (R113, R114 (c)). -/
theorem Writer.bits_isPrefix_of_flushed {x : Writer} {m : Memory} (hx : x.Inv) (hm : m = Memory.ofBytes x.flush.out) :
    x.bits <+: streamBits m.bytes := by
  rw [hm, Memory.bytes_ofBytes, x.flush_streamBits hx]
  exact ⟨_, rfl⟩

/-- Settles O44: DATA begins with what was written before the field and the field; POP reads the field
(`popReadsAField`), which is the value or the value without its leading bit (`poppedValue_eq`). -/
theorem popInvertsAppend : Obligations.PopInvertsAppend := by
  intro s c value width lb hinv hf hw hplain hlead
  refine ⟨_, exec_append_unfinished value hf hw fun h => (hlead h).2, fun u huinv huf hlater => ?_⟩
  rw [State.ctx_setCtx_same, Writer.pushBits_bits _ _ hinv] at hlater
  refine ⟨_, by rw [exec_finish, u.finish_eq c huf, Micro.endMicro], fun r hdata hpos => ?_⟩
  rw [State.ctx_setCtx_same] at hdata
  have hbits := hlater.trans (Writer.bits_isPrefix_of_flushed huinv hdata)
  have hend := hbits.length_le
  rw [List.length_append, length_bitsOf, length_streamBits, Memory.length_bytes, ← hpos] at hend
  have hfield := fieldAt_of_isPrefix hbits
  rw [length_bitsOf, numberOf_bitsOf, ← hpos] at hfield
  have hwf : r.data.wf = true := by rw [hdata, Memory.wf_ofBytes]
  obtain ⟨x, e, hx, -, -⟩ := popReadsAField r width.toNat lb _ hwf hw (effWidth_eq_ite _ _) hend
  rw [hfield, poppedValue_eq hplain fun h => ⟨(hlead h).1, BitVec.toNat_ne.mp (hlead h).2⟩] at hx
  exact ⟨_, e, BitVec.eq_of_toNat_eq hx, by rw [hpos]; rfl⟩

end Sys2Proof.Machine
end

section
/-! PROOFS. The encoder: ENCODE at the first field that does not fit (R153, R218), the length of what it writes (R155,
R156), what it depends on (R157), and SPLICE (R152). -/

namespace Sys2Proof.Machine

open Sys2Proof

/-! ## The fields of two lists -/

theorem fieldFits_iff (f : Byte × Word) : fieldFits f = true ↔ bw f.2 ≤ f.1.toNat ∧ f.1.toNat ≤ 32 := by
  simp [fieldFits]

theorem fieldFits_eq_false_iff (f : Byte × Word) : fieldFits f = false ↔ f.1.toNat < bw f.2 ∨ 32 < f.1.toNat := by
  rw [← Bool.not_eq_true, fieldFits_iff]
  omega

/-- ENCODE can serve lists of one length whose fields all fit (R244, R245). -/
theorem encodable_iff (hw : List Byte) (vals : List Word) :
    encodable hw vals = true ↔ hw.length = vals.length ∧ ∀ f ∈ hw.zip vals, bw f.2 ≤ f.1.toNat ∧ f.1.toNat ≤ 32 := by
  simp [encodable, fieldFits_iff]

/-- With as many widths as values, every width belongs to a field. -/
theorem exists_field_of_width {hw : List Byte} {vals : List Word} {h : Byte} (hl : hw.length = vals.length)
    (hh : h ∈ hw) : ∃ v, (h, v) ∈ hw.zip vals := by
  rw [← List.map_fst_zip hl.le] at hh
  obtain ⟨⟨_, v⟩, hf, rfl⟩ := List.mem_map.mp hh
  exact ⟨v, hf⟩

/-- With as many widths as values, every value belongs to a field. -/
theorem exists_field_of_value {hw : List Byte} {vals : List Word} {v : Word} (hl : hw.length = vals.length)
    (hv : v ∈ vals) : ∃ h, (h, v) ∈ hw.zip vals := by
  rw [← List.map_snd_zip hl.ge] at hv
  obtain ⟨⟨h, _⟩, hf, rfl⟩ := List.mem_map.mp hv
  exact ⟨h, hf⟩

/-! ## The end of ENCODE by a fault (R198, R219) -/

/-- What a fault leaves of an ENCODE entered in `s`: the record of the fault, DATA empty and ENCODE's sources as they were
(R219). -/
def EncodeFaultedAt (s : State) (k : FaultKind) (fval : Word) (fwid : Byte) (fidx : Nat) (t : State) : Prop :=
  StatusIsFault 0x5#4 k fval fwid 0 fidx t ∧ t.data = [] ∧ t.hw = s.hw ∧ t.vals = s.vals ∧ t.rpos = s.rpos ∧
    SameModelParts s t

theorem fieldFault_of_narrow {h : Byte} {v : Word} (hn : h.toNat < bw v) : fieldFault h v = .valueTooWide v h :=
  if_pos hn

theorem fieldFault_of_fits {h : Byte} {v : Word} (hn : bw v ≤ h.toNat) :
    fieldFault h v = .widthOutOfRange h.toNat := if_neg (Nat.not_lt.mpr hn)

/-- Either fault of a field records the header width of the field SEQ is at, and its index (R212, R215). -/
theorem EncodeFrame.raise_fieldFault {s s' : State} (f : EncodeFrame s s') {h : Byte} (v : Word)
    (hh : s.hw[s'.seq.idx]? = some h) :
    EncodeFaultedAt s (fieldFault h v).kind (fieldFault h v).fval h s'.seq.idx
      (s'.raise .encode (fieldFault h v)) := by
  obtain ⟨H, V, T, W, Q, rfl⟩ := f
  refine ⟨?_, State.raise_data _ _ _, State.raise_hw _ _ _, State.raise_vals _ _ _, State.raise_rpos _ _ _,
    State.raise_sameModelParts _ _ _⟩
  have hrecord := State.raise_statusIsFault { s with hctx := H, vctx := V, t := T, w := W, seq := Q } .encode
    (fieldFault h v)
  by_cases hn : h.toNat < bw v
  · rw [fieldFault_of_narrow hn] at hrecord ⊢
    exact hrecord
  · have hfwid : hwAt { s with hctx := H, vctx := V, t := T, w := W, seq := Q } Q.idx = h := by
      rw [hwAt, hh, Option.getD_some]
    rw [fieldFault_of_fits (Nat.not_lt.mp hn)] at hrecord ⊢
    rwa [Raise.fwid, hfwid] at hrecord

/-- ENCODE ends at the first field that does not fit, with that field's fault (R153, R218). -/
theorem exec_encode_unfit {s : State} {pre post : List (Byte × Word)} {h : Byte} {v : Word}
    (hl : s.hw.length = s.vals.length) (hz : s.hw.zip s.vals = pre ++ (h, v) :: post)
    (hp : pre.all fieldFits = true) (hf : fieldFits (h, v) = false) :
    ∃ t, exec .encode s = .next t ∧
      EncodeFaultedAt s (fieldFault h v).kind (fieldFault h v).fval h pre.length t := by
  obtain ⟨s', a, e⟩ := execEncode_unfit s pre post h v hl hz hp hf
  have hframe : EncodeFrame s ((s'.atSeq .encField pre.length).latchWidth v) :=
    (EncodeFrame.trans ⟨_, _, _, _, _, rfl⟩ a.frame).trans (EncodeFrame.latched s' pre.length v)
  have hfailing : s.hw[pre.length]? = some h := by
    rw [← List.map_fst_zip hl.le, hz]
    simp
  exact ⟨_, e, hframe.raise_fieldFault v hfailing⟩

/-- Settles O21: the field's fault (`exec_encode_unfit`) is ValueTooWide for a value above its width, else
WidthOutOfRange; a width above 32 is above every value's. -/
theorem encodeReportsTheFirstUnfitField : Obligations.EncodeReportsTheFirstUnfitField := by
  intro s pre post h v hl hz hpre
  have hp : pre.all fieldFits = true := List.all_eq_true.mpr fun f hf => (fieldFits_iff f).mpr (hpre f hf)
  have outcome := fun hf => exec_encode_unfit hl hz hp ((fieldFits_eq_false_iff (h, v)).mpr hf)
  refine ⟨fun ⟨_, hnarrow⟩ => ?narrow, fun hwide => ?wide⟩
  case narrow =>
    have hfault := outcome (.inl hnarrow)
    rwa [fieldFault_of_narrow hnarrow] at hfault
  case wide =>
    have hfault := outcome (.inr hwide)
    rwa [fieldFault_of_fits ((bw_le v).trans hwide.le)] at hfault

/-! ## The length of the stream (R155) -/

/-- On lists it can encode, ENCODE completes with the packed stream in DATA (R154). -/
theorem exec_encode_encodable {s : State} (h : encodable s.hw s.vals = true) :
    ∃ t, exec .encode s = .next t ∧ t.data = Memory.ofBytes (bytesOf (packedBits s.hw s.vals)) ∧
      StatusIsOk 0x5#4 s t ∧ t.cfg = s.cfg := by
  obtain ⟨t, e, hdata, -, -, -, -, hok, -, -, -, -, -, hcfg, -⟩ := encodeProducesThePackedStream s h
  exact ⟨t, e, hdata, hok, hcfg⟩

/-- A width of 0 admits the value 0 alone (R155). -/
theorem values_zero_of_widths_zero {hw : List Byte} {vals : List Word} (h : encodable hw vals = true)
    (h0 : ∀ x ∈ hw, x = 0#8) : ∀ v ∈ vals, v = 0#32 := by
  obtain ⟨hl, hfits⟩ := (encodable_iff hw vals).mp h
  intro v hv
  obtain ⟨x, hf⟩ := exists_field_of_value hl hv
  have hle : bw v ≤ x.toNat := (hfits _ hf).1
  rw [h0 x (List.of_mem_zip hf).1] at hle
  exact (bw_eq_zero_iff v).mp (Nat.le_zero.mp hle)

/-- The value 0 has no value bits (R78, R79). -/
theorem packedLength_of_values_zero (hw : List Byte) {vals : List Word} (h0 : ∀ v ∈ vals, v = 0#32) :
    packedLength hw vals = (hw.map BitVec.toNat).sum := by
  have hnone : vals.filter (· ≠ 0#32) = [] := List.filter_eq_nil_iff.mpr fun v hv => by simp [h0 v hv]
  rw [packedLength, hnone]
  rfl

theorem packedLength_eq_zero_iff {hw : List Byte} {vals : List Word} (h : encodable hw vals = true) :
    packedLength hw vals = 0 ↔ ∀ x ∈ hw, x = 0#8 := by
  constructor
  · intro hN x hx
    have hle : x.toNat ≤ (hw.map BitVec.toNat).sum := List.le_sum_of_mem (List.mem_map_of_mem hx)
    have hsum : (hw.map BitVec.toNat).sum = 0 := (Nat.add_eq_zero_iff.mp hN).1
    exact BitVec.eq_of_toNat_eq (by rw [BitVec.toNat_zero]; omega)
  · intro h0
    rw [packedLength_of_values_zero hw (values_zero_of_widths_zero h h0), List.sum_eq_zero_iff_forall_eq_nat]
    intro n hn
    obtain ⟨x, hx, rfl⟩ := List.mem_map.mp hn
    rw [h0 x hx, BitVec.toNat_zero]

/-- Settles O22: DLEN counts the bytes of the packed stream, whose length is N; N is 0 with the widths. -/
theorem encodedLengthIsTheSumOfItsFields : Obligations.EncodedLengthIsTheSumOfItsFields := by
  intro s h
  obtain ⟨t, e, hdata, -, hcfg⟩ := exec_encode_encodable h
  have hN := packedBits_length s.hw s.vals ((encodable_iff _ _).mp h).1
  have hdlen : t.data.dlen = (packedLength s.hw s.vals + 7) / 8 := by
    rw [hdata, Memory.dlen_ofBytes, length_bytesOf, hN]
  have hbound : packedLength s.hw s.vals ≤ 63 * s.hw.length := hN ▸ length_packedBits_le h
  have hzero := packedLength_eq_zero_iff h
  refine ⟨t, e, hdlen, hbound, fun hwf hroom => ?fits, hzero.symm, fun h0 => ?empty⟩
  case fits =>
    rw [← hcfg] at hwf hroom ⊢
    exact Config.admits_maxB hwf hroom (by omega)
  case empty =>
    have hdlen0 : t.data.dlen = 0 := by rw [hdlen, hzero.mpr h0]
    have hfault := t.raise_status .decode .emptyInput
    exact ⟨values_zero_of_widths_zero h h0, List.length_eq_zero_iff.mp hdlen0, _, execDecode_empty hdlen0,
      by rw [hfault], by rw [hfault]; rfl⟩

/-! ## Values that are all 0 (R156) -/

@[simp] theorem bw_zero : bw 0#32 = 0 := (bw_eq_zero_iff _).mpr rfl

theorem bitsOf_zero (n : Nat) : bitsOf 0 n = List.replicate n false := by
  induction n with
  | zero => rfl
  | succ n ih => rw [bitsOf, ih, Nat.zero_testBit, List.replicate_succ]

theorem headerField_zero (h : Byte) : headerField (h, 0#32) = List.replicate h.toNat false := by
  rw [headerField, bw_zero, bitsOf_zero]

theorem valueBits_zero (h : Byte) : valueBits (h, 0#32) = [] := by
  rw [valueBits, bw_zero]
  rfl

theorem valueFields_of_values_zero (hw : List Byte) {vals : List Word} (h0 : ∀ v ∈ vals, v = 0#32) :
    (hw.zip vals).flatMap valueBits = [] := by
  rw [List.flatMap_eq_nil_iff]
  rintro ⟨h, v⟩ hf
  rw [h0 v (List.of_mem_zip hf).2, valueBits_zero]

theorem packedBits_of_values_zero {hw : List Byte} {vals : List Word} (hl : hw.length = vals.length)
    (h0 : ∀ v ∈ vals, v = 0#32) : packedBits hw vals = List.replicate (hw.map BitVec.toNat).sum false := by
  rw [← packedLength_of_values_zero hw h0, ← packedBits_length hw vals hl, List.eq_replicate_iff]
  refine ⟨rfl, fun b hb => ?_⟩
  rw [packedBits, valueFields_of_values_zero hw h0, List.append_nil] at hb
  obtain ⟨⟨h, v⟩, hf, hb⟩ := List.mem_flatMap.mp hb
  rw [h0 v (List.of_mem_zip hf).2, headerField_zero] at hb
  exact List.eq_of_mem_replicate hb

/-- Zero bits are stored in zero bytes (R79). -/
theorem bytesOf_replicate_false (n : Nat) :
    bytesOf (List.replicate n false) = List.replicate ((n + 7) / 8) 0#8 := by
  have hbyte : byteAt (List.replicate n false) = fun _ => 0#8 := by
    funext i
    have hbits : ∀ p, (List.replicate n false)[p]?.getD false = false := fun p => by
      rw [List.getElem?_replicate]
      split <;> rfl
    simp only [byteAt, hbits]
    decide
  rw [bytesOf, List.length_replicate, hbyte, List.map_const', List.length_range]

theorem encodable_of_values_zero {hw : List Byte} {vals : List Word} (hl : hw.length = vals.length)
    (h0 : ∀ v ∈ vals, v = 0#32) (h32 : ∀ h ∈ hw, h.toNat ≤ 32) : encodable hw vals = true := by
  refine (encodable_iff hw vals).mpr ⟨hl, fun ⟨h, v⟩ hf => ?_⟩
  obtain ⟨hh, hv⟩ := List.of_mem_zip hf
  rw [h0 v hv, bw_zero]
  exact ⟨Nat.zero_le _, h32 h hh⟩

/-- A value 0 fits every width, so the one fault of such a field is its width's (R153). -/
theorem exec_encode_wide_of_values_zero {s : State} (hl : s.hw.length = s.vals.length) (h0 : ∀ v ∈ s.vals, v = 0#32)
    (hwide : ∃ h ∈ s.hw, 32 < h.toNat) :
    ∃ t, exec .encode s = .next t ∧ t.status.fcode = some .widthOutOfRange ∧ t.data = [] := by
  rcases encode_cases s.hw s.vals with henc | hne | ⟨-, pre, h, v, post, hz, hp, hf⟩
  · obtain ⟨h, hh, hgt⟩ := hwide
    obtain ⟨v, hfield⟩ := exists_field_of_width hl hh
    obtain ⟨-, hfits⟩ := (encodable_iff _ _).mp henc
    exact absurd (hfits _ hfield).2 (Nat.not_le.mpr hgt)
  · exact absurd hl hne
  · obtain ⟨t, e, ⟨hstatus, -⟩, hdata, -⟩ := exec_encode_unfit hl hz hp hf
    have hmem : (h, v) ∈ s.hw.zip s.vals := by simp [hz]
    have hbw : bw v ≤ h.toNat := by rw [h0 v (List.of_mem_zip hmem).2, bw_zero]; exact Nat.zero_le _
    rw [fieldFault_of_fits hbw] at hstatus
    exact ⟨t, e, by rw [hstatus]; rfl, hdata⟩

/-- Settles O23: the packed stream of zero values is zero bits (`packedBits_of_values_zero`). -/
theorem zeroValuesEncodeToZeroBytes : Obligations.ZeroValuesEncodeToZeroBytes := by
  refine fun s hl h0 => ⟨fun h32 => ?_, exec_encode_wide_of_values_zero hl h0⟩
  have henc := encodable_of_values_zero hl h0 h32
  obtain ⟨t, e, hdata, ⟨hstatus, -⟩, -⟩ := exec_encode_encodable henc
  have hall : (s.hw.zip s.vals).all fieldFits = true :=
    List.all_eq_true.mpr fun f hf => (fieldFits_iff f).mpr (((encodable_iff _ _).mp henc).2 f hf)
  obtain ⟨u, eu, a⟩ := State.encodeFields_fit _ 0 s.encodeInit s.encodeInit_writing hall
  refine ⟨t, e, by rw [hstatus], ?_, u, eu, ?_⟩
  · rw [hdata, Memory.bytes_ofBytes, packedBits_of_values_zero hl h0, bytesOf_replicate_false]
  · rw [a.total, valueFields_of_values_zero s.hw h0]
    rfl

/-! ## What ENCODE depends on (R157, R196) -/

/-- What the host can read of an ENCODE from `s` that ended in `t`, apart from its sources: DATA, and the status and fault
registers for the fault `fcode` or none. -/
structure EncodeRecord (data : Memory) (fcode : Option FaultKind) (fval : Word) (fwid : Byte) (fidx : Nat)
    (s t : State) : Prop where
  data : t.data = data
  status : t.status =
    { state := if fcode.isSome then .fault else .ok, fseen := s.status.fseen || fcode.isSome, lastop := 0x5#4
      fcode := fcode }
  fval : t.fval = fval
  fwid : t.fwid = fwid
  fbits : t.fbits.toNat = 0
  fidx : t.fidx = fidx

theorem StatusIsOk.encodeRecord {s t : State} (h : StatusIsOk 0x5#4 s t) {data : Memory} (hdata : t.data = data) :
    EncodeRecord data none 0#32 0#8 0 s t := by
  obtain ⟨hstatus, hfval, hfwid, hfbits, hfidx⟩ := h
  exact ⟨hdata, by simp [hstatus], hfval, hfwid, by simp [hfbits], hfidx⟩

theorem StatusIsFault.encodeRecord {t : State} {k : FaultKind} {fval : Word} {fwid : Byte} {fidx : Nat}
    (h : StatusIsFault 0x5#4 k fval fwid 0 fidx t) (s : State) (hdata : t.data = []) :
    EncodeRecord [] (some k) fval fwid fidx s t := by
  obtain ⟨hstatus, hfval, hfwid, hfbits, hfidx⟩ := h
  exact ⟨hdata, by simp [hstatus], hfval, hfwid, hfbits, hfidx⟩

/-- The lists alone tell the record: the stream, the fault of unequal lengths, or that of the first unfit field. -/
theorem exists_encodeRecord_of_lists (hw : List Byte) (vals : List Word) :
    ∃ data fcode fval fwid fidx, ∀ s : State, s.hw = hw → s.vals = vals →
      ∃ t, exec .encode s = .next t ∧ EncodeRecord data fcode fval fwid fidx s t := by
  rcases encode_cases hw vals with henc | hne | ⟨hl, pre, h, v, post, hz, hp, hf⟩
  · refine ⟨Memory.ofBytes (bytesOf (packedBits hw vals)), none, 0#32, 0#8, 0, ?_⟩
    rintro s rfl rfl
    obtain ⟨t, e, hdata, hok, -⟩ := exec_encode_encodable henc
    exact ⟨t, e, hok.encodeRecord hdata⟩
  · refine ⟨[], some .fieldCountMismatch, 0#32, 0#8, 0, ?_⟩
    rintro s rfl rfl
    exact ⟨_, execEncode_unequal hne,
      (s.raise_statusIsFault .encode .fieldCountMismatch).encodeRecord s (s.raise_data _ _)⟩
  · refine ⟨[], some (fieldFault h v).kind, (fieldFault h v).fval, h, pre.length, ?_⟩
    rintro s rfl rfl
    obtain ⟨t, e, hfault, hdata, -⟩ := exec_encode_unfit hl hz hp hf
    exact ⟨t, e, hfault.encodeRecord s hdata⟩

/-- Settles O24: both states meet the one record their lists tell (`exists_encodeRecord_of_lists`). -/
theorem encodeIsAFunctionOfItsLists : Obligations.EncodeIsAFunctionOfItsLists := by
  intro s s' hhw hvals
  obtain ⟨data, fcode, fval, fwid, fidx, hrecord⟩ := exists_encodeRecord_of_lists s.hw s.vals
  obtain ⟨t, e, r⟩ := hrecord s rfl rfl
  obtain ⟨t', e', r'⟩ := hrecord s' hhw hvals
  refine ⟨t, t', e, e', r'.data.trans r.data.symm, ?_, ?_, ?_, r'.fval.trans r.fval.symm, r'.fwid.trans r.fwid.symm,
    BitVec.eq_of_toNat_eq (r'.fbits.trans r.fbits.symm), r'.fidx.trans r.fidx.symm, ?_, ?_⟩
  all_goals simp only [r.status, r'.status]

/-! ## SPLICE (R152) -/

theorem exec_splice (s : State) (n : Nat) : exec (.splice n) s = (s.splice n).endMicro := rfl

/-- Settles O40: H with the bits pushed (`State.splice_eq`), and the refusal of bits that are not there. -/
theorem spliceCarriesBitsOfV : Obligations.SpliceCarriesBitsOfV := by
  refine ⟨fun s n hinv hf hn => ?carried, fun s n hn => ?refused⟩
  case carried =>
    refine ⟨_, ?_, Writer.pushBits_bits _ _ hinv, Writer.pushBits_Inv _ _ hinv, (Writer.pushBits_finished _ _).trans hf⟩
    rw [exec_splice, s.splice_eq n hn hf]
    rfl
  case refused =>
    rw [exec_splice, State.splice, if_neg (Nat.not_le.mpr hn)]
    rfl

end Sys2Proof.Machine
end

section
/-! PROOFS. The decoder: which bits of DATA it reads (R172), what it depends on (R174), and that it inverts the encoder
(R173). -/

namespace Sys2Proof.Machine

open Sys2Proof

/-! ## The bits DECODE reads (R172) -/

/-- A field is read from the bits before its end alone. -/
theorem fieldAt_congr {xs ys : List Bool} {e p n : Nat} (h : ys.take e = xs.take e) (hend : p + n ≤ e) :
    fieldAt ys p n = fieldAt xs p n := by
  have hfield (bits : List Bool) : (bits.drop p).take n = ((bits.take e).drop p).take n := by
    rw [List.drop_take, List.take_take, Nat.min_eq_left (by omega)]
  rw [fieldAt, fieldAt, hfield ys, hfield xs, h]

theorem valueAt_congr {xs ys : List Bool} {e p w : Nat} (h : ys.take e = xs.take e) (hend : p + (w - 1) ≤ e) :
    valueAt ys p w = valueAt xs p w := by
  rw [valueAt, valueAt, fieldAt_congr h hend]

/-- The header pass reads the header fields alone (R171). -/
theorem lengthsFrom_congr {xs ys : List Bool} {e p : Nat} {hs : List Byte} (h : ys.take e = xs.take e)
    (hend : p + (hs.map BitVec.toNat).sum ≤ e) : lengthsFrom ys p hs = lengthsFrom xs p hs := by
  induction hs generalizing p with
  | nil => rfl
  | cons b hs ih =>
    rw [List.map_cons, List.sum_cons] at hend
    rw [lengthsFrom, lengthsFrom, fieldAt_congr h (by omega), ih (by omega)]

/-- The value pass reads the value fields alone (R171). -/
theorem valuesFrom_congr {xs ys : List Bool} {e p : Nat} {ws : List Nat} (h : ys.take e = xs.take e)
    (hend : p + valueSpan ws ≤ e) : valuesFrom ys p ws = valuesFrom xs p ws := by
  induction ws generalizing p with
  | nil => rfl
  | cons w ws ih =>
    rw [valueSpan_cons] at hend
    rw [valuesFrom, valuesFrom, valueAt_congr h (by omega), ih (by omega)]

/-- The bit strings agree up to the end of the fields that `xs` holds. -/
def SameUpToEnd (hw : List Byte) (xs ys : List Bool) : Prop :=
  ys.take (decodedEnd xs hw) = xs.take (decodedEnd xs hw)

theorem SameUpToEnd.lengthsOf_congr {hw : List Byte} {xs ys : List Bool} (h : SameUpToEnd hw xs ys) :
    lengthsOf ys hw = lengthsOf xs hw := by
  have hend := decodedEnd_eq xs hw
  rw [headerStart_all] at hend
  rw [lengthsOf_eq, lengthsOf_eq]
  exact lengthsFrom_congr h (by omega)

theorem SameUpToEnd.decodedEnd_congr {hw : List Byte} {xs ys : List Bool} (h : SameUpToEnd hw xs ys) :
    decodedEnd ys hw = decodedEnd xs hw := by
  rw [decodedEnd, decodedEnd, h.lengthsOf_congr]

theorem SameUpToEnd.valuesOf_congr {hw : List Byte} {xs ys : List Bool} (h : SameUpToEnd hw xs ys) :
    valuesOf ys hw = valuesOf xs hw := by
  rw [valuesOf_eq, valuesOf_eq, h.lengthsOf_congr, valuesFrom_congr h (decodedEnd_eq xs hw).ge]

/-- What DECODE needs of DATA: the widths and bit lengths within 32, and the last field there (R171). -/
theorem decodable_iff (bits : List Bool) (hw : List Byte) :
    decodable bits hw = true ↔ (∀ h ∈ hw, h.toNat ≤ 32) ∧ (∀ w ∈ lengthsOf bits hw, w ≤ 32) ∧
      decodedEnd bits hw ≤ bits.length := by
  have hheaders : headerStart hw hw.length ≤ decodedEnd bits hw := Nat.le_add_right _ _
  simp only [decodable, Bool.and_eq_true, decide_eq_true_eq, List.all_eq_true]
  constructor
  · rintro ⟨⟨⟨h32, -⟩, hlens⟩, hend⟩
    exact ⟨h32, hlens, hend⟩
  · rintro ⟨h32, hlens, hend⟩
    exact ⟨⟨⟨h32, hheaders.trans hend⟩, hlens⟩, hend⟩

theorem SameUpToEnd.decodable_congr {hw : List Byte} {xs ys : List Bool} (h : SameUpToEnd hw xs ys)
    (hxs : decodable xs hw = true) (hend : decodedEnd xs hw ≤ ys.length) : decodable ys hw = true := by
  obtain ⟨h32, hlens, -⟩ := (decodable_iff xs hw).mp hxs
  rw [decodable_iff, h.lengthsOf_congr, h.decodedEnd_congr]
  exact ⟨h32, hlens, hend⟩

/-- Settles O29: both DATA hold the same fields (`SameUpToEnd`), so DECODE reads the same from them
(`decodeReadsTheStream`). -/
theorem decodeIgnoresWhatFollowsTheLastField : Obligations.DecodeIgnoresWhatFollowsTheLastField := by
  intro s s' hd hd' h0 h0' hhw hdec hend hsame
  replace hsame : SameUpToEnd s.hw (streamBits s.data.bytes) (streamBits s'.data.bytes) := hsame
  have hdec' : decodable (streamBits s'.data.bytes) s'.hw = true := by
    rw [hhw]
    exact hsame.decodable_congr hdec (by rwa [length_streamBits, Memory.length_bytes])
  obtain ⟨t, e, hvals, hrpos, ⟨hok, -⟩, -⟩ := decodeReadsTheStream s hd h0 hdec
  obtain ⟨t', e', hvals', hrpos', ⟨hok', -⟩, -⟩ := decodeReadsTheStream s' hd' h0' hdec'
  rw [hhw] at hvals' hrpos'
  exact ⟨t, t', e, e', by rw [hok], by rw [hok'], by rw [hvals', hvals, hsame.valuesOf_congr],
    by rw [hrpos', hrpos, hsame.decodedEnd_congr]⟩

/-! ## The lists DECODE depends on (R174, R196) -/

/-- How DECODE of these lists goes: DATA is empty, all fields are there, or there is a first header field or a first
value field that is too wide or not there (R218). -/
theorem decode_cases (data : Memory) (hw : List Byte) :
    data.dlen = 0 ∨ data.dlen ≠ 0 ∧ (decodable (streamBits data.bytes) hw = true ∨
      (∃ pre h post, hw = pre ++ h :: post ∧ (∀ x ∈ pre, x.toNat ≤ 32) ∧ (pre.map BitVec.toNat).sum ≤ 8 * data.dlen ∧
        (32 < h.toNat ∨ 8 * data.dlen < (pre.map BitVec.toNat).sum + h.toNat)) ∨
      (∀ h ∈ hw, h.toNat ≤ 32) ∧ headerStart hw hw.length ≤ 8 * data.dlen ∧
        ∃ pre w post, lengthsOf (streamBits data.bytes) hw = pre ++ w :: post ∧ (∀ x ∈ pre, x ≤ 32) ∧
          headerStart hw hw.length + valueSpan pre ≤ 8 * data.dlen ∧
          (32 < w ∨ 8 * data.dlen < headerStart hw hw.length + valueSpan pre + (w - 1))) := by
  by_cases h0 : data.dlen = 0
  · exact .inl h0
  refine .inr ⟨h0, ?_⟩
  have headers := headers_cases (8 * data.dlen) hw 0 (Nat.zero_le _)
  simp only [Nat.zero_add] at headers
  rcases headers with ⟨h32, hp⟩ | hfault
  case inr => exact .inr (.inl hfault)
  rw [← headerStart_all] at hp
  rcases values_cases (8 * data.dlen) (lengthsOf (streamBits data.bytes) hw) _ hp with ⟨hlens, hend⟩ | hfault
  case inr => exact .inr (.inr ⟨h32, hp, hfault⟩)
  rw [← decodedEnd_eq] at hend
  exact .inl ((decodable_iff _ _).mpr ⟨h32, hlens, by rwa [length_streamBits, Memory.length_bytes]⟩)

/-- What a fault's record takes from the state at the raise: the position DECODE reports, the field index and the header
width (R198, R219). -/
def Raise.place (r : Raise) (s : State) : Nat × Nat × Byte := (r.rpos s, r.fidx s, r.fwid s)

/-- The place is told by HW, SEQ and the reader's position. -/
theorem Raise.place_congr (r : Raise) {s t : State} (hhw : t.hw = s.hw) (hpos : t.rdpos = s.rdpos)
    (hseq : t.seq = s.seq) : r.place t = r.place s := by
  cases r <;> simp [Raise.place, Raise.rpos, Raise.fidx, Raise.fwid, hwAt, hhw, hpos, hseq]

/-- SEQ and the reader standing at a field of these header widths; the rest of the state is reset's. -/
def State.atField (hw : List Byte) (rdpos : Nat) (seq : Seq) : State :=
  { State.reset with hw := hw, rdpos := rdpos, seq := seq }

theorem DecodeFrame.place_eq {s u : State} (f : DecodeFrame s u) (r : Raise) {p : Nat} {q : Seq} (hpos : u.rdpos = p)
    (hseq : u.seq = q) : r.place u = r.place (State.atField s.hw p q) :=
  r.place_congr f.sameInterface.hw_eq hpos hseq

theorem DecodeFrame.status_eq {s u : State} (f : DecodeFrame s u) : u.status = s.status := by
  obtain ⟨P, X, L, R, Q, rfl⟩ := f
  rfl

/-- The lists alone tell DECODE's answer: the values and the position it completes with, or the fault it raises and that
fault's place. -/
theorem exists_decodeAnswer_of_lists {data : Memory} (hd : data.wf = true) (hw : List Byte) :
    (∃ vals rpos, ∀ s : State, s.hw = hw → s.data = data → ∃ u : State, u.status = s.status ∧
      exec .decode s = .next (State.complete .decode { u with vals := vals, rpos := rpos })) ∨
    ∃ (r : Raise) (p : Nat) (q : Seq), ∀ s : State, s.hw = hw → s.data = data → ∃ u,
      r.place u = r.place (State.atField hw p q) ∧ exec .decode s = .next (u.raise .decode r) := by
  rcases decode_cases data hw with
    h0 | ⟨h0, hdec | ⟨pre, h, post, hsplit, h32, hp, hf⟩ | ⟨h32, hp, pre, w, post, hsplit, hlens, hend, hf⟩⟩
  case inl =>
    refine .inr ⟨.emptyInput, 0, Seq.idle, ?_⟩
    rintro s rfl rfl
    exact ⟨s, rfl, execDecode_empty h0⟩
  case inr.inl =>
    refine .inl ⟨valuesOf (streamBits data.bytes) hw, decodedEnd (streamBits data.bytes) hw, ?_⟩
    rintro s rfl rfl
    obtain ⟨u, f, -, -, e⟩ := execDecode_decodable s hd h0 hdec
    exact ⟨u, f.status_eq, e⟩
  case inr.inr.inl =>
    refine .inr ⟨popFault h.toNat h.toNat (pre.map BitVec.toNat).sum (8 * data.dlen), (pre.map BitVec.toNat).sum,
      { phase := .decHdr, idx := pre.length }, ?_⟩
    rintro s rfl rfl
    obtain ⟨u, f, hpos, hseq, -, -, e⟩ := execDecode_headerFault s pre post h hd h0 hsplit h32 hp hf
    exact ⟨u, f.place_eq _ hpos hseq, e⟩
  case inr.inr.inr =>
    refine .inr ⟨popFault w (w - 1) (headerStart hw hw.length + valueSpan pre) (8 * data.dlen),
      headerStart hw hw.length + valueSpan pre, { phase := .decVal, idx := pre.length }, ?_⟩
    rintro s rfl rfl
    obtain ⟨u, f, hpos, hseq, -, -, e⟩ := execDecode_valueFault s pre post w hd h0 h32 hp hsplit hlens hend hf
    exact ⟨u, f.place_eq _ hpos hseq, e⟩

/-- Settles O30: from both states DECODE gives the one answer their lists tell (`exists_decodeAnswer_of_lists`), and the
record of a completion or of a fault follows. -/
theorem decodeIsAFunctionOfItsLists : Obligations.DecodeIsAFunctionOfItsLists := by
  intro s s' hd hhw hdata
  rcases exists_decodeAnswer_of_lists hd s.hw with ⟨vals, rpos, hanswer⟩ | ⟨r, p, q, hanswer⟩
  case inl =>
    obtain ⟨u, hstatus, e⟩ := hanswer s rfl rfl
    obtain ⟨u', hstatus', e'⟩ := hanswer s' hhw hdata
    refine ⟨_, _, e, e', ?_⟩
    simp [hstatus, hstatus']
  case inr =>
    obtain ⟨u, hplace, e⟩ := hanswer s rfl rfl
    obtain ⟨u', hplace', e'⟩ := hanswer s' hhw hdata
    obtain ⟨hrpos, hfidx, hfwid⟩ : r.rpos u' = r.rpos u ∧ r.fidx u' = r.fidx u ∧ r.fwid u' = r.fwid u := by
      simpa [Raise.place] using hplace'.trans hplace.symm
    refine ⟨_, _, e, e', ?_⟩
    simp [hrpos, hfidx, hfwid]

/-! ## DECODE of what ENCODE wrote (R173) -/

/-- A header field wide enough for the bit width holds it (R77). -/
theorem fieldAt_headerField {f : Byte × Word} (hf : bw f.2 ≤ f.1.toNat) (before after : List Bool) :
    fieldAt (before ++ headerField f ++ after) before.length f.1.toNat = bw f.2 := by
  have hfield := fieldAt_of_isPrefix (before := before) (field := headerField f) ⟨after, rfl⟩
  rwa [headerField, length_bitsOf, numberOf_bitsOf, Nat.mod_eq_of_lt (hf.trans_lt Nat.lt_two_pow_self)] at hfield

/-- The header fields of a stream hold the bit widths of its values (R77). -/
theorem lengthsFrom_headerFields {fields : List (Byte × Word)} (hfits : ∀ f ∈ fields, bw f.2 ≤ f.1.toNat)
    (before after : List Bool) :
    lengthsFrom (before ++ fields.flatMap headerField ++ after) before.length (fields.map Prod.fst) =
      fields.map fun f => bw f.2 := by
  induction fields generalizing before with
  | nil => rfl
  | cons f fields ih =>
    obtain ⟨hf, hfits⟩ := List.forall_mem_cons.mp hfits
    have hlength := fieldAt_headerField hf before (fields.flatMap headerField ++ after)
    have hrest := ih hfits (before ++ headerField f)
    rw [List.length_append, headerField, length_bitsOf, ← headerField] at hrest
    simp only [List.append_assoc, List.flatMap_cons, List.map_cons, lengthsFrom] at hlength hrest ⊢
    rw [hlength, hrest]

/-- The value bits of a field, its leading bit put back, are its value (R78, R80). -/
theorem valueAt_valueBits (f : Byte × Word) (before after : List Bool) :
    valueAt (before ++ valueBits f ++ after) before.length (bw f.2) = f.2.toNat := by
  by_cases h0 : bw f.2 = 0
  · rw [valueAt, if_pos h0, (bw_eq_zero_iff f.2).mp h0, BitVec.toNat_zero]
  · have hfield := fieldAt_of_isPrefix (before := before) (field := valueBits f) ⟨after, rfl⟩
    rw [valueBits, length_bitsOf, numberOf_bitsOf] at hfield
    rw [valueAt, if_neg h0, valueBits, hfield, two_pow_add_mod h0]

/-- The value fields of a stream hold its values (R78). -/
theorem valuesFrom_valueFields (fields : List (Byte × Word)) (before after : List Bool) :
    valuesFrom (before ++ fields.flatMap valueBits ++ after) before.length (fields.map fun f => bw f.2) =
      fields.map fun f => f.2.toNat := by
  induction fields generalizing before with
  | nil => rfl
  | cons f fields ih =>
    have hvalue := valueAt_valueBits f before (fields.flatMap valueBits ++ after)
    have hrest := ih (before ++ valueBits f)
    rw [List.length_append, valueBits, length_bitsOf, ← valueBits] at hrest
    simp only [List.append_assoc, List.flatMap_cons, List.map_cons, valuesFrom] at hvalue hrest ⊢
    rw [hvalue, hrest]

section
variable {hw : List Byte} {vals : List Word} (h : encodable hw vals = true) (after : List Bool)
include h

/-- The header fields take as many bits as the header widths say (R77, R81). -/
theorem length_headerFields : ((hw.zip vals).flatMap headerField).length = headerStart hw hw.length := by
  have hl := ((encodable_iff hw vals).mp h).1
  have hfst := congrArg (fun ws => (ws.map BitVec.toNat).sum) (List.map_fst_zip hl.le)
  rw [headerStart_all, ← hfst, List.length_flatMap]
  simp [headerField, Function.comp_def]

/-- What is said of the values field by field is said of the values. -/
theorem map_fields (g : Word → Nat) : (hw.zip vals).map (fun f => g f.2) = vals.map g := by
  have hl := ((encodable_iff hw vals).mp h).1
  conv_rhs => rw [← List.map_snd_zip hl.ge, List.map_map]
  rfl

/-- What the header pass reads of a packed stream (R77). -/
theorem lengthsOf_packedBits : lengthsOf (packedBits hw vals ++ after) hw = vals.map bw := by
  obtain ⟨hl, hfits⟩ := (encodable_iff hw vals).mp h
  have hlens := lengthsFrom_headerFields (fun f hf => (hfits f hf).1) [] ((hw.zip vals).flatMap valueBits ++ after)
  rw [List.map_fst_zip hl.le, map_fields h] at hlens
  rw [lengthsOf_eq, packedBits, List.append_assoc]
  exact hlens

/-- What the value pass reads of a packed stream (R78, R80). -/
theorem valuesOf_packedBits : valuesOf (packedBits hw vals ++ after) hw = vals := by
  have hvals := valuesFrom_valueFields (hw.zip vals) ((hw.zip vals).flatMap headerField) after
  rw [length_headerFields h, map_fields h, map_fields h] at hvals
  rw [valuesOf_eq, lengthsOf_packedBits h, packedBits, hvals, ← eq_map_ofNat]

/-- The reader ends where the writer did (R173). -/
theorem decodedEnd_packedBits : decodedEnd (packedBits hw vals ++ after) hw = packedLength hw vals := by
  have hl := ((encodable_iff hw vals).mp h).1
  have hspan : valueSpan (vals.map bw) = ((hw.zip vals).flatMap valueBits).length := by
    rw [← map_fields h, List.length_flatMap]
    simp [valueSpan, valueBits, Function.comp_def]
  rw [decodedEnd_eq, lengthsOf_packedBits h, hspan, ← length_headerFields h, ← List.length_append, ← packedBits,
    packedBits_length hw vals hl]

/-- What ENCODE writes DECODE can read (R173). -/
theorem decodable_packedBits : decodable (packedBits hw vals ++ after) hw = true := by
  obtain ⟨hl, hfits⟩ := (encodable_iff hw vals).mp h
  rw [decodable_iff, lengthsOf_packedBits h, decodedEnd_packedBits h, ← packedBits_length hw vals hl]
  refine ⟨fun b hb => ?_, fun w hw => ?_, by simp⟩
  · obtain ⟨v, hv⟩ := exists_field_of_width hl hb
    exact (hfits _ hv).2
  · obtain ⟨v, -, rfl⟩ := List.mem_map.mp hw
    exact bw_le v

end

/-- Settles O31: DATA is the packed stream and its pad, from which DECODE reads the values ENCODE was given
(`valuesOf_packedBits`) and ends where their fields do (`decodedEnd_packedBits`). -/
theorem decodeInvertsEncode : Obligations.DecodeInvertsEncode := by
  intro s h hsum
  obtain ⟨t, e, hdata, ⟨hstatus, -⟩, -⟩ := exec_encode_encodable h
  have hN := packedBits_length s.hw s.vals ((encodable_iff _ _).mp h).1
  have hpos : 1 ≤ packedLength s.hw s.vals := hsum.trans (Nat.le_add_right _ _)
  have hdlen : t.data.dlen = (packedLength s.hw s.vals + 7) / 8 := by
    rw [hdata, Memory.dlen_ofBytes, length_bytesOf, hN]
  refine ⟨t, e, by rw [hstatus], by omega, fun s' hhw hdata' => ?_⟩
  have hbits : streamBits s'.data.bytes =
      packedBits s.hw s.vals ++ List.replicate (padLength (packedBits s.hw s.vals).length) false := by
    rw [hdata', hdata, Memory.bytes_ofBytes, streamBits_bytesOf]
  have hwf : s'.data.wf = true := by rw [hdata', hdata, Memory.wf_ofBytes]
  obtain ⟨u, e', hvals, hrpos, ⟨hok, -⟩, -, hkept, -⟩ := decodeReadsTheStream s' hwf (by rw [hdata']; omega)
    (by rw [hbits, hhw]; exact decodable_packedBits h _)
  rw [hbits, hhw, valuesOf_packedBits h] at hvals
  rw [hbits, hhw, decodedEnd_packedBits h] at hrpos
  rw [← hkept] at hdata'
  refine ⟨u, e', by rw [hok], hvals, hrpos, ?_⟩
  rw [hrpos, hdata', hdlen]
  omega

end Sys2Proof.Machine
end

section
/-! PROOFS. The host interface HIF: how a host command ends (R195, R198, R219), what CLR and the PUSH commands do
(R190 to R193), and the illegal word (R194). -/

namespace Sys2Proof.Machine

open Sys2Proof

/-! ## The ends of a host command (R195, R198, R219) -/

theorem SameInterface.refl (s : State) : SameInterface s s := SameInterface.withWorkingOf s s

/-- `s'` is what the host command `i`, presented in `s`, has made of it by the time it ends as `c`: STATUS is still to be
written, RPOS only DECODE has written, SEQ only a call has moved. -/
structure ComesToEnd (i : Instr) (s : State) (c : Command) (s' : State) : Prop where
  status : s'.status = s.status
  rpos : i ≠ .decode → c ≠ .decode ∧ s'.rpos = s.rpos
  seq : c ≠ .encode → c ≠ .decode → s'.seq = s.seq

/-- The two ends of a command: it completes or it raises (R198). -/
def EndsAs (c : Command) (s t : State) : Prop := t = s.complete c ∨ ∃ r, t = s.raise c r

theorem EndsAs.fseen {c : Command} {s t : State} (h : EndsAs c s t) (hs : s.status.fseen = true) :
    t.status.fseen = true := by
  rcases h with rfl | ⟨r, rfl⟩
  · rw [State.complete_status]; exact hs
  · rw [State.raise_status]

theorem EndsAs.rpos {c : Command} {s t : State} (h : EndsAs c s t) (hc : c ≠ .decode) : t.rpos = s.rpos := by
  rcases h with rfl | ⟨r, rfl⟩
  · rw [State.complete_rpos]
  · rw [State.raise_rpos, if_neg hc]

theorem EndsAs.phase_idle {c : Command} {s t : State} (h : EndsAs c s t)
    (hs : c ≠ .encode → c ≠ .decode → s.seq.phase = .idle) : t.seq.phase = .idle := by
  rcases h with rfl | ⟨r, rfl⟩
  · cases c with
    | encode | decode => rfl
    | clr | pushhw | pushval | pushb | illegal o => exact hs nofun nofun
  · rw [State.raise_seq]; rfl

/-- A PUSH ends with nothing but its list changed before (R191 to R193). -/
theorem push_ends {c : Command} {full : Prop} [Decidable full] {s u t : State}
    (e : (if full then Host.Outcome.next (s.raise c .capacityExceeded) else .next (u.complete c) :
      Host.Outcome State Fault Refusal) = .next t) : EndsAs c s t ∨ EndsAs c u t := by
  rcases push_next e with ⟨-, rfl⟩ | ⟨-, rfl⟩
  · exact .inl (.inr ⟨_, rfl⟩)
  · exact .inr (.inl rfl)

/-- DECODE from any state, DATA in canonical form or not, writes STATUS at its end only. -/
theorem execDecode_ends {s t : State} (e : execDecode s = .next t) :
    ∃ s', s'.status = s.status ∧ EndsAs .decode s' t := by
  unfold execDecode at e
  split at e
  next => cases e; exact ⟨s, rfl, .inr ⟨_, rfl⟩⟩
  next =>
    have f₀ : DecodeFrame s s.decodeInit := ⟨_, _, _, _, _, rfl⟩
    have hpasses := (State.decodeHeaders_endsIn s.hw 0 f₀).andThen fun s₁ f₁ => State.decodeValues_endsIn s₁.l 0 f₁
    have hend := (hpasses.mono fun u f => f.sameInterface.2.1.1).andThen (f := State.decodeTail) fun _ h => h
    rcases hend.endCommand_next e with ⟨s', hs', rfl⟩ | ⟨r, s', hs', rfl⟩
    · exact ⟨s', hs', .inl rfl⟩
    · exact ⟨s', hs', .inr ⟨r, rfl⟩⟩

/-- ENCODE writes STATUS at its end only, and RPOS never. -/
theorem execEncode_ends {s t : State} (e : execEncode s = .next t) :
    ∃ s', s'.status = s.status ∧ s'.rpos = s.rpos ∧ EndsAs .encode s' t := by
  rcases execEncode_outcome s with ⟨-, e'⟩ | ⟨s', f, -, -, -, -, ⟨-, e'⟩ | ⟨-, b, v, e'⟩⟩ <;> cases e.symm.trans e'
  case inl => exact ⟨s, rfl, rfl, .inr ⟨_, rfl⟩⟩
  all_goals obtain ⟨-, ⟨hstatus, -, -, -, -, hrpos⟩, -⟩ := f.sameInterface
  case inr.inl =>
    refine ⟨_, ?_, ?_, .inl rfl⟩
    exacts [hstatus, hrpos]
  case inr.inr => exact ⟨s', hstatus, hrpos, .inr ⟨_, rfl⟩⟩

/-- With the ST bit CLR clears the status registers (R190). -/
theorem exec_clr_status {m : BitVec 4} (h : m.getLsbD 3 = true) (s : State) :
    exec (.clr m) s = .next (s.clearLists m).clearStatus := congrArg Host.Outcome.next (if_pos h)

/-- Without it CLR completes like any other command (R190). -/
theorem exec_clr_completes {m : BitVec 4} (h : m.getLsbD 3 = false) (s : State) :
    exec (.clr m) s = .next ((s.clearLists m).complete .clr) :=
  congrArg Host.Outcome.next (if_neg (Bool.eq_false_iff.mp h))

/-- What a host command that answers a next state has done: cleared the status registers as a CLR with ST, or come to one
of the two ends of a command. -/
theorem exec_host_ends {s t : State} {i : Instr} (hi : i.op.isHost = true) (e : exec i s = .next t) :
    (∃ m, i = .clr m ∧ m.getLsbD 3 = true ∧ t = (s.clearLists m).clearStatus) ∨
      ∃ c s', ComesToEnd i s c s' ∧ EndsAs c s' t := by
  cases i with
  | clr m =>
    cases hm : m.getLsbD 3 with
    | true =>
      cases e.symm.trans (exec_clr_status hm s)
      exact .inl ⟨m, rfl, hm, rfl⟩
    | false =>
      cases e.symm.trans (exec_clr_completes hm s)
      exact .inr ⟨.clr, s.clearLists m, ⟨rfl, fun _ => ⟨nofun, rfl⟩, fun _ _ => rfl⟩, .inl rfl⟩
  | pushhw | pushval | pushb =>
    rcases push_ends e with h | h <;> refine .inr ⟨_, _, ?_, h⟩ <;>
      exact ⟨rfl, fun _ => ⟨nofun, rfl⟩, fun _ _ => rfl⟩
  | encode =>
    obtain ⟨s', hstatus, hrpos, h⟩ := execEncode_ends e
    exact .inr ⟨.encode, s', ⟨hstatus, fun _ => ⟨nofun, hrpos⟩, fun he => absurd rfl he⟩, h⟩
  | decode =>
    obtain ⟨s', hstatus, h⟩ := execDecode_ends e
    exact .inr ⟨.decode, s', ⟨hstatus, fun hi => absurd rfl hi, fun _ hd => absurd rfl hd⟩, h⟩
  | bw | winit | append | finish | splice | rinit | pop => cases hi

/-- From canonical DATA every host command answers a next state (R195). -/
theorem exec_host_next {s : State} {i : Instr} (hi : i.op.isHost = true) (hd : s.data.wf = true) :
    ∃ t, exec i s = .next t := by
  obtain ⟨t, -, e, -⟩ := (SameInterface.refl s).exec_host hd hi
  exact ⟨t, e⟩

theorem exec_host_phase_idle {s t : State} {i : Instr} (hi : i.op.isHost = true) (hq : s.seq.phase = .idle)
    (e : exec i s = .next t) : t.seq.phase = .idle := by
  rcases exec_host_ends hi e with ⟨m, -, -, rfl⟩ | ⟨c, s', hcomes, hends⟩
  · exact hq
  · exact hends.phase_idle fun he hd => by rw [hcomes.seq he hd]; exact hq

/-- Settles O10: every host command answers (`exec_host_next`), with DATA canonical and SEQ as its end leaves it. -/
theorem everyHostCommandEnds : Obligations.EveryHostCommandEnds := by
  intro s i hi hd
  obtain ⟨t, e⟩ := exec_host_next hi hd
  exact ⟨t, e, exec_host_keeps_dataWf hi hd e, fun hq => exec_host_phase_idle hi hq e⟩

/-! ## RPOS and FSEEN (R198, R220) -/

/-- Settles O51: a host command by its end, a micro-operation outside a call by the interface state. -/
theorem rposIsWrittenByDecodeAndClrOnly : Obligations.RposIsWrittenByDecodeAndClrOnly := by
  intro s t i hq e hdecode hclr
  cases hi : i.op.isHost with
  | true =>
    rcases exec_host_ends hi e with ⟨m, him, hm, -⟩ | ⟨c, s', hcomes, hends⟩
    · exact absurd (hclr m him) (by simp [hm])
    · obtain ⟨hc, hrpos⟩ := hcomes.rpos hdecode
      exact (hends.rpos hc).trans hrpos
  | false =>
    obtain ⟨-, ⟨-, -, -, -, -, hrpos⟩, -⟩ := exec_micro_sameInterface hi hq e
    exact hrpos

theorem State.append_endsIn (s : State) (c : Ctx) (value : Word) (width : Nat) (lb : Bool) :
    (s.append c value width lb).EndsIn (SameInterface s) := by
  cases h : s.append c value width lb with
  | ok s' =>
    obtain ⟨-, -, -, rfl⟩ := s.append_ok s' c value width lb h
    exact SameInterface.setCtx s c _
  | raised r s' =>
    obtain ⟨-, -, rfl⟩ := s.append_raised s' c value width lb r h
    exact SameInterface.refl s'
  | stuck e | refuse e => trivial

theorem State.finish_endsIn (s : State) (c : Ctx) : (s.finish c).EndsIn (SameInterface s) := by
  cases h : s.finish c with
  | ok s' =>
    obtain ⟨-, rfl⟩ := s.finish_ok s' c h
    exact SameInterface.setCtx s c _
  | raised r s' => exact absurd h (s.finish_not_raised s' c r)
  | stuck e | refuse e => trivial

theorem State.splice_endsIn (s : State) (n : Nat) : (s.splice n).EndsIn (SameInterface s) := by
  cases h : s.splice n with
  | ok s' =>
    obtain ⟨-, rfl⟩ := s.splice_ok n s' h
    exact SameInterface.setCtx s .H _
  | raised r s' => exact absurd h (s.splice_not_raised n s' r)
  | stuck e | refuse e => trivial

/-- In whatever phase SEQ is, a micro-operation changes working state only, until a raise ends the call (R74, R219). -/
theorem exec_micro_endsIn {i : Instr} (hi : i.op.isHost = false) (s : State) :
    ∃ m : Micro, exec i s = m.endMicro ∧ m.EndsIn (SameInterface s) := by
  cases i with
  | clr | pushhw | pushval | pushb | encode | decode => cases hi
  | bw v => exact ⟨.ok (s.latchWidth v), rfl, SameInterface.withWorkingOf s (s.latchWidth v)⟩
  | winit c => exact ⟨.ok (s.winit c), rfl, SameInterface.setCtx s c _⟩
  | append c value width lb => exact ⟨_, exec_append s c value width lb, s.append_endsIn c value _ lb⟩
  | finish c => exact ⟨_, exec_finish s c, s.finish_endsIn c⟩
  | splice n => exact ⟨_, exec_splice s n, s.splice_endsIn n⟩
  | rinit => exact ⟨.ok s.rinit, rfl, SameInterface.withWorkingOf s s.rinit⟩
  | pop width lb => exact ⟨_, exec_pop s width lb, (s.pop_endsIn width lb).mono fun _ f => f.sameInterface⟩

theorem Micro.EndsIn.endMicro_next {p : State → Prop} {m : Micro} {t : State} (h : m.EndsIn p)
    (e : m.endMicro = .next t) : p t ∨ ∃ c s r, p s ∧ t = s.raise c r := by
  cases m with
  | ok s => cases e; exact .inl h
  | raised r s =>
    simp only [Micro.endMicro] at e
    split at e
    next c hc => cases e; exact .inr ⟨c, s, r, h, rfl⟩
    next => cases e
  | stuck f | refuse f => cases e

/-- No micro-operation clears FSEEN, not even one whose raise ends a call (R198, R219). -/
theorem exec_micro_fseen {s t : State} {i : Instr} (hi : i.op.isHost = false) (hs : s.status.fseen = true)
    (e : exec i s = .next t) : t.status.fseen = true := by
  obtain ⟨m, hm, hends⟩ := exec_micro_endsIn hi s
  rcases hends.endMicro_next (hm.symm.trans e) with ⟨-, ⟨hstatus, -⟩, -⟩ | ⟨c, s', r, -, rfl⟩
  · rw [hstatus]; exact hs
  · rw [State.raise_status]

/-- Of the host commands only a CLR with ST clears FSEEN (R190, R198). -/
theorem exec_host_fseen {s t : State} {i : Instr} (hi : i.op.isHost = true) (hs : s.status.fseen = true)
    (e : exec i s = .next t) : t.status.fseen = true ∨ ∃ m, i = .clr m ∧ m.getLsbD 3 = true := by
  rcases exec_host_ends hi e with ⟨m, him, hm, -⟩ | ⟨c, s', hcomes, hends⟩
  · exact .inr ⟨m, him, hm⟩
  · exact .inl (hends.fseen (by rw [hcomes.status]; exact hs))

/-- Settles O48, by the cases of a step. -/
theorem fseenIsClearedByClrOnly : Obligations.FseenIsClearedByClrOnly := by
  intro s t hs e
  rcases step_cases e with ⟨-, rfl⟩ | ⟨rest, ⟨w, i, hin, hdec, hi, e⟩ | ⟨w, i, -, -, hi, e⟩ | ⟨w, -, rfl⟩ |
    ⟨sp, i, v, -, -, rfl⟩⟩
  · exact .inl hs
  · rcases exec_host_fseen (s := { s with inputs := rest }) hi hs e with hfseen | ⟨m, rfl, hm⟩
    · exact .inl hfseen
    · exact .inr ⟨w, m, rest, hin, hdec, hm⟩
  · exact .inl (exec_micro_fseen (s := { s with inputs := rest }) hi hs e)
  · exact .inl (by rw [State.raise_status])
  · exact .inl hs

/-! ## Commands that are no call: CLR, the PUSH commands, the illegal word (R190 to R194) -/

/-- A word with an operation's pattern decodes to that operation on the word's fields (R71, R72). -/
theorem decode_of_pattern {o : Op} {w : OpWord} (h : w &&& o.mask = o.pattern) : decode w = .ok (o.instr w) :=
  (decode_ok_iff _ _).mpr ⟨o, (o.names_iff w).mpr h, rfl⟩

/-- The ordinary status update is recorded and, but for the lists, nothing else has changed (R198). -/
def RecordsOkOnly (opc : BitVec 4) (s t : State) : Prop :=
  StatusIsOk opc s t ∧ t.rpos = s.rpos ∧ SameWorking s t ∧ t.seq = s.seq ∧ SameModelParts s t

/-- So ends a command that is no call and completes (R190 to R193). -/
theorem recordsOkOnly_complete (c : Command) (he : c ≠ .encode) (hd : c ≠ .decode) (s : State) (hw : List Byte)
    (vals : List Word) (data : Memory) :
    RecordsOkOnly c.opc s (State.complete c { s with hw := hw, vals := vals, data := data }) := by
  cases c with
  | encode => exact absurd rfl he
  | decode => exact absurd rfl hd
  | clr | pushhw | pushval | pushb | illegal o =>
    exact ⟨⟨rfl, rfl, rfl, rfl, rfl⟩, rfl, ⟨rfl, rfl, rfl, rfl, rfl, rfl, rfl, rfl⟩, rfl, ⟨rfl, rfl, rfl⟩⟩

/-- A fault of kind `k` without details is recorded, and no list and not RPOS has changed (R198, R219). -/
def RecordsFaultOnly (opc : BitVec 4) (k : FaultKind) (s t : State) : Prop :=
  SameLists s t ∧ StatusIsFault opc k 0#32 0#8 0 0 t ∧ t.rpos = s.rpos ∧ SameModelParts s t

/-- So ends a PUSH on a full list (R217). -/
theorem recordsFaultOnly_capacityExceeded (c : Command) (he : c ≠ .encode) (hd : c ≠ .decode) (s : State) :
    RecordsFaultOnly c.opc .capacityExceeded s (s.raise c .capacityExceeded) := by
  refine ⟨⟨s.raise_hw c _, ?_, ?_⟩, s.raise_statusIsFault c _, ?_, s.raise_sameModelParts c _⟩
  · rw [State.raise_vals, if_neg hd]
  · rw [State.raise_data, if_neg he]
  · rw [State.raise_rpos, if_neg hd]

/-- Settles O14: CLR with ST by the cleared registers, without it by the ordinary update. -/
theorem clrEmptiesWhatItsMaskSelects : Obligations.ClrEmptiesWhatItsMaskSelects := by
  refine ⟨fun s m => ?effect, fun w => decode_of_pattern (o := .clr), by decide⟩
  cases hm : m.getLsbD 3 with
  | true =>
    have hstatus : Status.zero.word = 0#32 := by decide
    exact ⟨_, exec_clr_status hm s, rfl, rfl, rfl, fun _ => ⟨hstatus, rfl, rfl, rfl, rfl, rfl⟩, nofun,
      ⟨rfl, rfl, rfl, rfl, rfl, rfl, rfl, rfl⟩, rfl, rfl, rfl, rfl⟩
  | false =>
    obtain ⟨hok, hrpos, hkept⟩ := recordsOkOnly_complete .clr nofun nofun s (s.clearLists m).hw
      (s.clearLists m).vals (s.clearLists m).data
    exact ⟨_, exec_clr_completes hm s, rfl, rfl, rfl, nofun, fun _ => ⟨hok, hrpos⟩, hkept⟩

/-- Settles O16: below the capacity PUSHHW completes with the width appended, at it the fault is recorded. -/
theorem pushhwAppendsOrFaults : Obligations.PushhwAppendsOrFaults :=
  ⟨fun s h hroom => ⟨_, if_neg hroom, rfl, rfl, rfl,
      recordsOkOnly_complete .pushhw nofun nofun s (s.hw ++ [h]) s.vals s.data⟩,
    fun s _ hfull => ⟨_, if_pos hfull, recordsFaultOnly_capacityExceeded .pushhw nofun nofun s⟩,
    fun _ => decode_of_pattern (o := .pushhw), by decide⟩

/-- Settles O17: below the capacity PUSHVAL completes with the value appended, at it the fault is recorded. -/
theorem pushvalAppendsOrFaults : Obligations.PushvalAppendsOrFaults :=
  ⟨fun s v hroom => ⟨_, if_neg hroom, rfl, rfl, rfl,
      recordsOkOnly_complete .pushval nofun nofun s s.hw (s.vals ++ [v]) s.data⟩,
    fun s _ hfull => ⟨_, if_pos hfull, recordsFaultOnly_capacityExceeded .pushval nofun nofun s⟩,
    fun _ => decode_of_pattern (o := .pushval), by decide⟩

/-- The pushed byte is read at the old length (R193). -/
theorem Memory.read_push_dlen {m : Memory} (hm : m.wf = true) (b : Byte) : (m.push b).read m.dlen = some b := by
  rw [Memory.read_eq _ (Memory.wf_push m b hm), Memory.bytes_push, ← Memory.length_bytes, List.getElem?_concat_length]

/-- Every other address reads as before the push (R193). -/
theorem Memory.read_push_of_ne {m : Memory} (hm : m.wf = true) (b : Byte) {a : Nat} (ha : a ≠ m.dlen) :
    (m.push b).read a = m.read a := by
  rw [Memory.read_eq _ (Memory.wf_push m b hm), Memory.read_eq _ hm, Memory.bytes_push]
  rcases Nat.lt_or_gt_of_ne ha with hlt | hgt
  · exact List.getElem?_append_left (by rwa [Memory.length_bytes])
  · rw [List.getElem?_eq_none (by simp; omega), List.getElem?_eq_none (by simp; omega)]

/-- Settles O18: below the capacity PUSHB completes with DATA pushed (`Memory.read_push_dlen`,
`Memory.read_push_of_ne`), at it the fault is recorded. -/
theorem pushbWritesOneByteOrFaults : Obligations.PushbWritesOneByteOrFaults :=
  ⟨fun s b hwf hroom => ⟨_, if_neg hroom, Memory.dlen_push s.data b, Memory.bytes_push s.data b,
      Memory.read_push_dlen hwf b, fun _ ha => Memory.read_push_of_ne hwf b ha, rfl, rfl,
      recordsOkOnly_complete .pushb nofun nofun s s.hw s.vals (s.data.push b)⟩,
    fun s _ hfull => ⟨_, if_pos hfull, recordsFaultOnly_capacityExceeded .pushb nofun nofun s⟩,
    fun _ => decode_of_pattern (o := .pushb), by decide⟩

/-- A word of no host command's pattern is illegal (R73, R194). -/
theorem hostWord_of_no_pattern {w : OpWord} (h : ∀ o : Op, o.isHost = true → w &&& o.mask ≠ o.pattern) (s : State) :
    hostWord w s = illegalWord w s := by
  unfold hostWord
  split
  next i hdec => exact if_neg fun hi => h i.op hi ((decode_op_iff w i.op).mp ⟨i, hdec, rfl⟩)
  next => rfl

/-- Settles O8: the word is illegal (`hostWord_of_no_pattern`), and its raise has no destination and no working state to
abandon; the examples are tried against the six host commands. -/
theorem illegalHostWordOnlyRecordsTheFault : Obligations.IllegalHostWordOnlyRecordsTheFault := by
  constructor
  · intro s w rest hin hw
    have e : step s = illegalWord w { s with inputs := rest } := by
      simp only [step, hin]
      exact hostWord_of_no_pattern hw _
    exact ⟨_, e, ⟨rfl, rfl, rfl⟩, ⟨rfl, rfl, rfl, rfl, rfl, rfl, rfl, rfl⟩, rfl, rfl,
      State.raise_statusIsFault _ _ _, State.raise_sameModelParts _ _ _⟩
  · intro w hw o ho
    cases o with
    | clr | pushhw | pushval | pushb | encode | decode =>
      revert w
      exact List.forall_iff_forall_mem.mp (by decide)
    | bw | winit | append | finish | splice | rinit | pop => cases ho

end Sys2Proof.Machine
end

section
/-! PROOFS. The fault entry (60_exceptions.md): which faults a legal command can raise (R218), what a fault of ENCODE or
DECODE leaves behind (R219), and the two faults before the first micro-operation (R211, R214). -/

namespace Sys2Proof.Machine

open Sys2Proof

/-! ## The faults of a legal command (R218) -/

theorem State.complete_fcode_ne_illegalCommand (s : State) (c : Command) :
    (s.complete c).status.fcode ≠ some .illegalCommand := by
  rw [State.complete_status]
  exact nofun

theorem State.raise_fcode_ne_illegalCommand (s : State) (c : Command) {r : Raise} (hr : r.kind ≠ .illegalCommand) :
    (s.raise c r).status.fcode ≠ some .illegalCommand := by
  rw [State.raise_status]
  exact fun h => hr (Option.some.inj h)

theorem fieldFault_kind_ne_illegalCommand (h : Byte) (v : Word) : (fieldFault h v).kind ≠ .illegalCommand := by
  unfold fieldFault
  split <;> exact nofun

theorem execEncode_fcode_ne_illegalCommand {s t : State} (e : execEncode s = .next t) :
    t.status.fcode ≠ some .illegalCommand := by
  rcases execEncode_outcome s with ⟨-, e'⟩ | ⟨s', -, -, -, -, -, ⟨-, e'⟩ | ⟨-, h, v, e'⟩⟩ <;> cases e.symm.trans e'
  case inl => exact s.raise_fcode_ne_illegalCommand .encode nofun
  case inr.inl => exact State.complete_fcode_ne_illegalCommand _ .encode
  case inr.inr => exact s'.raise_fcode_ne_illegalCommand .encode (fieldFault_kind_ne_illegalCommand h v)

theorem execDecode_fcode_ne_illegalCommand {s t : State} (hd : s.data.wf = true) (e : execDecode s = .next t) :
    t.status.fcode ≠ some .illegalCommand := by
  rcases execDecode_outcome s hd with ⟨-, e'⟩ | ⟨-, s', -, -, -, ⟨-, -, e'⟩ | ⟨-, -, r, e', hr⟩⟩ <;>
    cases e.symm.trans e'
  case inl => exact s.raise_fcode_ne_illegalCommand .decode nofun
  case inr.inl => exact State.complete_fcode_ne_illegalCommand _ .decode
  case inr.inr =>
    rcases hr with ⟨k, rfl⟩ | ⟨b, -, -, rfl⟩
    · exact s'.raise_fcode_ne_illegalCommand .decode nofun
    · exact s'.raise_fcode_ne_illegalCommand .decode nofun

/-- A host command that is executed records none or another fault: IllegalCommand is raised for a word that is not
executed (R194, R216). -/
theorem exec_host_fcode_ne_illegalCommand {s t : State} {i : Instr} (hi : i.op.isHost = true) (hd : s.data.wf = true)
    (e : exec i s = .next t) : t.status.fcode ≠ some .illegalCommand := by
  cases i with
  | clr m =>
    cases hm : m.getLsbD 3 with
    | true => cases e.symm.trans (exec_clr_status hm s); exact nofun
    | false => cases e.symm.trans (exec_clr_completes hm s); exact State.complete_fcode_ne_illegalCommand _ .clr
  | pushhw | pushval | pushb =>
    rcases push_next e with ⟨-, rfl⟩ | ⟨-, rfl⟩
    · exact s.raise_fcode_ne_illegalCommand _ nofun
    · exact State.complete_fcode_ne_illegalCommand _ _
  | encode => exact execEncode_fcode_ne_illegalCommand e
  | decode => exact execDecode_fcode_ne_illegalCommand hd e
  | bw | winit | append | finish | splice | rinit | pop => cases hi

/-- Settles O9: every host command answers (`exec_host_next`), and none with that fault
(`exec_host_fcode_ne_illegalCommand`). -/
theorem legalWordNeverRaisesIllegalCommand : Obligations.LegalWordNeverRaisesIllegalCommand := by
  intro s i hi hd
  obtain ⟨t, e⟩ := exec_host_next hi hd
  exact ⟨t, e, exec_host_fcode_ne_illegalCommand hi hd e⟩

/-! ## What a fault leaves (R219) -/

/-- A command that ends in STATE = FAULT has raised. -/
theorem EndsAs.raised {c : Command} {s t : State} (h : EndsAs c s t) (hf : t.status.state = .fault) :
    ∃ r, t = s.raise c r := by
  rcases h with rfl | hr
  · rw [State.complete_status] at hf
    cases hf
  · exact hr

/-- What is recorded of every fault, and where it leaves SEQ (R198, R219). -/
theorem State.raise_recorded (s : State) (c : Command) (r : Raise) :
    (s.raise c r).status.fseen = true ∧ (s.raise c r).status.fcode.isSome = true ∧
      (s.raise c r).seq = { phase := .idle, idx := 0 } := by
  rw [State.raise_status, State.raise_seq]
  exact ⟨rfl, rfl, rfl⟩

/-- Settles O52: both calls leave their sources however they end (`execEncode_sources`, `execDecode_sources`); one that
ends in a fault has raised (`EndsAs.raised`), which empties its destination. -/
theorem faultsLeaveNoPartialResult : Obligations.FaultsLeaveNoPartialResult := by
  intro s hd
  constructor
  · obtain ⟨t, e⟩ := exec_host_next (i := .encode) rfl hd
    obtain ⟨hhw, hvals⟩ := execEncode_sources e
    refine ⟨t, e, hhw, hvals, fun hf => ?_⟩
    obtain ⟨s', -, -, hends⟩ := execEncode_ends e
    obtain ⟨r, rfl⟩ := hends.raised hf
    exact ⟨s'.raise_data .encode r, s'.raise_recorded .encode r⟩
  · obtain ⟨t, e⟩ := exec_host_next (i := .decode) rfl hd
    obtain ⟨hhw, hdata⟩ := execDecode_sources e
    refine ⟨t, e, hhw, hdata, fun hf => ?_⟩
    obtain ⟨s', -, hends⟩ := execDecode_ends e
    obtain ⟨r, rfl⟩ := hends.raised hf
    exact ⟨s'.raise_vals .decode r, s'.raise_recorded .decode r⟩

/-! ## The faults before the first micro-operation (R211, R214) -/

/-- Settles O19: ENCODE raises before it reads an entry (`execEncode_unequal`). -/
theorem encodeOfUnequalListsFaults : Obligations.EncodeOfUnequalListsFaults := fun s hne =>
  ⟨_, execEncode_unequal hne, s.raise_statusIsFault .encode .fieldCountMismatch, s.raise_data _ _, s.raise_hw _ _,
    s.raise_vals _ _, s.raise_rpos _ _, s.raise_sameModelParts _ _⟩

/-- Settles O25: DECODE raises before it reads HW or sets the reader (`execDecode_empty`); EmptyInput reports RPOS = 0. -/
theorem decodeOfEmptyDataFaults : Obligations.DecodeOfEmptyDataFaults := fun s hempty =>
  have hlen : s.data.dlen = 0 := congrArg Memory.dlen hempty
  ⟨_, execDecode_empty hlen, s.raise_statusIsFault .decode .emptyInput, s.raise_vals _ _, s.raise_rpos _ _,
    s.raise_hw _ _, s.raise_data _ _, s.raise_sameModelParts _ _⟩

end Sys2Proof.Machine
end

section
/-! PROOFS. Reset and waiting (R240): a step without a word presented, and the way back to what the host reads after reset. -/

namespace Sys2Proof.Machine

open Sys2Proof

/-- Settles O7: the empty input list selects the waiting branch of `step`. -/
theorem stepWaitsForTheHost : Obligations.StepWaitsForTheHost := by
  intro s hin
  simp only [step, hin]

/-- Settles O15: the mask has its ST bit, so the registers are cleared (`exec_clr_status`), and its other three bits empty
the lists. -/
theorem clrAllReadsLikeReset : Obligations.ClrAllReadsLikeReset := by
  intro s
  have hst : (0xF#4).getLsbD 3 = true := by decide
  refine ⟨_, exec_clr_status hst s, ?lists, ?registers, ?modelParts⟩
  case lists => exact ⟨rfl, rfl, rfl⟩
  case registers => exact ⟨rfl, rfl, rfl, rfl, rfl, rfl⟩
  case modelParts => exact ⟨rfl, rfl, rfl⟩

end Sys2Proof.Machine
end
